-- ==== Sys2Proof/Word.lean ====
section
/-! DEFINITION. The word types of the unit (00_scope R6: all integers are unsigned, addresses are 64 bits wide). -/

namespace Sys2Proof

/-- One byte of system memory or of the register block. -/
abbrev Byte := BitVec 8

/-- A 64-bit word: a register, an address, a table entry, a word of a command or of an event (R6). -/
abbrev Word := BitVec 64

/-- A device id: the 16-bit identity of a requester (R9). -/
abbrev DevId := BitVec 16

/-- A domain id, 16 bits (R9). -/
abbrev DomId := BitVec 16

/-- A guest frame number: an IOVA without its low 12 bits (10_state R27). -/
abbrev Gfn := BitVec 52

/-- A permission set: bit 0 is R, bit 1 is W (R8). -/
abbrev Perms := BitVec 2

end Sys2Proof
end

