-- ==== Sys2Proof/Machine/Bytes.lean ====
section
/-! DEFINITION. Byte order and bit helpers: every multi-byte field is little-endian (20_memory R52), bit 0 is the
least significant (00_scope R6). -/

namespace Sys2Proof

/-- Byte `i` of a list of bytes, 0 past its end (no rule reads past it). -/
def byteAt (bs : List Byte) (i : Nat) : Byte := bs.getD i 0#8

/-- `le64(bytes, o)` of R7: the 8 bytes at offset `o`, least significant first. -/
def le64 (bs : List Byte) (o : Nat) : Word :=
  byteAt bs (o + 7) ++ byteAt bs (o + 6) ++ byteAt bs (o + 5) ++ byteAt bs (o + 4) ++
  byteAt bs (o + 3) ++ byteAt bs (o + 2) ++ byteAt bs (o + 1) ++ byteAt bs o

/-- `le32(bytes, o)` of R7. -/
def le32 (bs : List Byte) (o : Nat) : BitVec 32 :=
  byteAt bs (o + 3) ++ byteAt bs (o + 2) ++ byteAt bs (o + 1) ++ byteAt bs o

/-- Byte `i` of a word: bits `8*i+7` down to `8*i` (R52). -/
def wordByte (v : Word) (i : Nat) : Byte := v.extractLsb' (8 * i) 8

/-- The low `n` bytes of a word, least significant first. -/
def lowBytes (v : Word) (n : Nat) : List Byte := (List.range n).map (wordByte v)

/-- The 8 little-endian bytes of a word (R52). -/
def wordBytes (v : Word) : List Byte := lowBytes v 8

/-- The number a list of bytes codes, least significant byte first. -/
def leNat : List Byte → Nat
  | [] => 0
  | b :: bs => b.toNat + 256 * leNat bs

/-- The word with its byte `i` replaced. -/
def withByte (v : Word) (i : Nat) (b : Byte) : Word :=
  (v &&& ~~~(0xFF#64 <<< (8 * i))) ||| (b.setWidth 64 <<< (8 * i))

/-- How many consecutive one bits `v` has from bit `i` on, looking at `fuel` bits. -/
def onesFrom (v : Word) (i : Nat) : Nat → Nat
  | 0 => 0
  | fuel + 1 => if v.getLsbD i then 1 + onesFrom v (i + 1) fuel else 0

/-- `cto(v)` of R6: the count of trailing ones. -/
def cto (v : Word) : Nat := onesFrom v 0 64

/-- A flag as a 64-bit word, 0 or 1. -/
def flagWord (b : Bool) : Word := (BitVec.ofBool b).setWidth 64

/-- The bits of `StoreAddr[51:3]` (30_encoding R91, R103). -/
def storeAddrField : Word := 0x000F_FFFF_FFFF_FFF8#64

/-- The bits of an invalidation's `Address[63:12]` (30_encoding R93, R94, R103). -/
def invAddressField : Word := 0xFFFF_FFFF_FFFF_F000#64

end Sys2Proof
end

