-- ==== Sys2Proof/Config.lean ====
section
/-! DEFINITION. The OPEN parameters of 00_scope R4: what an implementation fixes and no rule assumes a value of.
They are fields of the state's `cfg`, so a statement about every state holds for every choice. -/

namespace Sys2Proof

/-- What a DMA request does when the device-table entry has V = 1 and TV = 0 (R4, D20). -/
inductive Tv0Policy where
  | block
  | passThrough
  deriving DecidableEq, Repr

/-- The configuration record of R4. The field defaults are the defaults R4 gives. -/
structure Config where
  /-- `DMA_REMAP_SUPPORTED`: when false, a non-zero root pointer in a device-table entry is illegal. -/
  dmaRemapSupported : Bool := true
  /-- `IOTLB_CAPACITY`: how many entries the IOTLB holds, at least 1. -/
  iotlbCapacity : Nat := 1024
  /-- `TV0_POLICY`. -/
  tv0Policy : Tv0Policy := .block
  deriving DecidableEq, Repr

/-- The one bound R4 sets on a parameter: the capacity is at least 1. -/
def Config.wf (c : Config) : Bool := decide (1 ≤ c.iotlbCapacity)

end Sys2Proof
end

