-- ==== Sys2Proof/Machine/Assoc.lean ====
section
/-! DEFINITION. Finite maps and sets as lists in one canonical form: the items' keys strictly rise, so two equal
maps are equal lists. Used for system memory, the IOTLB (10_state R27) and the routing map (10_state R28). -/

namespace Sys2Proof.Machine

variable {α : Type}

/-- The keys strictly rise. -/
def rising (key : α → Nat) (l : List α) : Bool := decide ((l.map key).Pairwise (· < ·))

/-- The item under key `k`. -/
def findKey (key : α → Nat) (k : Nat) (l : List α) : Option α := l.find? fun x => key x == k

/-- The list without the item under key `k`. -/
def eraseKey (key : α → Nat) (k : Nat) (l : List α) : List α := l.filter fun x => key x != k

/-- The list with `x` put before the first item of a larger key. -/
def insertSorted (key : α → Nat) (x : α) : List α → List α
  | [] => [x]
  | y :: ys => if key x < key y then x :: y :: ys else y :: insertSorted key x ys

/-- The list with `x` as the item under its key. -/
def putKey (key : α → Nat) (x : α) (l : List α) : List α := insertSorted key x (eraseKey key (key x) l)

end Sys2Proof.Machine
end

