-- ==== Sys2Proof/Machine/State.lean ====
section
/-! DEFINITION. The state of the unit as plain data (10_state), with the environment it reads and writes (system
memory, the memory port's failures, the configuration), the queue of requests it is given and the record of its
answers; the state after reset. INVENTORY.md's '## State' lists each with its rule. -/

namespace Sys2Proof.Machine

/-- Why the unit would stop. It has no constructor: no error condition stops the unit (60_exceptions R295), every
failure is a response, an event or a status bit (R292). That no run faults is the spec's own claim; safe (log 12). -/
inductive Fault where
  deriving DecidableEq, Repr

/-- Why an instruction has no meaning. Every command has one, so nothing raises this. -/
inductive Refusal where
  /-- Raised by an arm of `exec` whose command is not modelled; no arm does. Safe: the machine would stop. -/
  | notModelled (mnemonic : String)
  deriving DecidableEq, Repr

/-! ### The register file and the latched values -/

/-- The nine registers of 10_state R13. -/
inductive RegName where
  | devtabBase | cmdBase | evtBase | control | cmdHead | cmdTail | evtHead | evtTail | status
  deriving DecidableEq, Repr

/-- The register file's values (10_state R12 to R22). Every byte outside these registers is constant zero
(R23), so it needs no storage (log 7). -/
structure Regs where
  devtabBase : Word
  cmdBase : Word
  evtBase : Word
  control : Word
  cmdHead : Word
  cmdTail : Word
  evtHead : Word
  evtTail : Word
  status : Word
  deriving DecidableEq, Repr

/-- The six latched configuration values (10_state R25). -/
structure Latched where
  devtabBase : Word
  devtabBytes : Word
  cmdBase : Word
  cmdBytes : Word
  evtBase : Word
  evtBytes : Word
  deriving DecidableEq, Repr

/-! ### Hidden state -/

/-- An IOTLB entry with its key `(devid, gfn)` (10_state R27). -/
structure IotlbEntry where
  devid : DevId
  gfn : Gfn
  domid : DomId
  perms : Perms
  translatedAddr : Word
  pageMask : Word
  deriving DecidableEq, Repr

/-- A device's routing state (10_state R28). -/
inductive Routing where
  | passThrough
  | translated
  deriving DecidableEq, Repr

/-! ### Requests, responses, outputs -/

/-- What a device wants to do at an address (R8). -/
inductive Access where
  | read
  | write
  deriving DecidableEq, Repr

/-- An interrupt message (30_encoding R88). -/
structure Message where
  address : Word
  data : BitVec 32
  deriving DecidableEq, Repr

/-- A resolved interrupt (30_encoding R88). -/
structure ResolvedIrq where
  dest : BitVec 32
  vector : BitVec 8
  deliveryMode : BitVec 3
  destMode : Bool
  redirHint : Bool
  deriving DecidableEq, Repr

/-- The closed set of 60_exceptions R290. -/
inductive FaultReason where
  | dteFetchError
  | dteIllegal
  | tvClear
  | modeReserved
  | iovaOutOfRange
  | rootPointerError (pa : Word)
  | pteFetchError (pa : Word)
  | largePageSizeInvalid
  | intTypeUnsupported
  | intPassDisabled
  | irteFetchError
  | irteRemapDisabled
  | irteGuestMode
  | irteTypeReserved
  deriving DecidableEq, Repr

/-- The response of `Translate` (43_translate R180). -/
inductive DmaResponse where
  | ok (iovaBase translatedBase addrMask : Word) (perms : Perms)
  | denied
  | targetAbort
  deriving DecidableEq, Repr

/-- The response of `RemapInterrupt` (45_interrupt_remap R240). -/
inductive RemapResponse where
  | passed (msg : Message)
  | resolved (irq : ResolvedIrq)
  | err (reason : FaultReason)
  deriving DecidableEq, Repr

/-- The size of an invalidated range (30_encoding R106). -/
inductive RangeSize where
  | bytes (n : Word)
  | all
  deriving DecidableEq, Repr

/-- An item of the output trace (10_state R40). -/
inductive Output where
  | interrupt
  | syncDevice (devid : DevId) (routing : Routing)
  | syncDomain (domid : DomId) (addr : Word) (size : RangeSize)
  | resyncAll
  deriving DecidableEq, Repr

/-- A range of addresses, both ends included, on which the memory port fails (20_memory R50, R51; log 5). -/
structure FailRange where
  first : Word
  last : Word
  failsRead : Bool
  failsWrite : Bool
  deriving DecidableEq, Repr

/-- What an agent may ask of the unit or do to the memory it shares with it (00_scope R5, 20_memory R61). -/
inductive Request where
  /-- The host reads the register block (46_mmio R265). Offset and size are whatever was asked for (20_memory R54). -/
  | mmioRead (offset size : Nat)
  /-- The host writes the register block (46_mmio R266); of `value` the low `8 * size` bits are written. -/
  | mmioWrite (offset size : Nat) (value : Word)
  /-- A device asks for a translation (43_translate R180). -/
  | translate (devid : DevId) (iova : Word) (access : Access)
  /-- A device raises an interrupt message (45_interrupt_remap R240). -/
  | remapInterrupt (devid : DevId) (msg : Message)
  /-- The platform resets the unit (70_reset R330). -/
  | reset
  /-- The host stores bytes in system memory (20_memory R61; log 10). -/
  | hostStore (addr : Word) (bytes : List Byte)
  /-- The host loads `n` bytes of system memory (20_memory R61; log 10). -/
  | hostLoad (addr : Word) (n : Nat)
  /-- The platform changes which addresses the unit's memory port fails on (20_memory R50; log 5). -/
  | setMemFails (ranges : List FailRange)
  deriving DecidableEq, Repr

/-- The answer of a request that returns a value (10_state R40; log 9). -/
inductive Response where
  | mmioRead (value : Nat)
  | translate (r : DmaResponse)
  | remapInterrupt (r : RemapResponse)
  | hostLoad (bytes : List Byte)
  deriving DecidableEq, Repr

/-! ### The state -/

/-- System memory: the bytes that are not 0, by address (log 4). -/
abbrev Memory := List Host.Cell

/-- The whole state. -/
structure State where
  /-- The OPEN parameters (R4; log 6). No transition changes them. -/
  cfg : Config
  /-- The register file (10_state R12). -/
  regs : Regs
  /-- The latched configuration (10_state R25). -/
  latched : Latched
  /-- The IOTLB (10_state R27), by rising key. -/
  iotlb : List IotlbEntry
  /-- The device ids whose routing is `Translated` (10_state R28), rising; every other one is `PassThrough`. -/
  translated : List DevId
  /-- System memory (20_memory R50). -/
  mem : Memory
  /-- Where the unit's memory port fails (20_memory R50, R51; log 5). -/
  memFails : List FailRange
  /-- The requests not yet served, the next first (log 1). -/
  inputs : List Request
  /-- The answers of the requests served, the oldest first (log 9). -/
  responses : List Response
  /-- The output trace, the oldest first (10_state R40). -/
  trace : List Output
  deriving DecidableEq, Repr

/-! ### Reset values -/

/-- Every register is 0 after reset (10_state R41). -/
def Regs.reset : Regs :=
  { devtabBase := 0#64, cmdBase := 0#64, evtBase := 0#64, control := 0#64, cmdHead := 0#64, cmdTail := 0#64,
    evtHead := 0#64, evtTail := 0#64, status := 0#64 }

/-- The latched values after reset: what all-zero base registers derive (10_state R41). -/
def Latched.reset : Latched :=
  { devtabBase := 0#64, devtabBytes := 4096#64, cmdBase := 0#64, cmdBytes := 16#64, evtBase := 0#64, evtBytes := 16#64 }

/-- The machine at power on, which is the state after `Reset` (10_state R41, 70_reset R330). The environment's
part (default configuration, nothing listed in memory, no failing range, no request) is the model's choice
(log 4, log 5, log 6), and so is the empty trace (log 8). -/
def State.reset : State :=
  { cfg := {}, regs := Regs.reset, latched := Latched.reset, iotlb := [], translated := [], mem := [],
    memFails := [], inputs := [], responses := [], trace := [] }

end Sys2Proof.Machine
end

