-- ==== Sys2Proof/Machine/Regs.lean ====
section
/-! DEFINITION. The register file: reading and writing a register by name, its offset, and its masks
(10_state R12 to R24). This is the one place through which registers are read and written. -/

namespace Sys2Proof.Machine

/-- A register's value. -/
def Regs.get (r : Regs) : RegName → Word
  | .devtabBase => r.devtabBase
  | .cmdBase => r.cmdBase
  | .evtBase => r.evtBase
  | .control => r.control
  | .cmdHead => r.cmdHead
  | .cmdTail => r.cmdTail
  | .evtHead => r.evtHead
  | .evtTail => r.evtTail
  | .status => r.status

/-- The register file with a register's value replaced, no mask applied: the unit's own updates (R12). -/
def Regs.set (r : Regs) (n : RegName) (v : Word) : Regs :=
  match n with
  | .devtabBase => { r with devtabBase := v }
  | .cmdBase => { r with cmdBase := v }
  | .evtBase => { r with evtBase := v }
  | .control => { r with control := v }
  | .cmdHead => { r with cmdHead := v }
  | .cmdTail => { r with cmdTail := v }
  | .evtHead => { r with evtHead := v }
  | .evtTail => { r with evtTail := v }
  | .status => { r with status := v }

/-- `reg[NAME]` of 00_scope R7. -/
def State.reg (s : State) (n : RegName) : Word := s.regs.get n

/-- `reg[NAME] <- v`, no mask applied (R12). -/
def State.setReg (s : State) (n : RegName) (v : Word) : State := { s with regs := s.regs.set n v }

/-- A register's offset in the register block (R13). -/
def RegName.offset : RegName → Nat
  | .devtabBase => 0x0000
  | .cmdBase => 0x0008
  | .evtBase => 0x0010
  | .control => 0x0018
  | .cmdHead => 0x2000
  | .cmdTail => 0x2008
  | .evtHead => 0x2010
  | .evtTail => 0x2018
  | .status => 0x2020

/-- The nine registers, in the order of R13's table. -/
def RegName.all : List RegName :=
  [.devtabBase, .cmdBase, .evtBase, .control, .cmdHead, .cmdTail, .evtHead, .evtTail, .status]

/-- The register whose eight bytes hold the byte at offset `o`, if one does (R13, R23). -/
def regHolding (o : Nat) : Option RegName := RegName.all.find? fun n => n.offset == o / 8 * 8

/-- The read-only mask of a register (R24). -/
def RegName.ro : RegName → Word
  | .devtabBase => 0xFFF0_0000_0000_0E00#64
  | .cmdBase => 0xF0F0_0000_0000_0FFF#64
  | .evtBase => 0xF0F0_0000_0000_0FFF#64
  | .control => 0#64
  | .cmdHead => 0xFFFF_FFFF_FFF8_000F#64
  | .cmdTail => 0xFFFF_FFFF_FFF8_000F#64
  | .evtHead => 0xFFFF_FFFF_FFF8_000F#64
  | .evtTail => 0xFFFF_FFFF_FFF8_000F#64
  | .status => 0xFFFF_FFFF_FFFF_FFFF#64

/-- The write-one-to-clear mask of a register (R24). -/
def RegName.w1c : RegName → Word
  | .status => 0x0000_0000_0000_0007#64
  | _ => 0#64

/-- `MMIO_BYTES` (00_scope R4). -/
def mmioBytes : Nat := 0x4000

/-- The byte array `mmio` of R12; a byte outside the registers is 0 (R23). -/
def State.mmioByte (s : State) (o : Nat) : Byte :=
  match regHolding o with
  | some n => wordByte (s.reg n) (o % 8)
  | none => 0#8

/-- The byte array `ro` of R12; all ones outside the registers (R23). -/
def roByte (o : Nat) : Byte :=
  match regHolding o with
  | some n => wordByte n.ro (o % 8)
  | none => 0xFF#8

/-- The byte array `w1c` of R12; 0 outside the registers (R23). -/
def w1cByte (o : Nat) : Byte :=
  match regHolding o with
  | some n => wordByte n.w1c (o % 8)
  | none => 0#8

/-- The bits of a pointer register that hold the pointer, 18:4 (R18 to R21). -/
def pointerField : Word := 0x7FFF0#64

/-- `cmd_head` (R11, R18): the unit's program counter, the byte offset of the next command. -/
def State.cmdHead (s : State) : Word := s.reg .cmdHead &&& pointerField

/-- `cmd_tail` (R19). -/
def State.cmdTail (s : State) : Word := s.reg .cmdTail &&& pointerField

/-- `evt_head` (R20). -/
def State.evtHead (s : State) : Word := s.reg .evtHead &&& pointerField

/-- `evt_tail` (R21). -/
def State.evtTail (s : State) : Word := s.reg .evtTail &&& pointerField

/-- The bits of a base register that hold the base address, 51:12 (R14 to R16, R25). -/
def baseField : Word := 0x000F_FFFF_FFFF_F000#64

/-- `16 << reg[59:56]`: the bytes of a ring whose base register holds `v` (R15, R16, R25). -/
def ringBytes (v : Word) : Word := 16#64 <<< (v.extractLsb' 56 4).toNat

/-- `(reg[8:0] + 1) * 4096`: the bytes of the device table (R14, R25). -/
def devtabBytesOf (v : Word) : Word := ((v.extractLsb' 0 9).setWidth 64 + 1#64) * 4096#64

end Sys2Proof.Machine
end

