-- ==== Sys2Proof/Machine/Flags.lean ====
section
/-! DEFINITION. The enables of `CONTROL` (10_state R17, R25) and the flags of `STATUS` (R22, R29): where each bit
stands, and every way the unit sets one. -/

namespace Sys2Proof.Machine

/-- The enable bits of `CONTROL` (R17). -/
inductive ControlFlag where
  | iommuEn | eventLogEn | eventIntEn | comWaitIntEn | cmdBufEn | gaEn
  deriving DecidableEq, Repr

/-- Where an enable bit stands (R17). -/
def ControlFlag.bit : ControlFlag → Nat
  | .iommuEn => 0
  | .eventLogEn => 2
  | .eventIntEn => 3
  | .comWaitIntEn => 4
  | .cmdBufEn => 12
  | .gaEn => 17

/-- The flags of `STATUS` (R22). -/
inductive StatusFlag where
  | eventOverflow | eventLogInt | comWaitInt | eventLogRun | cmdBufRun
  deriving DecidableEq, Repr

/-- Where a flag stands (R22). -/
def StatusFlag.bit : StatusFlag → Nat
  | .eventOverflow => 0
  | .eventLogInt => 1
  | .comWaitInt => 2
  | .eventLogRun => 3
  | .cmdBufRun => 4

/-- The word with its bit `i` replaced. -/
def withBit (v : Word) (i : Nat) (b : Bool) : Word :=
  if b then v ||| (1#64 <<< i) else v &&& ~~~(1#64 <<< i)

/-- `reg[CONTROL].FIELD`. -/
def State.controlFlag (s : State) (f : ControlFlag) : Bool := (s.reg .control).getLsbD f.bit

/-- `reg[STATUS].FIELD`. -/
def State.statusFlag (s : State) (f : StatusFlag) : Bool := (s.reg .status).getLsbD f.bit

/-- `reg[STATUS][i] <- b`, the unit's own update (R12, R22). -/
def State.setStatusFlag (s : State) (f : StatusFlag) (b : Bool) : State :=
  s.setReg .status (withBit (s.reg .status) f.bit b)

/-- `enabled` (R25). -/
def State.enabled (s : State) : Bool := s.controlFlag .iommuEn

/-- `evtlog_enabled` (R25). -/
def State.evtlogEnabled (s : State) : Bool := s.enabled && s.controlFlag .eventLogEn

/-- `evtlog_intr` (R25). -/
def State.evtlogIntr (s : State) : Bool := s.controlFlag .eventIntEn

/-- `comwait_intr` (R25). -/
def State.comwaitIntr (s : State) : Bool := s.controlFlag .comWaitIntEn

/-- `cmdbuf_enabled` (R25). -/
def State.cmdbufEnabled (s : State) : Bool := s.enabled && s.controlFlag .cmdBufEn

/-- `ga_enabled` (R25). -/
def State.gaEnabled (s : State) : Bool := s.controlFlag .gaEn

/-- The first half of a `CONTROL` trigger: the run flags of `STATUS` follow the enables (46_mmio R274, R22). -/
def State.refreshRunFlags (s : State) : State :=
  (s.setStatusFlag .eventLogRun s.evtlogEnabled).setStatusFlag .cmdBufRun s.cmdbufEnabled

end Sys2Proof.Machine
end

