-- ==== Sys2Proof/Machine/Operands.lean ====
section
/-! DEFINITION. The fields of the records the unit reads (30_encoding R81 to R88), the parameters of 00_scope R4 that
are fixed, and the range an invalidation codes (R106). -/

namespace Sys2Proof.Machine

/-! ### Permission sets (00_scope R8) -/

/-- `RW`. -/
def permsRW : Perms := 3#2

/-- `WO`. -/
def permsWO : Perms := 2#2

/-- `NONE`. -/
def permsNone : Perms := 0#2

/-- The permission an access needs. -/
def Access.need : Access → Perms
  | .read => 1#2
  | .write => 2#2

/-- The permission set holds what the access needs. -/
def allows (p : Perms) (access : Access) : Bool := p &&& access.need != 0#2

/-- `perms(e) = e[61] | (e[62] << 1)`, for a page-table entry and for the device-table word q0 alike (R84). -/
def entryPerms (e : Word) : Perms := e.extractLsb' 61 2

/-! ### Device-table entries (30_encoding R81 to R83) -/

/-- The four words of a device-table entry. -/
structure Dte where
  q0 : Word
  q1 : Word
  q2 : Word
  q3 : Word
  deriving DecidableEq, Repr

/-- The entry's words from its 32 bytes (R127). -/
def dteOfBytes (bs : List Byte) : Dte := { q0 := le64 bs 0, q1 := le64 bs 8, q2 := le64 bs 16, q3 := le64 bs 24 }

/-- `V` (R81). -/
def Dte.valid (d : Dte) : Bool := d.q0.getLsbD 0

/-- `TV` (R81). -/
def Dte.translationValid (d : Dte) : Bool := d.q0.getLsbD 1

/-- `Mode` (R81); the same place as a page-table entry's `NextLevel` (R84). -/
def levelField (e : Word) : BitVec 3 := e.extractLsb' 9 3

/-- `Mode` (R81). -/
def Dte.mode (d : Dte) : BitVec 3 := levelField d.q0

/-- `DomainID` (R82). -/
def Dte.domainId (d : Dte) : DomId := d.q1.extractLsb' 0 16

/-- `IV` (R82). -/
def Dte.intValid (d : Dte) : Bool := d.q2.getLsbD 0

/-- The address of the interrupt-remapping table (R82, R103). -/
def Dte.intTabRoot (d : Dte) : Word := d.q2 &&& 0x000F_FFFF_FFFF_FFC0#64

/-- `InitPass` (R82). -/
def Dte.initPass (d : Dte) : Bool := d.q2.getLsbD 56

/-- `EIntPass` (R82). -/
def Dte.eintPass (d : Dte) : Bool := d.q2.getLsbD 57

/-- `NMIPass` (R82). -/
def Dte.nmiPass (d : Dte) : Bool := d.q2.getLsbD 58

/-- `DTE_RSVD[0]` (R83). -/
def dteRsvd0 : Word := 0x9FF0_0000_0000_007C#64

/-- `DTE_RSVD[1]` (R83). -/
def dteRsvd1 : Word := 0#64

/-- `DTE_RSVD[2]` (R83). -/
def dteRsvd2 : Word := 0x00F0_0000_0000_0000#64

/-- `DTE_RSVD[3]` (R83). -/
def dteRsvd3 : Word := 0#64

/-- The entry has a reserved bit set (R124 (a)). -/
def Dte.hasReservedBit (d : Dte) : Bool :=
  d.q0 &&& dteRsvd0 != 0#64 || d.q1 &&& dteRsvd1 != 0#64 || d.q2 &&& dteRsvd2 != 0#64 || d.q3 &&& dteRsvd3 != 0#64

/-! ### Page-table entries (30_encoding R84, R85, R103) -/

/-- `addr(e)`: bits 51:12, of a page-table entry and of the device-table word q0 alike (R84). -/
def entryAddr (e : Word) : Word := e &&& 0x000F_FFFF_FFFF_F000#64

/-- `PR` (R84). -/
def present (e : Word) : Bool := e.getLsbD 0

/-- `e = 1 + cto(pte | 0xFFF)`: the log of a large page's size (R85). -/
def largePageLog (e : Word) : Nat := 1 + cto (e ||| 0xFFF#64)

/-- `12 + 9 * k`: the log of what one entry `k` levels above a 4 KiB page covers (R139, D1). -/
def levelShift (k : Nat) : Nat := 12 + 9 * k

/-- `2^(12 + 9 * k)` as an address. -/
def levelSize (k : Nat) : Word := 1#64 <<< levelShift k

/-- The index of `iova` in the table whose entries each cover `levelSize k` (R103, R143). -/
def tableIndex (iova : Word) (k : Nat) : Word := (iova >>> levelShift k) &&& 0x1FF#64

/-- `a & ~(size - 1)`: the first address of the page of `a`. -/
def pageBase (a size : Word) : Word := a &&& ~~~(size - 1#64)

/-- The 4 KiB base of an address, `a & ~0xFFF`. -/
def base4K (a : Word) : Word := pageBase a 0x1000#64

/-! ### Interrupt messages and remapping entries (30_encoding R86 to R88) -/

/-- The table index, `data[10:0]` (R88, R246). -/
def Message.index (m : Message) : BitVec 11 := m.data.extractLsb' 0 11

/-- The delivery type, `data[10:8]` (R88, R245). -/
def Message.deliveryType (m : Message) : BitVec 3 := m.data.extractLsb' 8 3

/-- The bytes of an interrupt-remapping entry (R86, R87). -/
def irteBytes (ga : Bool) : Nat := if ga then 8 else 4

/-- The entry from its bytes, a legacy one in the low 32 bits (R86, R87). -/
def irteOfBytes (ga : Bool) (bs : List Byte) : Word := if ga then le64 bs 0 else (le32 bs 0).setWidth 64

/-- `RemapEn` (R86). -/
def irteRemapEn (e : Word) : Bool := e.getLsbD 0

/-- `IntType` (R86). -/
def irteIntType (e : Word) : BitVec 3 := e.extractLsb' 2 3

/-- `GuestMode` (R86). -/
def irteGuestMode (e : Word) : Bool := e.getLsbD 7

/-- The interrupt a valid entry resolves to (R248). -/
def irteResolve (ga : Bool) (e : Word) : ResolvedIrq :=
  { dest := if ga then (e.extractLsb' 56 8) ++ (e.extractLsb' 8 24) else (e.extractLsb' 8 8).setWidth 32
    vector := if ga then e.extractLsb' 32 8 else e.extractLsb' 16 8
    deliveryMode := irteIntType e
    destMode := e.getLsbD 6
    redirHint := e.getLsbD 5 }

/-- The packing of a resolved interrupt into an outgoing message. Informative: no rule depends on it (R88; log 14). -/
def ResolvedIrq.pack (r : ResolvedIrq) : Message :=
  { address := ((r.dest &&& 0xFFFF_FF00#32).setWidth 64 <<< 32) ||| 0xFEE0_0000#64
      ||| ((r.dest &&& 0xFF#32).setWidth 64 <<< 12) ||| (flagWord r.redirHint <<< 3) ||| (flagWord r.destMode <<< 2)
    data := r.vector.setWidth 32 ||| (r.deliveryMode.setWidth 32 <<< 8) }

/-! ### The interrupt window (00_scope R4) -/

/-- The address lies in `INT_WINDOW`, 0xFEE0_0000 to 0xFEEF_FFFF (R4, 43_translate R182). -/
def inIntWindow (iova : Word) : Bool := decide (0xFEE0_0000#64 ≤ iova) && decide (iova ≤ 0xFEEF_FFFF#64)

/-! ### Event records (30_encoding R100 to R102) -/

/-- The event codes of R101. -/
inductive EventCode where
  | illegalDevTableEntry
  | ioPageFault
  | devTabHwError
  | pageTabHwError
  | illegalCommandError
  | commandHwError
  deriving DecidableEq, Repr

/-- An event's code number (R101). -/
def EventCode.number : EventCode → BitVec 4
  | .illegalDevTableEntry => 1#4
  | .ioPageFault => 2#4
  | .devTabHwError => 3#4
  | .pageTabHwError => 4#4
  | .illegalCommandError => 5#4
  | .commandHwError => 6#4

/-- The flags of an `IO_PAGE_FAULT` event: `PR` is `info[4]`, `RW` is `info[5]` (R102). -/
def pageFaultFlags (pr : Bool) (access : Access) : BitVec 12 :=
  ((BitVec.ofBool pr).setWidth 12 <<< 4) ||| ((BitVec.ofBool (access == .write)).setWidth 12 <<< 5)

/-- Word q0 of an event: `devid | (info << 48)` with `info = (code << 12) | flags` (R100, 60_exceptions R301). -/
def eventWord0 (code : EventCode) (devid : DevId) (flags : BitVec 12) : Word :=
  devid.setWidth 64 ||| (((code.number.setWidth 16 <<< 12) ||| flags.setWidth 16).setWidth 64 <<< 48)

/-- The 16 bytes of an event (60_exceptions R302). -/
def eventBytes (code : EventCode) (devid : DevId) (flags : BitVec 12) (addr : Word) : List Byte :=
  wordBytes (eventWord0 code devid flags) ++ wordBytes addr

/-! ### The size-coded range of `INVALIDATE_IOMMU_PAGES` (30_encoding R106) -/

/-- The range `(addr, size)` of the flag `S` and the address operand `A`. -/
def decodeRange (sizeFlag : Bool) (address : Word) : Word × RangeSize :=
  if sizeFlag then
    let t := cto (address >>> 12)
    if 51 ≤ t then (0#64, .all) else (pageBase address (1#64 <<< (13 + t)), .bytes (1#64 <<< (13 + t)))
  else (address, .bytes 0x1000#64)

end Sys2Proof.Machine
end

