-- ==== Sys2Proof/Machine/Ops.lean ====
section
/-! DEFINITION. The named operations over memory, the routing map, the trace and the event log. `logEvent` is the
unit's taking of an exception (60_exceptions R300 to R304); its counterpart, the return, is the host consuming the log
by register writes (R305), so no operation of the unit stands beside it. -/

namespace Sys2Proof.Machine

/-! ### System memory (20_memory R50 to R52) -/

/-- What an address that memory does not list reads as (log 4). -/
def unlistedByte : Byte := 0#8

/-- The byte at an address. -/
def readByte (m : Memory) (a : Nat) : Byte := ((findKey Prod.fst a m).map Prod.snd).getD unlistedByte

/-- Memory with the byte at an address replaced, in canonical form. -/
def writeByte (m : Memory) (a : Nat) (b : Byte) : Memory :=
  if b = unlistedByte then eraseKey Prod.fst a m else putKey Prod.fst (a, b) m

/-- Memory is in its canonical form: addresses of the 64-bit space, strictly rising, and no byte listed that an
unlisted address reads as anyway. -/
def Memory.wf (m : Memory) : Bool :=
  rising Prod.fst m && m.all fun c => decide (c.1 < 2 ^ 64) && c.2 != unlistedByte

/-- The `n` bytes from an address on, ascending; the address wraps modulo 2^64 (00_scope R6). -/
def readBytes (m : Memory) (a : Word) : Nat → List Byte
  | 0 => []
  | n + 1 => readByte m a.toNat :: readBytes m (a + 1#64) n

/-- Memory with the bytes stored from an address on, ascending. -/
def writeBytes (m : Memory) (a : Word) : List Byte → Memory
  | [] => m
  | b :: bs => writeBytes (writeByte m a.toNat b) (a + 1#64) bs

/-- The range makes a read fail at this address. -/
def FailRange.hitsRead (r : FailRange) (a : Word) : Bool := r.failsRead && decide (r.first ≤ a) && decide (a ≤ r.last)

/-- The range makes a write fail at this address. -/
def FailRange.hitsWrite (r : FailRange) (a : Word) : Bool := r.failsWrite && decide (r.first ≤ a) && decide (a ≤ r.last)

/-- A read of `n` bytes fails: one of them lies in a range on which reads fail (R50; log 5). -/
def State.readFails (s : State) (a : Word) (n : Nat) : Bool :=
  (List.range n).any fun k => s.memFails.any fun r => r.hitsRead (a + BitVec.ofNat 64 k)

/-- A write of `n` bytes fails: one of them lies in a range on which writes fail (R51; log 5). -/
def State.writeFails (s : State) (a : Word) (n : Nat) : Bool :=
  (List.range n).any fun k => s.memFails.any fun r => r.hitsWrite (a + BitVec.ofNat 64 k)

/-- `MemRead(addr, n)`: the bytes, or `none` for `Fail` (R50). -/
def memRead (s : State) (a : Word) (n : Nat) : Option (List Byte) :=
  if s.readFails a n then none else some (readBytes s.mem a n)

/-- `MemWrite(addr, n, v)`: the state after it, or `none` for `Fail`, which writes no byte (R51). -/
def memWrite (s : State) (a : Word) (bs : List Byte) : Option State :=
  if s.writeFails a bs.length then none else some { s with mem := writeBytes s.mem a bs }

/-- A `MemWrite` whose failure is dropped, as both of the unit's writes are (R51, D16). -/
def memWriteDrop (s : State) (a : Word) (bs : List Byte) : State := (memWrite s a bs).getD s

/-! ### Outputs and responses (10_state R40) -/

/-- `Emit(o)`. -/
def State.emit (s : State) (o : Output) : State := { s with trace := s.trace ++ [o] }

/-- `Emit(Interrupt)` if the enable is 1 (60_exceptions R303). -/
def State.raiseIf (s : State) (enable : Bool) : State := if enable then s.emit .interrupt else s

/-- The answer of a request (log 9). -/
def State.respond (s : State) (r : Response) : State := { s with responses := s.responses ++ [r] }

/-! ### The routing map (10_state R28) -/

/-- `routing[devid]`. -/
def State.routing (s : State) (devid : DevId) : Routing :=
  if devid ∈ s.translated then .translated else .passThrough

/-- `routing[devid] <- r`. -/
def State.setRouting (s : State) (devid : DevId) (r : Routing) : State :=
  { s with translated :=
      match r with
      | .translated => putKey BitVec.toNat devid s.translated
      | .passThrough => eraseKey BitVec.toNat devid.toNat s.translated }

/-! ### Taking an exception: the event log (60_exceptions R300 to R304) -/

/-- `(evt_tail + 16) mod evt_bytes` (R301). -/
def State.evtNext (s : State) : Word := (s.evtTail + 16#64) % s.latched.evtBytes

/-- `LogEvent(code, devid, flags, addr)` (R300, R301). -/
def logEvent (s : State) (code : EventCode) (devid : DevId) (flags : BitVec 12) (addr : Word) : State :=
  if !s.evtlogEnabled then s
  else if s.evtNext = s.evtHead then (s.setStatusFlag .eventOverflow true).raiseIf s.evtlogIntr
  else
    (((memWriteDrop s (s.latched.evtBase + s.evtTail) (eventBytes code devid flags addr)).setReg .evtTail s.evtNext)
      |>.setStatusFlag .eventLogInt true).raiseIf s.evtlogIntr

/-! ### The device-table entry fetch (40_device_table_fetch) -/

/-- What `fetch_dte` returns (R120). -/
inductive DteResult where
  | ok (dte : Dte)
  | notValid (dte : Dte)
  | err (reason : FaultReason)
  deriving DecidableEq, Repr

/-- `devtab_base + 32 * devid` (R121). -/
def State.dteAddr (s : State) (devid : DevId) : Word := s.latched.devtabBase + 32#64 * devid.setWidth 64

/-- The device id lies beyond the device table: `32 * devid + 32 > devtab_bytes` (R121). -/
def State.beyondDevtab (s : State) (devid : DevId) : Bool :=
  decide (s.latched.devtabBytes < 32#64 * devid.setWidth 64 + 32#64)

/-- A valid entry is illegal (R124). -/
def State.dteIllegal (s : State) (d : Dte) : Bool :=
  d.hasReservedBit || (!s.cfg.dmaRemapSupported && entryAddr d.q0 != 0#64)

/-- `fetch_dte(devid)` (R127), with the state after what it logs. -/
def fetchDte (s : State) (devid : DevId) : DteResult × State :=
  if s.beyondDevtab devid then
    (.err .dteFetchError, logEvent s .devTabHwError devid 0#12 (s.dteAddr devid))
  else
    match memRead s (s.dteAddr devid) 32 with
    | none => (.err .dteFetchError, logEvent s .devTabHwError devid 0#12 (s.dteAddr devid))
    | some bs =>
      let d := dteOfBytes bs
      if !d.valid then (.notValid d, s)
      else if s.dteIllegal d then (.err .dteIllegal, logEvent s .illegalDevTableEntry devid 0#12 (s.dteAddr devid))
      else (.ok d, s)

/-! ### The command ring (44_commands) -/

/-- The address of the next command, `cmd_base + cmd_head` (R202). -/
def State.cmdAddr (s : State) : Word := s.latched.cmdBase + s.cmdHead

/-- The command's 16 bytes, read as it is about to execute (R202, 20_memory R63). -/
def fetchCommand (s : State) : Option (List Byte) := memRead s s.cmdAddr 16

/-- The head after a command, `(cmd_head + 16) mod cmd_bytes` (R203). -/
def State.cmdNext (s : State) : Word := (s.cmdHead + 16#64) % s.latched.cmdBytes

/-- The head advance (R203). -/
def advanceHead (s : State) : State := s.setReg .cmdHead s.cmdNext

/-- The loop condition of the drain: `cmdbuf_enabled = 1 and cmd_head != cmd_tail` (R201). -/
def State.drainPending (s : State) : Bool := s.cmdbufEnabled && s.cmdHead != s.cmdTail

end Sys2Proof.Machine
end

