-- ==== Sys2Proof/Machine/Remap.lean ====
section
/-! DEFINITION. The interrupt remapping resolver (45_interrupt_remap R240 to R251). -/

namespace Sys2Proof.Machine

/-- The address of the message's entry in the device's remapping table (R246). -/
def irteAddr (ga : Bool) (dte : Dte) (msg : Message) : Word :=
  dte.intTabRoot + BitVec.ofNat 64 (irteBytes ga) * msg.index.setWidth 64

/-- A fixed or arbitrated message: the entry is read, validated and resolved (R246 to R248). -/
def remapThroughTable (s : State) (dte : Dte) (msg : Message) : RemapResponse :=
  match memRead s (irteAddr s.gaEnabled dte msg) (irteBytes s.gaEnabled) with
  | none => .err .irteFetchError
  | some bs =>
    let e := irteOfBytes s.gaEnabled bs
    if !irteRemapEn e then .err .irteRemapDisabled
    else if irteGuestMode e then .err .irteGuestMode
    else if 1#3 < irteIntType e then .err .irteTypeReserved
    else .resolved (irteResolve s.gaEnabled e)

/-- A message let through by a pass bit of the device-table entry (R249). -/
def remapByPassBit (pass : Bool) (msg : Message) : RemapResponse :=
  if pass then .passed msg else .err .intPassDisabled

/-- The dispatch on the delivery type (R245). -/
def remapByType (s : State) (dte : Dte) (msg : Message) : RemapResponse :=
  match msg.deliveryType.toNat with
  | 0 => remapThroughTable s dte msg
  | 1 => remapThroughTable s dte msg
  | 4 => remapByPassBit dte.nmiPass msg
  | 5 => remapByPassBit dte.initPass msg
  | 7 => remapByPassBit dte.eintPass msg
  | _ => .err .intTypeUnsupported

/-- `RemapInterrupt(devid, msg)` (R251). Its state changes only by what `fetch_dte` logs (R240, R250). -/
def remapInterrupt (s : State) (devid : DevId) (msg : Message) : RemapResponse × State :=
  if !s.enabled then (.passed msg, s)
  else
    match fetchDte s devid with
    | (.notValid _, s1) => (.passed msg, s1)
    | (.err r, s1) => (.err r, s1)
    | (.ok dte, s1) => (if !dte.intValid then .passed msg else remapByType s1 dte msg, s1)

end Sys2Proof.Machine
end

