-- ==== Sys2Proof/Syntax.lean ====
section
/-! DEFINITION. The commands of the ring: one constructor per row of spec/opcode_table.json (30_encoding R90).
A field is carried as the spec carries it: an address field by masking, not shifting (R103), so it is a 64-bit word
whose bits outside the field are 0 (WellFormed.lean). Bits the spec calls ignored (R89) are no field (log 13). -/

namespace Sys2Proof

/-- A command of the unit. -/
inductive Instr where
  /-- `COMPLETION_WAIT`: s, i, f, the store address and the store data (R91). -/
  | completionWait (store interrupt flush : Bool) (addr data : Word)
  /-- `INVALIDATE_DEVTAB_ENTRY` (R92). -/
  | invalidateDevtabEntry (devid : DevId)
  /-- `INVALIDATE_IOMMU_PAGES`: the domain, the size flag S and the address (R93). -/
  | invalidateIommuPages (domid : DomId) (sizeFlag : Bool) (address : Word)
  /-- `INVALIDATE_IOTLB_PAGES`: the device, the size flag S and the address (R94). -/
  | invalidateIotlbPages (devid : DevId) (sizeFlag : Bool) (address : Word)
  /-- `INVALIDATE_INTERRUPT_TABLE` (R95). -/
  | invalidateInterruptTable (devid : DevId)
  /-- `PREFETCH_IOMMU_PAGES` (R96). -/
  | prefetchIommuPages (devid : DevId)
  /-- `COMPLETE_PPR_REQUEST` (R97). -/
  | completePprRequest (devid : DevId)
  /-- `INVALIDATE_IOMMU_ALL` (R98). -/
  | invalidateIommuAll
  deriving DecidableEq, Repr

end Sys2Proof
end

