-- ==== Sys2Proof/WellFormed.lean ====
section
/-! DEFINITION. Which terms of `Instr` stand for a command: the address operands hold only bits their field has
(30_encoding R91, R93, R94, R103). Every other operand fits its field by its type. -/

namespace Sys2Proof

/-- The operand holds no bit outside its field. -/
def inField (field v : Word) : Bool := v &&& ~~~field == 0#64

/-- A command's operands fit its format. -/
def Instr.wf : Instr → Bool
  | .completionWait _ _ _ addr _ => inField storeAddrField addr
  | .invalidateDevtabEntry _ => true
  | .invalidateIommuPages _ _ address => inField invAddressField address
  | .invalidateIotlbPages _ _ address => inField invAddressField address
  | .invalidateInterruptTable _ => true
  | .prefetchIommuPages _ => true
  | .completePprRequest _ => true
  | .invalidateIommuAll => true

end Sys2Proof
end

