-- ==== Sys2Proof/Decode.lean ====
section
/-! DEFINITION. Decoding a command from its 16 bytes, total and rejecting by name (30_encoding R89 to R99), and the
encoder written from the same format rules. -/

namespace Sys2Proof

/-- Why 16 bytes are no command (R99, 44_commands R205), and the short list the fetch never gives (R89). -/
inductive DecodeError where
  /-- Fewer than 16 bytes were given. -/
  | truncated
  /-- The opcode is 0x0 or 0x9 to 0xF. -/
  | unrecognisedOpcode (opcode : BitVec 4)
  /-- A recognised opcode with a reserved bit set. -/
  | reservedBits (opcode : BitVec 4)
  deriving DecidableEq, Repr

/-- The opcode, `q0[63:60]` (R89). -/
def opcodeOf (q0 : Word) : BitVec 4 := q0.extractLsb' 60 4

/-- `(rsvd0, rsvd1)` of a recognised opcode (R91 to R98); `none` for an unrecognised one (R99). -/
def reservedMasks (op : BitVec 4) : Option (Word × Word) :=
  match op.toNat with
  | 1 => some (0x0FF0_0000_0000_0000#64, 0#64)
  | 2 => some (0x0FFF_FFFF_FFFF_0000#64, 0xFFFF_FFFF_FFFF_FFFF#64)
  | 3 => some (0x0FFF_0000_FFF0_0000#64, 0x0000_0000_0000_0FF8#64)
  | 4 => some (0#64, 0x0000_0000_0000_0FCA#64)
  | 5 => some (0x0FFF_FFFF_FFFF_0000#64, 0xFFFF_FFFF_FFFF_FFFF#64)
  | 6 => some (0x0FF0_0000_00FF_0000#64, 0x0000_0000_0000_0FEA#64)
  | 7 => some (0x0FF0_0000_FFFF_0000#64, 0x0000_0000_FFFF_FFFB#64)
  | 8 => some (0x0FFF_FFFF_FFFF_FFFF#64, 0xFFFF_FFFF_FFFF_FFFF#64)
  | _ => none

/-- The bits of `q0` and `q1` that are neither a field, nor reserved, nor the opcode (R89, R91 to R98): any value is
accepted and no rule reads them. -/
def ignoredBits (op : BitVec 4) : Word × Word :=
  match op.toNat with
  | 3 => (0x0000_0000_000F_FFFF#64, 0x0000_0000_0000_0006#64)
  | 4 => (0x0FFF_FFFF_FFFF_0000#64, 0x0000_0000_0000_0034#64)
  | 6 => (0x000F_FFFF_FF00_0000#64, 0xFFFF_FFFF_FFFF_F015#64)
  | 7 => (0x000F_FFFF_0000_0000#64, 0xFFFF_FFFF_0000_0004#64)
  | _ => (0#64, 0#64)

/-- `q0[15:0]`, the `DeviceID` of R92 and R94 to R97. -/
def cmdDevId (q0 : Word) : DevId := q0.extractLsb' 0 16

/-- `q0[47:32]`, the `DomainID` of R93. -/
def cmdDomId (q0 : Word) : DomId := q0.extractLsb' 32 16

/-- The operands of a command of a recognised opcode (R91 to R98, R103). -/
def decodeOperands (op : BitVec 4) (q0 q1 : Word) : Option Instr :=
  match op.toNat with
  | 1 => some (.completionWait (q0.getLsbD 0) (q0.getLsbD 1) (q0.getLsbD 2) (q0 &&& storeAddrField) q1)
  | 2 => some (.invalidateDevtabEntry (cmdDevId q0))
  | 3 => some (.invalidateIommuPages (cmdDomId q0) (q1.getLsbD 0) (q1 &&& invAddressField))
  | 4 => some (.invalidateIotlbPages (cmdDevId q0) (q1.getLsbD 0) (q1 &&& invAddressField))
  | 5 => some (.invalidateInterruptTable (cmdDevId q0))
  | 6 => some (.prefetchIommuPages (cmdDevId q0))
  | 7 => some (.completePprRequest (cmdDevId q0))
  | 8 => some .invalidateIommuAll
  | _ => none

/-- The check of R205 in R293's order: the opcode first, then the reserved bits. -/
def decodeWords (q0 q1 : Word) : Except DecodeError Instr :=
  match reservedMasks (opcodeOf q0), decodeOperands (opcodeOf q0) q0 q1 with
  | some (rsvd0, rsvd1), some i =>
    if q0 &&& rsvd0 != 0#64 || q1 &&& rsvd1 != 0#64 then .error (.reservedBits (opcodeOf q0)) else .ok i
  | _, _ => .error (.unrecognisedOpcode (opcodeOf q0))

/-- A command from the first 16 of its bytes: `q0` is bytes 0 to 7, `q1` bytes 8 to 15, little-endian (R89). -/
def decode (bs : List Byte) : Except DecodeError Instr :=
  if bs.length < 16 then .error .truncated else decodeWords (le64 bs 0) (le64 bs 8)

/-- A command's two words, its ignored bits 0 (R91 to R98). -/
def encodeWords : Instr → Word × Word
  | .completionWait s i f addr data =>
    (0x1000_0000_0000_0000#64 ||| addr ||| flagWord s ||| (flagWord i <<< 1) ||| (flagWord f <<< 2), data)
  | .invalidateDevtabEntry devid => (0x2000_0000_0000_0000#64 ||| devid.setWidth 64, 0#64)
  | .invalidateIommuPages domid s address =>
    (0x3000_0000_0000_0000#64 ||| (domid.setWidth 64 <<< 32), address ||| flagWord s)
  | .invalidateIotlbPages devid s address =>
    (0x4000_0000_0000_0000#64 ||| devid.setWidth 64, address ||| flagWord s)
  | .invalidateInterruptTable devid => (0x5000_0000_0000_0000#64 ||| devid.setWidth 64, 0#64)
  | .prefetchIommuPages devid => (0x6000_0000_0000_0000#64 ||| devid.setWidth 64, 0#64)
  | .completePprRequest devid => (0x7000_0000_0000_0000#64 ||| devid.setWidth 64, 0#64)
  | .invalidateIommuAll => (0x8000_0000_0000_0000#64, 0#64)

/-- A command's 16 bytes as they stand in the ring (R89). -/
def encode (i : Instr) : List Byte := wordBytes (encodeWords i).1 ++ wordBytes (encodeWords i).2

/-- The 16 bytes of a command given as one number, the way spec/opcode_table.json numbers its bits:
`q1 || q0`, every bit from `nbits` on being 0. -/
def commandBytes (nbits w : Nat) : List Byte :=
  (List.range 16).map fun k => BitVec.ofNat 8 ((w % 2 ^ nbits) >>> (8 * k))

/-- The instruction the decoder reads from a row's bits. -/
def decodeTableWord (nbits w : Nat) : Option Instr :=
  match decode (commandBytes nbits w) with
  | .ok i => some i
  | .error _ => none

end Sys2Proof
end

