-- ==== Sys2Proof/Machine/Completion.lean ====
section
/-! DEFINITION. The completion command (44_commands R210). -/

namespace Sys2Proof.Machine

/-- The store half of `COMPLETION_WAIT`: 8 little-endian bytes; a failed store is dropped (R210, 20_memory R51). -/
def completionStore (s : State) (store : Bool) (addr data : Word) : State :=
  if store then memWriteDrop s addr (wordBytes data) else s

/-- The interrupt half of `COMPLETION_WAIT` (R210, 60_exceptions R303). -/
def completionInterrupt (s : State) (interrupt : Bool) : State :=
  if interrupt then (s.setStatusFlag .comWaitInt true).raiseIf s.comwaitIntr else s

/-- `COMPLETION_WAIT` (R210); the flush bit has no effect (20_memory R62). -/
def execCompletionWait (store interrupt _flush : Bool) (addr data : Word) (s : State) :
    Host.Outcome State Fault Refusal :=
  .next (completionInterrupt (completionStore s store addr data) interrupt)

end Sys2Proof.Machine
end

