-- ==== Sys2Proof/Machine/Iotlb.lean ====
section
/-! DEFINITION. The IOTLB and its six operations (42_iotlb R160 to R167). -/

namespace Sys2Proof.Machine

/-- The guest frame number of an address, `iova >> 12` (R161). -/
def gfnOf (iova : Word) : Gfn := iova.extractLsb' 12 52

/-- A key `(devid, gfn)` as one number, the device id in the high bits. -/
def iotlbKeyOf (devid : DevId) (gfn : Gfn) : Nat := devid.toNat * 2 ^ 52 + gfn.toNat

/-- An entry's key as one number. -/
def IotlbEntry.key (e : IotlbEntry) : Nat := iotlbKeyOf e.devid e.gfn

/-- `iotlb_lookup(devid, iova)` (R162). -/
def iotlbLookup (s : State) (devid : DevId) (iova : Word) : Option IotlbEntry :=
  findKey IotlbEntry.key (iotlbKeyOf devid (gfnOf iova)) s.iotlb

/-- `iotlb_invalidate_page(devid, iova)` (R164). -/
def iotlbInvalidatePage (s : State) (devid : DevId) (iova : Word) : State :=
  { s with iotlb := eraseKey IotlbEntry.key (iotlbKeyOf devid (gfnOf iova)) s.iotlb }

/-- `iotlb_invalidate_device(devid)` (R165). -/
def iotlbInvalidateDevice (s : State) (devid : DevId) : State :=
  { s with iotlb := s.iotlb.filter fun e => e.devid != devid }

/-- `iotlb_invalidate_domain(domid)` (R166). -/
def iotlbInvalidateDomain (s : State) (domid : DomId) : State :=
  { s with iotlb := s.iotlb.filter fun e => e.domid != domid }

/-- `iotlb_invalidate_all()` (R167). -/
def iotlbInvalidateAll (s : State) : State := { s with iotlb := [] }

/-- `iotlb_insert(devid, iova, translated_addr, page_size, perms, domid)` (R163). -/
def iotlbInsert (s : State) (devid : DevId) (iova translatedAddr pageSize : Word) (perms : Perms) (domid : DomId) :
    State :=
  if perms = permsNone then s
  else
    let s1 := iotlbInvalidatePage s devid iova
    let s2 := if s1.cfg.iotlbCapacity ≤ s1.iotlb.length then iotlbInvalidateAll s1 else s1
    let e : IotlbEntry :=
      { devid := devid, gfn := gfnOf iova, domid := domid, perms := perms, translatedAddr := translatedAddr,
        pageMask := pageSize - 1#64 }
    { s2 with iotlb := putKey IotlbEntry.key e s2.iotlb }

end Sys2Proof.Machine
end

