-- ==== Sys2Proof/Machine/Invalidate.lean ====
section
/-! DEFINITION. The commands that change the routing map or the IOTLB (44_commands R212, R213, R214, R218). -/

namespace Sys2Proof.Machine

/-- The routing an outcome of `fetch_dte` gives a device; an error isolates it (R212, 90_conflicts C1). -/
def routingOfFetch : DteResult → Routing
  | .ok dte => if dte.mode = 0#3 then .passThrough else .translated
  | .notValid _ => .passThrough
  | .err _ => .translated

/-- `INVALIDATE_DEVTAB_ENTRY` (R212). -/
def execInvalidateDevtabEntry (devid : DevId) (s : State) : Host.Outcome State Fault Refusal :=
  let fetched := fetchDte s devid
  let new := routingOfFetch fetched.1
  .next ((fetched.2.setRouting devid new).emit (.syncDevice devid new))

/-- `INVALIDATE_IOMMU_PAGES` (R213). -/
def execInvalidateIommuPages (domid : DomId) (sizeFlag : Bool) (address : Word) (s : State) :
    Host.Outcome State Fault Refusal :=
  let range := decodeRange sizeFlag address
  .next ((iotlbInvalidateDomain s domid).emit (.syncDomain domid range.1 range.2))

/-- `INVALIDATE_IOTLB_PAGES` (R214). -/
def execInvalidateIotlbPages (devid : DevId) (sizeFlag : Bool) (address : Word) (s : State) :
    Host.Outcome State Fault Refusal :=
  .next (if sizeFlag then iotlbInvalidateDevice s devid else iotlbInvalidatePage s devid address)

/-- `INVALIDATE_IOMMU_ALL` (R218). -/
def execInvalidateIommuAll (s : State) : Host.Outcome State Fault Refusal :=
  .next ((iotlbInvalidateAll s).emit .resyncAll)

end Sys2Proof.Machine
end

