-- ==== Sys2Proof/Machine/NoEffect.lean ====
section
/-! DEFINITION. The commands the spec gives no effect on any state and no output (44_commands R215, R216, R217). -/

namespace Sys2Proof.Machine

/-- `INVALIDATE_INTERRUPT_TABLE`: the unit caches no interrupt-remapping entry (R215). -/
def execInvalidateInterruptTable (_devid : DevId) (s : State) : Host.Outcome State Fault Refusal := .next s

/-- `PREFETCH_IOMMU_PAGES`: a hint (R217). -/
def execPrefetchIommuPages (_devid : DevId) (s : State) : Host.Outcome State Fault Refusal := .next s

/-- `COMPLETE_PPR_REQUEST`: accepted and ignored (R216). -/
def execCompletePprRequest (_devid : DevId) (s : State) : Host.Outcome State Fault Refusal := .next s

end Sys2Proof.Machine
end

