-- ==== Sys2Proof/Machine/Dispatch.lean ====
section
/-! DEFINITION. The dispatch of 44_commands R206: one arm per command. -/

namespace Sys2Proof.Machine

def exec (i : Instr) (s : State) : Host.Outcome State Fault Refusal :=
  match i with
  | .completionWait store interrupt flush addr data => Sys2Proof.Machine.execCompletionWait store interrupt flush addr data s
  | .invalidateDevtabEntry devid => Sys2Proof.Machine.execInvalidateDevtabEntry devid s
  | .invalidateIommuPages domid sizeFlag address => Sys2Proof.Machine.execInvalidateIommuPages domid sizeFlag address s
  | .invalidateIotlbPages devid sizeFlag address => Sys2Proof.Machine.execInvalidateIotlbPages devid sizeFlag address s
  | .invalidateInterruptTable devid => Sys2Proof.Machine.execInvalidateInterruptTable devid s
  | .prefetchIommuPages devid => Sys2Proof.Machine.execPrefetchIommuPages devid s
  | .completePprRequest devid => Sys2Proof.Machine.execCompletePprRequest devid s
  | .invalidateIommuAll => Sys2Proof.Machine.execInvalidateIommuAll s

end Sys2Proof.Machine
end

