-- ==== Sys2Proof/Machine/Mmio.lean ====
section
/-! DEFINITION. Register block reads and writes and their triggers (46_mmio R265 to R279), but for the drain, which
Ring.lean runs after them. -/

namespace Sys2Proof.Machine

/-- The request is not refused: size 1, 2, 4 or 8, aligned, inside the block (20_memory R54). -/
def mmioAccessOk (offset size : Nat) : Bool :=
  (size == 1 || size == 2 || size == 4 || size == 8) && offset % size == 0 && decide (offset + size ≤ mmioBytes)

/-- `MmioRead(offset, size)`: the value; a refused read gives all ones (R265). -/
def mmioRead (s : State) (offset size : Nat) : Nat :=
  if mmioAccessOk offset size then leNat ((List.range size).map fun j => s.mmioByte (offset + j))
  else 2 ^ (8 * size) - 1

/-- What a byte of the block holds after a host write of `new` over `old` (10_state R12). -/
def mergeByte (old new ro w1c : Byte) : Byte := ((old &&& (ro ||| w1c)) ||| (new &&& ~~~ro)) &&& ~~~(new &&& w1c)

/-- One byte of phase 1 (R266, R12); outside the registers nothing is stored (R23). -/
def storeRegByte (s : State) (o : Nat) (new : Byte) : State :=
  match regHolding o with
  | some n => s.setReg n (withByte (s.reg n) (o % 8) (mergeByte (s.mmioByte o) new (roByte o) (w1cByte o)))
  | none => s

/-- Phase 1 of a write: the bytes merged from `offset` on (R266). -/
def storeRegBytes (s : State) (offset : Nat) : List Byte → State
  | [] => s
  | b :: bs => storeRegBytes (storeRegByte s offset b) (offset + 1) bs

/-- `DEVTAB_BASE` trigger (R271). -/
def triggerDevtabBase (s : State) : State :=
  { s with latched := { s.latched with
      devtabBase := s.reg .devtabBase &&& baseField
      devtabBytes := devtabBytesOf (s.reg .devtabBase) } }

/-- `CMD_BASE` trigger (R272). -/
def triggerCmdBase (s : State) : State :=
  let s1 := { s with latched := { s.latched with
      cmdBase := s.reg .cmdBase &&& baseField
      cmdBytes := ringBytes (s.reg .cmdBase) } }
  (s1.setReg .cmdHead 0#64).setReg .cmdTail 0#64

/-- `EVT_BASE` trigger (R273). -/
def triggerEvtBase (s : State) : State :=
  let s1 := { s with latched := { s.latched with
      evtBase := s.reg .evtBase &&& baseField
      evtBytes := ringBytes (s.reg .evtBase) } }
  (s1.setReg .evtHead 0#64).setReg .evtTail 0#64

/-- `reg[X] <- reg[X] & (bytes - 1)`: a pointer register reduced modulo its ring (R275 to R277). -/
def reducePointer (s : State) (n : RegName) (bytes : Word) : State := s.setReg n (s.reg n &&& (bytes - 1#64))

/-- Phase 2 of a write that falls in register `n`, without the drain; `hi` says that it covers byte 7 (R270 to R279). -/
def triggerReg (s : State) (n : RegName) (hi : Bool) : State :=
  match n with
  | .devtabBase => if hi then triggerDevtabBase s else s
  | .cmdBase => if hi then triggerCmdBase s else s
  | .evtBase => if hi then triggerEvtBase s else s
  | .control => s.refreshRunFlags
  | .cmdHead => reducePointer s .cmdHead s.latched.cmdBytes
  | .cmdTail => reducePointer s .cmdTail s.latched.cmdBytes
  | .evtHead => reducePointer s .evtHead s.latched.evtBytes
  | .evtTail => reducePointer s .evtTail s.latched.evtBytes
  | .status => s

/-- A write to `n` runs the drain (R274 to R276). -/
def RegName.drains : RegName → Bool
  | .control => true
  | .cmdHead => true
  | .cmdTail => true
  | _ => false

/-- `MmioWrite(offset, size, value)` up to the drain (R279). -/
def mmioWriteStore (s : State) (offset size : Nat) (value : Word) : State :=
  if mmioAccessOk offset size then
    let s1 := storeRegBytes s offset (lowBytes value size)
    match regHolding offset with
    | some n => triggerReg s1 n (offset + size == offset / 8 * 8 + 8)
    | none => s1
  else s

/-- The write is followed by the drain (R279). -/
def mmioWriteDrains (offset size : Nat) : Bool :=
  mmioAccessOk offset size && (match regHolding offset with
    | some n => n.drains
    | none => false)

end Sys2Proof.Machine
end

