-- ==== Sys2Proof/Machine/Ring.lean ====
section
/-! DEFINITION. The command ring decoder: one round of the drain, and the drain (44_commands R200 to R207). -/

namespace Sys2Proof.Machine

/-- An outcome with the head advanced, if it is a next state (R203). -/
def advanceOutcome : Host.Outcome State Fault Refusal → Host.Outcome State Fault Refusal
  | .next s => .next (advanceHead s)
  | .fault r => .fault r
  | .refused r => .refused r

/-- What an unreadable slot does besides the head advance (R204). -/
def commandUnreadable (s : State) : State := logEvent s .commandHwError 0#16 0#12 s.cmdAddr

/-- What an illegal command does besides the head advance (R205). -/
def commandIllegal (s : State) : State := logEvent s .illegalCommandError 0#16 0#12 s.cmdAddr

/-- One round of the drain loop: fetch, decode, execute or log, advance the head (R201 to R206). -/
def drainRound (s : State) : Host.Outcome State Fault Refusal :=
  match fetchCommand s with
  | none => .next (advanceHead (commandUnreadable s))
  | some bs =>
    match decode bs with
    | .error _ => .next (advanceHead (commandIllegal s))
    | .ok i => advanceOutcome (exec i s)

/-- At most `fuel` rounds of the loop of R201. -/
def drainRounds (s : State) : (fuel : Nat) → Host.Outcome State Fault Refusal
  | 0 => .next s
  | fuel + 1 =>
    if s.drainPending then
      match drainRound s with
      | .next s1 => drainRounds s1 fuel
      | .fault r => .fault r
      | .refused r => .refused r
    else .next s

/-- The most slots a ring has, `2^15` (10_state R15): more rounds than any drain makes (R207). -/
def maxRingSlots : Nat := 32768

/-- `drain()` (R201). -/
def drain (s : State) : Host.Outcome State Fault Refusal := drainRounds s maxRingSlots

/-- `MmioWrite(offset, size, value)`, the whole transition with its drain (46_mmio R266, R279). -/
def mmioWrite (s : State) (offset size : Nat) (value : Word) : Host.Outcome State Fault Refusal :=
  if mmioWriteDrains offset size then drain (mmioWriteStore s offset size value)
  else .next (mmioWriteStore s offset size value)

/-! ### Loading one command (for `State.withFetchWord`; log 11) -/

/-- The state with a command ring of at least two slots: a smaller one is enlarged to two, as a `CMD_BASE` write of
`Len = 1` would (10_state R15), the pointers kept. -/
def growRing (s : State) : State :=
  if s.latched.cmdBytes < 32#64 then
    { s with latched := { s.latched with cmdBytes := 32#64 } }.setReg .cmdBase
      ((s.reg .cmdBase &&& baseField) ||| (1#64 <<< 56))
  else s

/-- The state with command processing on (10_state R17), the run flags following it (46_mmio R274). -/
def enableCommands (s : State) : State :=
  (s.setReg .control (withBit (withBit (s.reg .control) ControlFlag.iommuEn.bit true) ControlFlag.cmdBufEn.bit true)).refreshRunFlags

/-- The state with one command queued at the head: its bytes stored there, readable, and the tail past it. -/
def queueCommand (s : State) (bs : List Byte) : State :=
  { s with
    mem := writeBytes s.mem s.cmdAddr bs
    memFails := s.memFails.filter fun r =>
      !((List.range 16).any fun k => r.hitsRead (s.cmdAddr + BitVec.ofNat 64 k)) }.setReg .cmdTail s.cmdNext

end Sys2Proof.Machine
end

