-- ==== Sys2Proof/Machine/Walk.lean ====
section
/-! DEFINITION. The page-table walk (41_page_table_walk R135 to R146). It reads memory and changes nothing. -/

namespace Sys2Proof.Machine

/-- What `walk` returns (R135). A page size is an address-sized power of two; a skip size may reach 2^66. -/
inductive WalkResult where
  | ok (translatedAddr pageSize : Word) (perms : Perms)
  | noMapping (skipSize : Nat)
  | err (reason : FaultReason)
  deriving DecidableEq, Repr

/-- The result of a leaf entry that maps `2^(12 + 9 * k)` bytes, or the size its large-page field codes
(R144, R145). -/
def leafResult (entry : Word) (k : Nat) (p : Perms) : WalkResult :=
  if levelField entry = 7#3 then
    if 52 < largePageLog entry then .err .largePageSizeInvalid
    else .ok (pageBase (entryAddr entry) (1#64 <<< largePageLog entry)) (1#64 <<< largePageLog entry) p
  else .ok (pageBase (entryAddr entry) (levelSize k)) (levelSize k) p

/-- The address of the entry for `iova` in the table that `entry` points to, its entries covering `levelSize k`
each (R143). -/
def nextEntryAddr (entry iova : Word) (k : Nat) : Word := entryAddr entry + 8#64 * tableIndex iova k

/-- The reason of a failed entry read (R143). -/
def entryReadError (top : Bool) (pa : Word) : FaultReason := if top then .rootPointerError pa else .pteFetchError pa

/-- The loop of R146, one round per level: R140, R141, R142, R143 in that order. -/
def walkLoop (s : State) (iova : Word) : (k : Nat) → (entry : Word) → (p : Perms) → (top : Bool) → WalkResult
  | 0, entry, p, _ =>
    let p := p &&& entryPerms entry
    if p = permsNone then .noMapping (2 ^ levelShift 0)
    else if !present entry then .noMapping (2 ^ levelShift 0)
    else leafResult entry 0 p
  | k + 1, entry, p, top =>
    let p := p &&& entryPerms entry
    if p = permsNone then .noMapping (2 ^ levelShift (k + 1))
    else if !top && !present entry then .noMapping (2 ^ levelShift (k + 1))
    else if !top && (levelField entry == 0#3 || levelField entry == 7#3) then leafResult entry (k + 1) p
    else
      match memRead s (nextEntryAddr entry iova k) 8 with
      | none => .err (entryReadError top (nextEntryAddr entry iova k))
      | some bs => walkLoop s iova k (le64 bs 0) p false

/-- The IOVA is too wide for an `m`-level table: `12 + 9 * m < 64` and `iova >= 2^(12 + 9 * m)` (R138). -/
def iovaOutOfRange (m : Nat) (iova : Word) : Bool :=
  decide (levelShift m < 64) && decide (2 ^ levelShift m ≤ iova.toNat)

/-- `walk(dte, iova)` (R146). -/
def walk (s : State) (dte : Dte) (iova : Word) : WalkResult :=
  if !dte.translationValid then .err .tvClear
  else if dte.mode = 7#3 then .err .modeReserved
  else if dte.mode = 0#3 then
    if entryPerms dte.q0 = permsNone then .noMapping 4096
    else .ok (base4K iova) 0x1000#64 (entryPerms dte.q0)
  else if iovaOutOfRange dte.mode.toNat iova then .err .iovaOutOfRange
  else walkLoop s iova dte.mode.toNat dte.q0 permsRW true

end Sys2Proof.Machine
end

