-- ==== Sys2Proof/Machine/Translate.lean ====
section
/-! DEFINITION. The DMA translation request (43_translate R180 to R190). -/

namespace Sys2Proof.Machine

/-- The pass-through response: identity, 4 KiB, full permission (R181, R183, R185, R186). -/
def identityResponse (iova : Word) : DmaResponse := .ok (base4K iova) (base4K iova) 0xFFF#64 permsRW

/-- `LogEvent(IO_PAGE_FAULT, devid, PR | RW, iova)` with the response `Denied` (R184, R186, R188, R189). -/
def pageFault (s : State) (devid : DevId) (pr : Bool) (access : Access) (iova : Word) : DmaResponse × State :=
  (.denied, logEvent s .ioPageFault devid (pageFaultFlags pr access) iova)

/-- A walked translation (R189): it is cached, and then the access is allowed or denied. -/
def translateMapped (s : State) (dte : Dte) (devid : DevId) (iova : Word) (access : Access)
    (ta size : Word) (p : Perms) : DmaResponse × State :=
  let s1 := iotlbInsert s devid iova ta size p dte.domainId
  if allows p access then (.ok (pageBase iova size) ta (size - 1#64) p, s1)
  else pageFault s1 devid true access iova

/-- The request after a valid device-table entry was fetched (R186 to R189). -/
def translateWalk (s : State) (dte : Dte) (devid : DevId) (iova : Word) (access : Access) : DmaResponse × State :=
  match walk s dte iova with
  | .err .tvClear =>
    match s.cfg.tv0Policy with
    | .passThrough => (identityResponse iova, s)
    | .block => pageFault s devid false access iova
  | .err (.rootPointerError pa) => (.targetAbort, logEvent s .pageTabHwError devid 0#12 pa)
  | .err (.pteFetchError pa) => (.targetAbort, logEvent s .pageTabHwError devid 0#12 pa)
  | .err _ => pageFault s devid false access iova
  | .noMapping _ => pageFault s devid false access iova
  | .ok ta size p => translateMapped s dte devid iova access ta size p

/-- A cached translation (R184). -/
def translateHit (s : State) (e : IotlbEntry) (devid : DevId) (iova : Word) (access : Access) : DmaResponse × State :=
  if allows e.perms access then (.ok (iova &&& ~~~e.pageMask) e.translatedAddr e.pageMask e.perms, s)
  else pageFault s devid true access iova

/-- `Translate(devid, iova, access)` (R190). -/
def dmaTranslate (s : State) (devid : DevId) (iova : Word) (access : Access) : DmaResponse × State :=
  if !s.enabled then (identityResponse iova, s)
  else if inIntWindow iova then
    match access with
    | .write => (.ok (base4K iova) (base4K iova) 0xFFF#64 permsWO, s)
    | .read => (.denied, s)
  else if s.routing devid = .passThrough then (identityResponse iova, s)
  else
    match iotlbLookup s devid iova with
    | some e => translateHit s e devid iova access
    | none =>
      match fetchDte s devid with
      | (.err _, s1) => (.targetAbort, s1)
      | (.notValid _, s1) => (identityResponse iova, s1)
      | (.ok dte, s1) => translateWalk s1 dte devid iova access

end Sys2Proof.Machine
end

