-- ==== Sys2Proof/Machine/Requests.lean ====
section
/-! DEFINITION. Serving a request (00_scope R5): the transitions of the unit's ports, and the environment's own moves
between them (20_memory R61). -/

namespace Sys2Proof.Machine

/-- `Reset` (70_reset R330): the unit's state takes its reset values, `ResyncAll` is emitted; system memory, the
configuration, the trace and the environment's part stay (R331, 10_state R41). -/
def resetUnit (s : State) : State :=
  { s with regs := Regs.reset, latched := Latched.reset, iotlb := [], translated := [] }.emit .resyncAll

/-- One request served. A register write is served up to its drain, whose rounds are the steps that follow (log 2). -/
def serve (r : Request) (s : State) : State :=
  match r with
  | .mmioRead offset size => s.respond (.mmioRead (mmioRead s offset size))
  | .mmioWrite offset size value => mmioWriteStore s offset size value
  | .translate devid iova access =>
    let served := dmaTranslate s devid iova access
    served.2.respond (.translate served.1)
  | .remapInterrupt devid msg =>
    let served := remapInterrupt s devid msg
    served.2.respond (.remapInterrupt served.1)
  | .reset => resetUnit s
  | .hostStore addr bytes => { s with mem := writeBytes s.mem addr bytes }
  | .hostLoad addr n => s.respond (.hostLoad (readBytes s.mem addr n))
  | .setMemFails ranges => { s with memFails := ranges }

/-- The next request taken from the queue and served; without one the unit does nothing on its own (70_reset R332). -/
def serveNext (s : State) : State :=
  match s.inputs with
  | [] => s
  | r :: rest => serve r { s with inputs := rest }

end Sys2Proof.Machine
end

