-- ==== Sys2Proof/Machine/Step.lean ====
section
/-! DEFINITION. The step: a command that waits in the enabled ring is drained before any request is served, so a
register write and its drain are one transition (44_commands R201, 46_mmio R266; log 2). -/

namespace Sys2Proof.Machine

/-- One step: a round of the drain while commands wait, else the next request, else nothing. -/
def step (s : State) : Host.Outcome State Fault Refusal :=
  if s.drainPending then drainRound s else .next (serveNext s)

/-- `s` with the command whose bits are `w` queued as the next one to execute: command processing on, the ring at
least two slots, the command's bytes at the head, the tail past them (log 11). -/
def State.withFetchWord (s : State) (nbits w : Nat) : State :=
  queueCommand (enableCommands (growRing s)) (commandBytes nbits w)

end Sys2Proof.Machine
end

