-- ==== Sys2Proof/Safety.lean ====
section
/-! DEFINITION. What counts as a good state and a safe run: the invariants of 10_state R26 and R27, written as checks on
plain data, and the words the statements use for runs. -/

namespace Sys2Proof.Machine

/-- The bits of a register that can be 1 (10_state R14 to R22): outside `STATUS`, those a host can write. -/
def RegName.live : RegName → Word
  | .status => 0x1F#64
  | n => ~~~n.ro

/-- No register holds a bit it reads as zero (R14 to R22). -/
def regsInField (s : State) : Bool := RegName.all.all fun n => s.reg n &&& ~~~n.live == 0#64

/-- The latched values are ones that a base register can derive (R25). -/
def latchedOk (l : Latched) : Bool :=
  l.devtabBase &&& ~~~baseField == 0#64 && l.cmdBase &&& ~~~baseField == 0#64 && l.evtBase &&& ~~~baseField == 0#64 &&
  decide (4096#64 ≤ l.devtabBytes) && decide (l.devtabBytes ≤ 0x20_0000#64) && l.devtabBytes &&& 0xFFF#64 == 0#64 &&
  ((List.range 16).any fun k => l.cmdBytes == 16#64 <<< k) && ((List.range 16).any fun k => l.evtBytes == 16#64 <<< k)

/-- The pointers lie inside their rings, at multiples of 16 (R26). -/
def pointersOk (s : State) : Bool :=
  decide (s.cmdHead < s.latched.cmdBytes) && decide (s.cmdTail < s.latched.cmdBytes) &&
  decide (s.evtHead < s.latched.evtBytes) && decide (s.evtTail < s.latched.evtBytes)

/-- The run flags follow the enables (R26). -/
def runFlagsOk (s : State) : Bool :=
  s.statusFlag .eventLogRun == s.evtlogEnabled && s.statusFlag .cmdBufRun == s.cmdbufEnabled

/-- An IOTLB entry is one the unit can hold: non-empty permissions, a page size from 4 KiB to 2^57, and the
address of a page of that size (R27, 41_page_table_walk R135). -/
def entryOk (e : IotlbEntry) : Bool :=
  e.perms != permsNone && e.translatedAddr &&& e.pageMask == 0#64 &&
  ((List.range 46).any fun k => e.pageMask == (1#64 <<< (12 + k)) - 1#64)

/-- The IOTLB: one entry a key, at most the capacity, every entry good (R26, R27). -/
def iotlbOk (s : State) : Bool :=
  rising IotlbEntry.key s.iotlb && decide (s.iotlb.length ≤ s.cfg.iotlbCapacity) && s.iotlb.all entryOk

/-- The invariant: what holds of the unit between any two steps (R26, R27). -/
def State.good (s : State) : Bool :=
  s.cfg.wf && Memory.wf s.mem && rising BitVec.toNat s.translated && iotlbOk s &&
  regsInField s && latchedOk s.latched && pointersOk s && runFlagsOk s

/-- No command waits in the enabled ring, which is how every transition ends (R26). -/
def State.quiescent (s : State) : Bool := !s.drainPending

/-- A run that does not stop (60_exceptions R295). -/
def safeOutcome : Host.Outcome State Fault Refusal → Bool
  | .next _ => true
  | _ => false

/-! ### Frames: what a statement says is left alone -/

/-- Every byte reads as before but the `n` bytes from `a` on. -/
def sameOutside (a : Word) (n : Nat) (s t : State) : Prop :=
  ∀ x : Nat, (∀ k < n, x ≠ (a + BitVec.ofNat 64 k).toNat) → readByte t.mem x = readByte s.mem x

/-- Every byte of memory reads as before. -/
def sameMemory (s t : State) : Prop := ∀ x : Nat, readByte t.mem x = readByte s.mem x

/-- Every register holds what it did but the named ones. -/
def sameRegsBut (ns : List RegName) (s t : State) : Prop := ∀ n : RegName, n ∉ ns → t.reg n = s.reg n

/-- Every bit of `STATUS` is what it was but the named ones. -/
def sameStatusBut (bits : List Nat) (s t : State) : Prop :=
  ∀ j : Nat, j ∉ bits → (t.reg .status).getLsbD j = (s.reg .status).getLsbD j

/-- The configuration, the latched values, the failing ranges, the queue of requests and the answers are as before. -/
def sameSurroundings (s t : State) : Prop :=
  t.cfg = s.cfg ∧ t.latched = s.latched ∧ t.memFails = s.memFails ∧ t.inputs = s.inputs ∧ t.responses = s.responses

/-- The IOTLB and every device's routing are as before. -/
def sameHidden (s t : State) : Prop := t.iotlb = s.iotlb ∧ ∀ d : DevId, t.routing d = s.routing d

end Sys2Proof.Machine
end

