-- ==== Sys2Proof/Certificates/Slice0/Obligations.lean ====
section
/-! DEFINITION. The statements for the provers, in the order of OBLIGATIONS.json: encodings, the step and the ring, the
commands, the event log, the device-table fetch, the page-table walk, the IOTLB, the device requests, the register
block, and the rules about the whole machine. -/

open Sys2Proof Sys2Proof.Machine

/-! ### Words the statements use -/

namespace Sys2Proof.Machine

/-- A command's words are illegal, read field by field from the 'Exceptions' of 44_commands R210 to R218 and the opcodes
of 30_encoding R99 (44_commands R205). -/
def illegalByFields (q0 q1 : Word) : Prop :=
  match (q0.extractLsb' 60 4).toNat with
  | 1 => q0.extractLsb' 52 8 ≠ 0#8
  | 2 => q0.extractLsb' 16 44 ≠ 0#44 ∨ q1 ≠ 0#64
  | 3 => q0.extractLsb' 20 12 ≠ 0#12 ∨ q0.extractLsb' 48 12 ≠ 0#12 ∨ q1.extractLsb' 3 9 ≠ 0#9
  | 4 => q1.getLsbD 1 = true ∨ q1.getLsbD 3 = true ∨ q1.extractLsb' 6 6 ≠ 0#6
  | 5 => q0.extractLsb' 16 44 ≠ 0#44 ∨ q1 ≠ 0#64
  | 6 => q0.extractLsb' 16 8 ≠ 0#8 ∨ q0.extractLsb' 52 8 ≠ 0#8 ∨ q1.getLsbD 1 = true ∨ q1.getLsbD 3 = true ∨
      q1.extractLsb' 5 7 ≠ 0#7
  | 7 => q0.extractLsb' 16 16 ≠ 0#16 ∨ q0.extractLsb' 52 8 ≠ 0#8 ∨ q1.extractLsb' 0 2 ≠ 0#2 ∨
      q1.extractLsb' 3 29 ≠ 0#29
  | 8 => q0.extractLsb' 0 60 ≠ 0#60 ∨ q1 ≠ 0#64
  | _ => True

/-- A register access the unit accepts (20_memory R54). -/
def acceptedAccess (offset size : Nat) : Prop :=
  (size = 1 ∨ size = 2 ∨ size = 4 ∨ size = 8) ∧ offset % size = 0 ∧ offset + size ≤ 0x4000

/-- The flag part of an `IO_PAGE_FAULT` event (30_encoding R102): `PR` is bit 4, `RW` is bit 5. -/
def faultFlags (pr : Bool) (access : Access) : BitVec 12 :=
  match pr, access with
  | false, .read => 0x000#12
  | false, .write => 0x020#12
  | true, .read => 0x010#12
  | true, .write => 0x030#12

/-- The address lies in the interrupt window (00_scope R4, 43_translate R182). -/
def windowAddress (iova : Word) : Prop := 0xFEE0_0000 ≤ iova.toNat ∧ iova.toNat ≤ 0xFEEF_FFFF

/-- The permission an access needs is in the set (00_scope R8). -/
def permitted (p : Perms) : Access → Prop
  | .read => p.getLsbD 0 = true
  | .write => p.getLsbD 1 = true

/-- The state in which a device request reaches the IOTLB: unit enabled, address outside the window, device routed to
the walker (43_translate R181 to R183). -/
def reachesIotlb (s : State) (devid : DevId) (iova : Word) : Prop :=
  s.enabled = true ∧ ¬ windowAddress iova ∧ s.routing devid = .translated

/-- The state in which a device request reaches the walk: it reaches the IOTLB, misses, and a valid device-table entry
is fetched (43_translate R185, R186). -/
def reachesWalk (s : State) (devid : DevId) (iova : Word) (dte : Dte) : Prop :=
  reachesIotlb s devid iova ∧ iotlbLookup s devid iova = none ∧ (fetchDte s devid).1 = .ok dte

/-- The address of the entry a walk reads from the table that the `j`-th entry of a chain points to
(41_page_table_walk R143). -/
def chainAddr (m : Nat) (iova : Word) (es : Nat → Word) (j : Nat) : Word :=
  (es j &&& 0x000F_FFFF_FFFF_F000#64) + 8#64 * ((iova >>> (12 + 9 * (m - 1 - j))) &&& 0x1FF#64)

/-- The permissions ANDed over a chain's entries 0 to `j` (41_page_table_walk R140). -/
def chainPerms (es : Nat → Word) (j : Nat) : Perms :=
  (List.range (j + 1)).foldl (fun p k => p &&& (es k).extractLsb' 61 2) 3#2

/-- The entries `es 0` to `es d` are what a walk of mode `m` meets on its way down to depth `d`: each is read where the
one before points, no permission set on the way is empty, every entry between is present and points to a lower table. -/
structure TableChain (s : State) (m : Nat) (iova : Word) (es : Nat → Word) (d : Nat) : Prop where
  read : ∀ j < d, memRead s (chainAddr m iova es j) 8 = some (wordBytes (es (j + 1)))
  perms : ∀ j < d, chainPerms es j ≠ 0#2
  inner : ∀ j < d, 0 < j →
    (es j).getLsbD 0 = true ∧ (es j).extractLsb' 9 3 ≠ 0#3 ∧ (es j).extractLsb' 9 3 ≠ 7#3

/-- The command the next round of the drain decodes. -/
def nextCommand (s : State) (i : Instr) : Prop :=
  s.drainPending = true ∧ ∃ bs, fetchCommand s = some bs ∧ decode bs = .ok i

/-- The request the next step serves. -/
def nextRequest (s : State) (r : Request) : Prop :=
  s.drainPending = false ∧ ∃ rest, s.inputs = r :: rest

/-- The number of rounds a drain makes: `((cmd_tail - cmd_head) mod cmd_bytes) / 16` (44_commands R207). -/
def roundsToTail (s : State) : Nat := ((s.cmdTail - s.cmdHead) % s.latched.cmdBytes).toNat / 16

end Sys2Proof.Machine

/-! ### Encodings -/

/-- Decoding what a well-formed command is written as gives the command back, whatever bytes follow it (30_encoding R89,
R91 to R98). -/
def Obligations.DecodeEncodeEveryCommand : Prop :=
  ∀ (i : Instr) (rest : List Byte), i.wf = true → decode (encode i ++ rest) = .ok i

/-- A decoded command is well-formed, and writing it gives back the two words it was read from with their ignored bits
cleared: no field is read from a wrong place or dropped (30_encoding R89, R91 to R98). -/
def Obligations.DecodedCommandReencodes : Prop :=
  ∀ (q0 q1 : Word) (i : Instr), decodeWords q0 q1 = .ok i →
    i.wf = true ∧
    encodeWords i = (q0 &&& ~~~(ignoredBits (opcodeOf q0)).1, q1 &&& ~~~(ignoredBits (opcodeOf q0)).2)

/-- The decoder rejects exactly the words that the commands' own 'Exceptions' list and the unrecognised opcodes
(30_encoding R99, 44_commands R210 to R218). -/
def Obligations.RejectedExactlyTheIllegalWords : Prop :=
  ∀ q0 q1 : Word, (∃ e, decodeWords q0 q1 = .error e) ↔ illegalByFields q0 q1

/-- The bits a decoder must not read change nothing: two pairs of words that differ only in ignored bits decode alike
(30_encoding R89). -/
def Obligations.IgnoredBitsAreNotRead : Prop :=
  ∀ q0 q1 q0' q1' : Word, opcodeOf q0 = opcodeOf q0' →
    q0 &&& ~~~(ignoredBits (opcodeOf q0)).1 = q0' &&& ~~~(ignoredBits (opcodeOf q0)).1 →
    q1 &&& ~~~(ignoredBits (opcodeOf q0)).2 = q1' &&& ~~~(ignoredBits (opcodeOf q0)).2 →
    decodeWords q0 q1 = decodeWords q0' q1'

/-- Words written out from the spec's own examples (44_commands R210 to R218) decode to their commands. -/
def Obligations.WorkedExamplesDecode : Prop :=
  decodeWords 0x1000_0000_0040_0003#64 0x0000_0000_0000_0001#64 =
    .ok (.completionWait true true false 0x40_0000#64 0x1#64) ∧
  decodeWords 0x2000_0000_0000_0010#64 0#64 = .ok (.invalidateDevtabEntry 0x10#16) ∧
  decodeWords 0x3000_0007_0000_0000#64 0x7FFF_FFFF_FFFF_F001#64 =
    .ok (.invalidateIommuPages 7#16 true 0x7FFF_FFFF_FFFF_F000#64) ∧
  decodeWords 0x4000_0000_0000_0010#64 0x0000_0000_0000_5000#64 = .ok (.invalidateIotlbPages 0x10#16 false 0x5000#64) ∧
  decodeWords 0x5000_0000_0000_0010#64 0#64 = .ok (.invalidateInterruptTable 0x10#16) ∧
  decodeWords 0x6000_0000_0000_0010#64 0#64 = .ok (.prefetchIommuPages 0x10#16) ∧
  decodeWords 0x7000_0000_0000_0010#64 0#64 = .ok (.completePprRequest 0x10#16) ∧
  decodeWords 0x8000_0000_0000_0000#64 0#64 = .ok .invalidateIommuAll

/-! ### The step and the ring -/

/-- A step with a command waiting runs the command its 16 bytes decode to, and then advances the head
(44_commands R201, R203, R206). -/
def Obligations.StepRunsTheDecodedCommand : Prop :=
  ∀ (s : State) (bs : List Byte) (i : Instr),
    s.drainPending = true → fetchCommand s = some bs → decode bs = .ok i →
    i.wf = true ∧ ∃ t, exec i s = .next t ∧
      step s = .next (t.setReg .cmdHead ((s.cmdHead + 16#64) % s.latched.cmdBytes))

/-- After each command, executed, illegal or unreadable, the head advances by one slot, the successor of the last
slot being slot 0 (44_commands R203). The tail, the enables and the latched values stay, for the drain runs to the tail it
found (R201). That the queue and the answers stay, no request being served in the middle of a drain (20_memory R60), is the
model's choice of what a step is (log 1, log 2, log 9). -/
def Obligations.EveryRoundAdvancesTheHead : Prop :=
  ∀ s : State, s.drainPending = true →
    ∃ t, step s = .next t ∧
      t.reg .cmdHead = (s.cmdHead + 16#64) % s.latched.cmdBytes ∧
      (s.cmdHead + 16#64 = s.latched.cmdBytes → t.reg .cmdHead = 0#64) ∧
      sameRegsBut [.cmdHead, .evtTail, .status] s t ∧ sameSurroundings s t

/-- An unreadable slot is logged and skipped (44_commands R204). -/
def Obligations.UnreadableCommandIsSkipped : Prop :=
  ∀ s : State, s.drainPending = true → s.readFails s.cmdAddr 16 = true →
    step s = .next ((logEvent s .commandHwError 0#16 0#12 (s.latched.cmdBase + s.cmdHead)).setReg .cmdHead
      ((s.cmdHead + 16#64) % s.latched.cmdBytes))

/-- An illegal command is logged and skipped without any other effect (44_commands R205). -/
def Obligations.IllegalCommandIsSkipped : Prop :=
  ∀ s : State, s.drainPending = true → s.readFails s.cmdAddr 16 = false →
    illegalByFields (le64 (readBytes s.mem s.cmdAddr 16) 0) (le64 (readBytes s.mem s.cmdAddr 16) 8) →
    step s = .next ((logEvent s .illegalCommandError 0#16 0#12 (s.latched.cmdBase + s.cmdHead)).setReg .cmdHead
      ((s.cmdHead + 16#64) % s.latched.cmdBytes))

/-- With no command waiting a step serves the next request, and without one does nothing (00_scope R5, 70_reset R332;
the queue and the list of answers are the model's choice, log 1, log 9). Each request, port by port:
a translation and an interrupt message leave the state their operation answers, with its response appended
(43_translate R180, 45_interrupt_remap R240); a register read only answers (46_mmio R265); a register write leaves a state
whose drain ends where the whole write does (46_mmio R266; log 2); a host store changes its own bytes only and a host load
only answers (20_memory R61; log 10, log 20); a change of the failing ranges changes nothing else (20_memory R50; log 5).
What `Reset` leaves is ResetGivesTheResetState. -/
def Obligations.StepServesTheNextRequest : Prop :=
  ∀ s : State, s.drainPending = false →
    (s.inputs = [] → step s = .next s) ∧
    (∀ r rest, s.inputs = r :: rest → step s = .next (serve r { s with inputs := rest })) ∧
    (∀ devid iova access rest, s.inputs = .translate devid iova access :: rest →
      ∃ (r : DmaResponse) (u : State), dmaTranslate { s with inputs := rest } devid iova access = (r, u) ∧
        step s = .next { u with responses := s.responses ++ [.translate r] }) ∧
    (∀ devid msg rest, s.inputs = .remapInterrupt devid msg :: rest →
      ∃ (r : RemapResponse) (u : State), remapInterrupt { s with inputs := rest } devid msg = (r, u) ∧
        step s = .next { u with responses := s.responses ++ [.remapInterrupt r] }) ∧
    (∀ offset size rest, s.inputs = .mmioRead offset size :: rest →
      step s = .next { s with inputs := rest, responses := s.responses ++ [.mmioRead (mmioRead s offset size)] }) ∧
    (∀ offset size value rest, s.inputs = .mmioWrite offset size value :: rest →
      ∃ u, step s = .next u ∧ mmioWrite { s with inputs := rest } offset size value = drain u ∧
        u.inputs = rest ∧ u.responses = s.responses) ∧
    (∀ addr bytes rest, s.inputs = .hostStore addr bytes :: rest →
      ∃ m : Memory, step s = .next { s with inputs := rest, mem := m } ∧
        (bytes.length ≤ 2 ^ 64 → readBytes m addr bytes.length = bytes) ∧
        sameOutside addr bytes.length s { s with mem := m }) ∧
    (∀ addr n rest, s.inputs = .hostLoad addr n :: rest →
      step s = .next { s with inputs := rest, responses := s.responses ++ [.hostLoad (readBytes s.mem addr n)] }) ∧
    (∀ ranges rest, s.inputs = .setMemFails ranges :: rest →
      step s = .next { s with inputs := rest, memFails := ranges })

/-- No run stops: every state has a next one, however many steps are taken (60_exceptions R295). -/
def Obligations.NoRunStops : Prop :=
  ∀ (k : Nat) (s : State), ∃ t, Host.Core.run Sys2Proof.core k s = .next t

/-- A drain makes `((cmd_tail - cmd_head) mod cmd_bytes) / 16` rounds, at most `cmd_bytes / 16 - 1`, each a step with a
command waiting, and then the head is the tail (44_commands R201, R207). That a round is a step is the model's choice
(log 2). -/
def Obligations.DrainReachesTheTail : Prop :=
  ∀ s : State, s.good = true → s.cmdbufEnabled = true →
    roundsToTail s ≤ s.latched.cmdBytes.toNat / 16 - 1 ∧
    (∀ j < roundsToTail s, ∃ u, Host.Core.run Sys2Proof.core j s = .next u ∧ u.drainPending = true) ∧
    ∃ t, Host.Core.run Sys2Proof.core (roundsToTail s) s = .next t ∧ drain s = .next t ∧
      t.cmdHead = s.cmdTail ∧ t.cmdTail = s.cmdTail ∧ t.quiescent = true

/-- A register write and the drain it triggers are one transition: from a good state with no command waiting, the step
that serves the write and the steps that follow while commands wait end in the state that `MmioWrite` with its whole
drain gives, and no other request is served between them (20_memory R60, 46_mmio R266; log 2). -/
def Obligations.WriteAndDrainAreOneTransition : Prop :=
  ∀ (s : State) (offset size : Nat) (value : Word) (rest : List Request),
    s.good = true → s.quiescent = true → s.inputs = .mmioWrite offset size value :: rest →
    ∃ (k : Nat) (t : State), k < 32768 ∧
      Host.Core.run Sys2Proof.core (k + 1) s = .next t ∧
      mmioWrite { s with inputs := rest } offset size value = .next t ∧
      t.quiescent = true ∧ t.inputs = rest ∧
      ∀ j, 1 ≤ j → j ≤ k → ∃ u, Host.Core.run Sys2Proof.core j s = .next u ∧ u.drainPending = true

/-! ### Reset -/

/-- What `Reset` leaves, from any state: the reset value of every part of the unit (10_state R41), memory and the trace's
past as they were, and `ResyncAll` emitted (70_reset R330, R331). That the configuration, the failing ranges, the other
requests and the answers stay is the model's choice (log 17). -/
def Obligations.ResetGivesTheResetState : Prop :=
  ∀ (s : State) (rest : List Request), nextRequest s .reset → s.inputs = .reset :: rest →
    ∃ t, step s = .next t ∧
      (∀ n : RegName, t.reg n = 0#64) ∧ (∀ o : Nat, t.mmioByte o = 0#8) ∧
      t.latched.devtabBase = 0#64 ∧ t.latched.devtabBytes = 4096#64 ∧
      t.latched.cmdBase = 0#64 ∧ t.latched.cmdBytes = 16#64 ∧
      t.latched.evtBase = 0#64 ∧ t.latched.evtBytes = 16#64 ∧
      t.iotlb = [] ∧ (∀ d : DevId, t.routing d = .passThrough) ∧
      t.trace = s.trace ++ [.resyncAll] ∧ t.mem = s.mem ∧ t.cfg = s.cfg ∧ t.memFails = s.memFails ∧
      t.inputs = rest ∧ t.responses = s.responses

/-- The state at power on holds the reset value of every part of the unit (10_state R41). That the trace is empty there,
and what memory, the configuration, the failing ranges and the queue hold, is the model's choice (log 1, 4, 5, 6, 8). -/
def Obligations.PowerOnHoldsTheResetValues : Prop :=
  (∀ n : RegName, State.reset.reg n = 0#64) ∧
  State.reset.latched.devtabBase = 0#64 ∧ State.reset.latched.devtabBytes = 4096#64 ∧
  State.reset.latched.cmdBase = 0#64 ∧ State.reset.latched.cmdBytes = 16#64 ∧
  State.reset.latched.evtBase = 0#64 ∧ State.reset.latched.evtBytes = 16#64 ∧
  State.reset.iotlb = [] ∧ (∀ d : DevId, State.reset.routing d = .passThrough)

/-- Straight after reset, whatever memory holds: every translation is the identity with full permission, every interrupt
passes, every accepted register read gives 0, and the unit does nothing on its own (70_reset R332). -/
def Obligations.AfterResetEverythingPasses : Prop :=
  ∀ s : State, s.regs = State.reset.regs →
    (∀ (d : DevId) (iova : Word) (a : Access),
      dmaTranslate s d iova a = (.ok (iova &&& ~~~0xFFF#64) (iova &&& ~~~0xFFF#64) 0xFFF#64 3#2, s)) ∧
    (∀ (d : DevId) (msg : Message), remapInterrupt s d msg = (.passed msg, s)) ∧
    (∀ offset size : Nat, acceptedAccess offset size → mmioRead s offset size = 0) ∧
    (s.inputs = [] → step s = .next s)

/-! ### The commands -/

/-- `COMPLETION_WAIT` (44_commands R210): the store, if asked for and possible, the status bit and the interrupt, if
asked for; nothing else changes, and the flush bit makes no difference. -/
def Obligations.CompletionWaitStoresAndSignals : Prop :=
  ∀ (store interrupt flush : Bool) (addr data : Word) (s : State),
    ∃ t, exec (.completionWait store interrupt flush addr data) s = .next t ∧
      exec (.completionWait store interrupt (!flush) addr data) s = .next t ∧
      (store = true → s.writeFails addr 8 = false → readBytes t.mem addr 8 = wordBytes data) ∧
      (store = true → sameOutside addr 8 s t) ∧
      ((store = false ∨ s.writeFails addr 8 = true) → sameMemory s t) ∧
      t.statusFlag .comWaitInt = (interrupt || s.statusFlag .comWaitInt) ∧ sameStatusBut [2] s t ∧
      t.trace = s.trace ++ (if interrupt && s.comwaitIntr then [.interrupt] else []) ∧
      sameRegsBut [.status] s t ∧ sameSurroundings s t ∧ sameHidden s t

/-- `INVALIDATE_DEVTAB_ENTRY` (44_commands R212): the device's routing follows the fetched entry, an error isolating it;
every other device keeps its routing, the IOTLB is not touched, and what the fetch logs is logged first. -/
def Obligations.InvalidateDevtabEntrySetsRouting : Prop :=
  ∀ (devid : DevId) (s : State),
    ∃ (t : State) (new : Routing), exec (.invalidateDevtabEntry devid) s = .next t ∧
      (∀ dte, (fetchDte s devid).1 = .ok dte → (new = .passThrough ↔ dte.q0.extractLsb' 9 3 = 0#3)) ∧
      (∀ dte, (fetchDte s devid).1 = .notValid dte → new = .passThrough) ∧
      (∀ r, (fetchDte s devid).1 = .err r → new = .translated) ∧
      t.routing devid = new ∧ (∀ d, d ≠ devid → t.routing d = s.routing d) ∧
      t.trace = (fetchDte s devid).2.trace ++ [.syncDevice devid new] ∧
      t.regs = (fetchDte s devid).2.regs ∧ t.mem = (fetchDte s devid).2.mem ∧
      t.iotlb = s.iotlb ∧ sameSurroundings s t

/-- What `INVALIDATE_DEVTAB_ENTRY` leaves alone (44_commands R212): only the event log's slot, `EVT_TAIL`, `STATUS`, the
device's routing and the trace can change. -/
def Obligations.InvalidateDevtabEntryFrame : Prop :=
  ∀ (devid : DevId) (s t : State), exec (.invalidateDevtabEntry devid) s = .next t →
    sameRegsBut [.evtTail, .status] s t ∧ sameStatusBut [0, 1] s t ∧
    sameOutside (s.latched.evtBase + s.evtTail) 16 s t ∧ t.iotlb = s.iotlb ∧ sameSurroundings s t ∧
    ∀ d, d ≠ devid → t.routing d = s.routing d

/-- `INVALIDATE_IOMMU_PAGES` (44_commands R213): every IOTLB entry of the domain goes and no other; the decoded range goes
to the trace only; registers, memory and routing stay. -/
def Obligations.InvalidateIommuPagesDropsTheDomain : Prop :=
  ∀ (domid : DomId) (sizeFlag : Bool) (address : Word) (s : State),
    ∃ t, exec (.invalidateIommuPages domid sizeFlag address) s = .next t ∧
      (∀ e, e ∈ t.iotlb ↔ e ∈ s.iotlb ∧ e.domid ≠ domid) ∧
      t.trace = s.trace ++ [.syncDomain domid (decodeRange sizeFlag address).1 (decodeRange sizeFlag address).2] ∧
      sameRegsBut [] s t ∧ sameMemory s t ∧ sameSurroundings s t ∧ ∀ d, t.routing d = s.routing d

/-- `INVALIDATE_IOTLB_PAGES` (44_commands R214): with S every entry of the device goes, without it the one entry of the
device and 4 KiB frame; nothing else changes, and no output is emitted. -/
def Obligations.InvalidateIotlbPagesDropsDeviceOrPage : Prop :=
  ∀ (devid : DevId) (sizeFlag : Bool) (address : Word) (s : State),
    ∃ t, exec (.invalidateIotlbPages devid sizeFlag address) s = .next t ∧
      (sizeFlag = true → ∀ e, e ∈ t.iotlb ↔ e ∈ s.iotlb ∧ e.devid ≠ devid) ∧
      (sizeFlag = false → ∀ e, e ∈ t.iotlb ↔
        e ∈ s.iotlb ∧ ¬ (e.devid = devid ∧ e.gfn.toNat = address.toNat / 4096)) ∧
      t.trace = s.trace ∧ sameRegsBut [] s t ∧ sameMemory s t ∧ sameSurroundings s t ∧
      ∀ d, t.routing d = s.routing d

/-- `INVALIDATE_IOMMU_ALL` (44_commands R218): every lookup misses afterwards, `ResyncAll` is emitted; registers, memory
and routing stay. -/
def Obligations.InvalidateIommuAllEmptiesTheIotlb : Prop :=
  ∀ s : State, ∃ t, exec .invalidateIommuAll s = .next t ∧
    (∀ (d : DevId) (iova : Word), iotlbLookup t d iova = none) ∧ t.trace = s.trace ++ [.resyncAll] ∧
    sameRegsBut [] s t ∧ sameMemory s t ∧ sameSurroundings s t ∧ ∀ d, t.routing d = s.routing d

/-- `INVALIDATE_INTERRUPT_TABLE`, `PREFETCH_IOMMU_PAGES` and `COMPLETE_PPR_REQUEST` complete and have no effect on any
state and no output (44_commands R215, R216, R217). -/
def Obligations.HintCommandsChangeNothing : Prop :=
  ∀ (devid : DevId) (s : State),
    exec (.invalidateInterruptTable devid) s = .next s ∧ exec (.prefetchIommuPages devid) s = .next s ∧
    exec (.completePprRequest devid) s = .next s

/-- The range an `INVALIDATE_IOMMU_PAGES` codes (30_encoding R106): one page without S; with S, the whole address space
when bits 62:12 are all ones, else `2^(13 + t)` bytes, `t` being the run of ones from bit 12 up. -/
def Obligations.RangeIsCodedByTrailingOnes : Prop :=
  ∀ address : Word,
    decodeRange false address = (address, .bytes 0x1000#64) ∧
    ((∀ b, 12 ≤ b → b ≤ 62 → address.getLsbD b = true) → decodeRange true address = (0#64, .all)) ∧
    ∀ t < 51, (∀ b < t, address.getLsbD (12 + b) = true) → address.getLsbD (12 + t) = false →
      decodeRange true address =
        (address &&& ~~~(BitVec.ofNat 64 (2 ^ (13 + t)) - 1#64), .bytes (BitVec.ofNat 64 (2 ^ (13 + t))))

/-! ### The event log -/

/-- `LogEvent` (60_exceptions R301, R304), case by case: discarded when logging is off; dropped with `EventOverflow` when
advancing the tail would make it the head; else stored, the tail advanced and `EventLogInt` set, also when the store fails. -/
def Obligations.LogEventDiscardsDropsOrStores : Prop :=
  ∀ (s : State) (c : EventCode) (devid : DevId) (flags : BitVec 12) (addr : Word),
    (s.evtlogEnabled = false → logEvent s c devid flags addr = s) ∧
    (s.evtlogEnabled = true → (s.evtTail + 16#64) % s.latched.evtBytes = s.evtHead →
      ∃ t, logEvent s c devid flags addr = t ∧
        t.statusFlag .eventOverflow = true ∧ sameStatusBut [0] s t ∧ sameRegsBut [.status] s t ∧ sameMemory s t ∧
        t.trace = s.trace ++ (if s.evtlogIntr then [.interrupt] else []) ∧ sameSurroundings s t ∧ sameHidden s t) ∧
    (s.evtlogEnabled = true → (s.evtTail + 16#64) % s.latched.evtBytes ≠ s.evtHead →
      ∃ t, logEvent s c devid flags addr = t ∧
        (s.writeFails (s.latched.evtBase + s.evtTail) 16 = false →
          (le64 (readBytes t.mem (s.latched.evtBase + s.evtTail) 16) 0).extractLsb' 0 16 = devid ∧
          (le64 (readBytes t.mem (s.latched.evtBase + s.evtTail) 16) 0).extractLsb' 16 32 = 0#32 ∧
          (le64 (readBytes t.mem (s.latched.evtBase + s.evtTail) 16) 0).extractLsb' 48 12 = flags ∧
          (le64 (readBytes t.mem (s.latched.evtBase + s.evtTail) 16) 0).extractLsb' 60 4 = c.number ∧
          le64 (readBytes t.mem (s.latched.evtBase + s.evtTail) 16) 8 = addr) ∧
        (s.writeFails (s.latched.evtBase + s.evtTail) 16 = true → sameMemory s t) ∧
        sameOutside (s.latched.evtBase + s.evtTail) 16 s t ∧
        t.reg .evtTail = (s.evtTail + 16#64) % s.latched.evtBytes ∧ t.statusFlag .eventLogInt = true ∧
        sameStatusBut [1] s t ∧ sameRegsBut [.evtTail, .status] s t ∧
        t.trace = s.trace ++ (if s.evtlogIntr then [.interrupt] else []) ∧ sameSurroundings s t ∧ sameHidden s t)

/-- The six event codes (30_encoding R101). -/
def Obligations.EventCodesAreTheTables : Prop :=
  EventCode.number .illegalDevTableEntry = 0x1#4 ∧ EventCode.number .ioPageFault = 0x2#4 ∧
  EventCode.number .devTabHwError = 0x3#4 ∧ EventCode.number .pageTabHwError = 0x4#4 ∧
  EventCode.number .illegalCommandError = 0x5#4 ∧ EventCode.number .commandHwError = 0x6#4

/-! ### The device-table fetch -/

/-- `fetch_dte` (40_device_table_fetch R120 to R125, R127), with the entry's address computed without wrapping, its four
words read where they stand in memory and its reserved fields named by their places. -/
def Obligations.FetchDteOutcomes : Prop :=
  ∀ (s : State) (devid : DevId) (a : Word) (dte : Dte),
    a = s.latched.devtabBase + BitVec.ofNat 64 (32 * devid.toNat) →
    dte.q0 = le64 (readBytes s.mem a 8) 0 → dte.q1 = le64 (readBytes s.mem (a + 8#64) 8) 0 →
    dte.q2 = le64 (readBytes s.mem (a + 16#64) 8) 0 → dte.q3 = le64 (readBytes s.mem (a + 24#64) 8) 0 →
    fetchDte s devid =
      if s.latched.devtabBytes.toNat < 32 * devid.toNat + 32 ∨ s.readFails a 32 = true then
        (.err .dteFetchError, logEvent s .devTabHwError devid 0#12 a)
      else if dte.q0.getLsbD 0 = false then (.notValid dte, s)
      else if dte.q0.extractLsb' 2 5 ≠ 0#5 ∨ dte.q0.extractLsb' 52 9 ≠ 0#9 ∨ dte.q0.getLsbD 63 = true ∨
          dte.q2.extractLsb' 52 4 ≠ 0#4 ∨ (s.cfg.dmaRemapSupported = false ∧ dte.q0.extractLsb' 12 40 ≠ 0#40) then
        (.err .dteIllegal, logEvent s .illegalDevTableEntry devid 0#12 a)
      else (.ok dte, s)

/-! ### The page-table walk -/

/-- The walks that read no memory (41_page_table_walk R136, R137, R138): `TV = 0`, mode 7, mode 0, and an IOVA too wide
for the mode; mode 6 is never too narrow. -/
def Obligations.WalkEndsBeforeReading : Prop :=
  ∀ (s : State) (dte : Dte) (iova : Word) (m : Nat), m = (dte.q0.extractLsb' 9 3).toNat →
    (dte.q0.getLsbD 1 = false → walk s dte iova = .err .tvClear) ∧
    (dte.q0.getLsbD 1 = true → m = 7 → walk s dte iova = .err .modeReserved) ∧
    (dte.q0.getLsbD 1 = true → m = 0 → dte.q0.extractLsb' 61 2 = 0#2 → walk s dte iova = .noMapping 4096) ∧
    (dte.q0.getLsbD 1 = true → m = 0 → dte.q0.extractLsb' 61 2 ≠ 0#2 →
      walk s dte iova = .ok (iova &&& ~~~0xFFF#64) 4096#64 (dte.q0.extractLsb' 61 2)) ∧
    (dte.q0.getLsbD 1 = true → 1 ≤ m → m ≤ 5 → 2 ^ (12 + 9 * m) ≤ iova.toNat →
      walk s dte iova = .err .iovaOutOfRange) ∧
    (dte.q0.getLsbD 1 = true → 1 ≤ m → m ≤ 6 → (m ≤ 5 → iova.toNat < 2 ^ (12 + 9 * m)) →
      walk s dte iova ≠ .err .iovaOutOfRange)

/-- A walk of mode 1 to 6 ends as the entries it meets on its way down say (41_page_table_walk R140 to R145): empty
permissions, a not-present entry, a leaf of its level, a large page, or an entry that cannot be read. -/
def Obligations.WalkFollowsTheTableChain : Prop :=
  ∀ (s : State) (dte : Dte) (iova : Word) (m d : Nat) (es : Nat → Word),
    dte.q0.getLsbD 1 = true → m = (dte.q0.extractLsb' 9 3).toNat → 1 ≤ m → m ≤ 6 →
    (m ≤ 5 → iova.toNat < 2 ^ (12 + 9 * m)) → es 0 = dte.q0 → d ≤ m → TableChain s m iova es d →
    (chainPerms es d = 0#2 → walk s dte iova = .noMapping (2 ^ (12 + 9 * (m - d)))) ∧
    (chainPerms es d ≠ 0#2 → 0 < d → (es d).getLsbD 0 = false →
      walk s dte iova = .noMapping (2 ^ (12 + 9 * (m - d)))) ∧
    (chainPerms es d ≠ 0#2 → 0 < d → (es d).getLsbD 0 = true → (es d).extractLsb' 9 3 ≠ 7#3 →
      ((es d).extractLsb' 9 3 = 0#3 ∨ d = m) →
      walk s dte iova = .ok
        (((es d) &&& 0x000F_FFFF_FFFF_F000#64) &&& ~~~(BitVec.ofNat 64 (2 ^ (12 + 9 * (m - d))) - 1#64))
        (BitVec.ofNat 64 (2 ^ (12 + 9 * (m - d)))) (chainPerms es d)) ∧
    (chainPerms es d ≠ 0#2 → 0 < d → (es d).getLsbD 0 = true → (es d).extractLsb' 9 3 = 7#3 →
      (∀ b, 12 ≤ b → b ≤ 51 → (es d).getLsbD b = true) → walk s dte iova = .err .largePageSizeInvalid) ∧
    (∀ z, chainPerms es d ≠ 0#2 → 0 < d → (es d).getLsbD 0 = true → (es d).extractLsb' 9 3 = 7#3 →
      12 ≤ z → z ≤ 51 → (∀ b, 12 ≤ b → b < z → (es d).getLsbD b = true) → (es d).getLsbD z = false →
      walk s dte iova = .ok
        (((es d) &&& 0x000F_FFFF_FFFF_F000#64) &&& ~~~(BitVec.ofNat 64 (2 ^ (z + 1)) - 1#64))
        (BitVec.ofNat 64 (2 ^ (z + 1))) (chainPerms es d)) ∧
    (chainPerms es d ≠ 0#2 → d < m →
      (d = 0 ∨ ((es d).getLsbD 0 = true ∧ (es d).extractLsb' 9 3 ≠ 0#3 ∧ (es d).extractLsb' 9 3 ≠ 7#3)) →
      memRead s (chainAddr m iova es d) 8 = none →
      walk s dte iova = .err
        (if d = 0 then .rootPointerError (chainAddr m iova es d) else .pteFetchError (chainAddr m iova es d)))

/-- What a walk that finds a mapping answers is a mapping (41_page_table_walk R135, R145): a page size from 2^12 to 2^57,
an address aligned to it, a non-empty permission set that the device-table entry also grants. -/
def Obligations.WalkAnswersAnAlignedPage : Prop :=
  ∀ (s : State) (dte : Dte) (iova ta size : Word) (p : Perms), walk s dte iova = .ok ta size p →
    p ≠ 0#2 ∧ p &&& dte.q0.extractLsb' 61 2 = p ∧
    ∃ e : Nat, 12 ≤ e ∧ e ≤ 57 ∧ size = BitVec.ofNat 64 (2 ^ e) ∧ ta.toNat % 2 ^ e = 0

/-- Two addresses of one 4 KiB frame are walked alike, so an entry cached under the frame answers for both
(42_iotlb R161, 41_page_table_walk R143). -/
def Obligations.WalkDependsOnTheFrameOnly : Prop :=
  ∀ (s : State) (dte : Dte) (iova iova' : Word), iova.toNat / 4096 = iova'.toNat / 4096 →
    walk s dte iova = walk s dte iova'

/-! ### The IOTLB -/

/-- A lookup finds an entry of the device and the 4 KiB frame, and misses only if there is none (42_iotlb R161, R162). -/
def Obligations.LookupFindsTheFramesEntry : Prop :=
  ∀ (s : State) (devid : DevId) (iova : Word),
    (∀ e, iotlbLookup s devid iova = some e →
      e ∈ s.iotlb ∧ e.devid = devid ∧ e.gfn.toNat = iova.toNat / 4096) ∧
    (iotlbLookup s devid iova = none → ∀ e ∈ s.iotlb, ¬ (e.devid = devid ∧ e.gfn.toNat = iova.toNat / 4096))

/-- `iotlb_insert` (42_iotlb R163): nothing for empty permissions; else the new entry is present and found, beside the
old entries of other keys, or alone if those already filled the capacity. -/
def Obligations.InsertKeepsTheCapacity : Prop :=
  ∀ (s : State) (devid : DevId) (iova ta size : Word) (p : Perms) (domid : DomId) (t : State) (e : IotlbEntry),
    t = iotlbInsert s devid iova ta size p domid →
    e = { devid := devid, gfn := iova.extractLsb' 12 52, domid := domid, perms := p, translatedAddr := ta,
          pageMask := size - 1#64 } →
    (p = 0#2 → t = s) ∧
    (p ≠ 0#2 →
      iotlbLookup t devid iova = some e ∧
      (s.cfg.iotlbCapacity ≤ (s.iotlb.filter fun x => x.devid != devid || x.gfn != e.gfn).length → t.iotlb = [e]) ∧
      ((s.iotlb.filter fun x => x.devid != devid || x.gfn != e.gfn).length < s.cfg.iotlbCapacity →
        ∀ x, x ∈ t.iotlb ↔ x = e ∨ (x ∈ s.iotlb ∧ ¬ (x.devid = devid ∧ x.gfn = e.gfn))) ∧
      (1 ≤ s.cfg.iotlbCapacity → t.iotlb.length ≤ s.cfg.iotlbCapacity) ∧
      sameRegsBut [] s t ∧ sameMemory s t ∧ sameSurroundings s t ∧ t.trace = s.trace)

/-- The four invalidations remove exactly the entries they name and change nothing else (42_iotlb R164 to R167). -/
def Obligations.InvalidationsRemoveExactly : Prop :=
  ∀ (s : State) (devid : DevId) (domid : DomId) (iova : Word),
    (∀ e, e ∈ (iotlbInvalidatePage s devid iova).iotlb ↔
      e ∈ s.iotlb ∧ ¬ (e.devid = devid ∧ e.gfn.toNat = iova.toNat / 4096)) ∧
    (∀ e, e ∈ (iotlbInvalidateDevice s devid).iotlb ↔ e ∈ s.iotlb ∧ e.devid ≠ devid) ∧
    (∀ e, e ∈ (iotlbInvalidateDomain s domid).iotlb ↔ e ∈ s.iotlb ∧ e.domid ≠ domid) ∧
    (∀ e, e ∉ (iotlbInvalidateAll s).iotlb) ∧
    ∀ t, t = iotlbInvalidatePage s devid iova ∨ t = iotlbInvalidateDevice s devid ∨
        t = iotlbInvalidateDomain s domid ∨ t = iotlbInvalidateAll s →
      sameRegsBut [] s t ∧ sameMemory s t ∧ sameSurroundings s t ∧ t.trace = s.trace ∧
      ∀ d, t.routing d = s.routing d

/-! ### The DMA translation request -/

/-- The requests that never reach the walker (43_translate R181, R182, R183): unit disabled, interrupt window, device in
pass-through routing. The state does not change. -/
def Obligations.TranslateBypasses : Prop :=
  ∀ (s : State) (devid : DevId) (iova : Word) (access : Access),
    (s.enabled = false → dmaTranslate s devid iova access =
      (.ok (iova &&& ~~~0xFFF#64) (iova &&& ~~~0xFFF#64) 0xFFF#64 3#2, s)) ∧
    (s.enabled = true → windowAddress iova → access = .write → dmaTranslate s devid iova access =
      (.ok (iova &&& ~~~0xFFF#64) (iova &&& ~~~0xFFF#64) 0xFFF#64 2#2, s)) ∧
    (s.enabled = true → windowAddress iova → access = .read → dmaTranslate s devid iova access = (.denied, s)) ∧
    (s.enabled = true → ¬ windowAddress iova → s.routing devid = .passThrough → dmaTranslate s devid iova access =
      (.ok (iova &&& ~~~0xFFF#64) (iova &&& ~~~0xFFF#64) 0xFFF#64 3#2, s))

/-- An IOTLB hit (43_translate R184): granted from the entry with no state change, or denied with a logged page fault. -/
def Obligations.TranslateHitAnswersFromTheEntry : Prop :=
  ∀ (s : State) (devid : DevId) (iova : Word) (access : Access) (e : IotlbEntry),
    reachesIotlb s devid iova → iotlbLookup s devid iova = some e →
    (permitted e.perms access → dmaTranslate s devid iova access =
      (.ok (iova &&& ~~~e.pageMask) e.translatedAddr e.pageMask e.perms, s)) ∧
    (¬ permitted e.perms access → dmaTranslate s devid iova access =
      (.denied, logEvent s .ioPageFault devid (faultFlags true access) iova))

/-- The device-table entry of a missing translation (43_translate R185): an error aborts, `V = 0` passes through. -/
def Obligations.TranslateMissFetchesTheEntry : Prop :=
  ∀ (s : State) (devid : DevId) (iova : Word) (access : Access),
    reachesIotlb s devid iova → iotlbLookup s devid iova = none →
    (∀ r, (fetchDte s devid).1 = .err r → dmaTranslate s devid iova access = (.targetAbort, (fetchDte s devid).2)) ∧
    (∀ dte, (fetchDte s devid).1 = .notValid dte → dmaTranslate s devid iova access =
      (.ok (iova &&& ~~~0xFFF#64) (iova &&& ~~~0xFFF#64) 0xFFF#64 3#2, s))

/-- What a walk that finds no mapping answers the device (43_translate R186, R187, R188). -/
def Obligations.TranslateWalkFailures : Prop :=
  ∀ (s : State) (devid : DevId) (iova : Word) (access : Access) (dte : Dte), reachesWalk s devid iova dte →
    (walk s dte iova = .err .tvClear → s.cfg.tv0Policy = .block → dmaTranslate s devid iova access =
      (.denied, logEvent s .ioPageFault devid (faultFlags false access) iova)) ∧
    (walk s dte iova = .err .tvClear → s.cfg.tv0Policy = .passThrough → dmaTranslate s devid iova access =
      (.ok (iova &&& ~~~0xFFF#64) (iova &&& ~~~0xFFF#64) 0xFFF#64 3#2, s)) ∧
    (∀ pa, walk s dte iova = .err (.rootPointerError pa) ∨ walk s dte iova = .err (.pteFetchError pa) →
      dmaTranslate s devid iova access = (.targetAbort, logEvent s .pageTabHwError devid 0#12 pa)) ∧
    ((∃ n, walk s dte iova = .noMapping n) ∨ walk s dte iova = .err .modeReserved ∨
        walk s dte iova = .err .iovaOutOfRange ∨ walk s dte iova = .err .largePageSizeInvalid →
      dmaTranslate s devid iova access = (.denied, logEvent s .ioPageFault devid (faultFlags false access) iova))

/-- A walked mapping is cached under the request's frame with the entry's domain, whether or not the access is then
allowed (43_translate R189). -/
def Obligations.TranslateCachesTheMapping : Prop :=
  ∀ (s : State) (devid : DevId) (iova : Word) (access : Access) (dte : Dte) (ta size : Word) (p : Perms),
    reachesWalk s devid iova dte → walk s dte iova = .ok ta size p →
    (permitted p access → dmaTranslate s devid iova access =
      (.ok (iova &&& ~~~(size - 1#64)) ta (size - 1#64) p,
        iotlbInsert s devid iova ta size p (dte.q1.extractLsb' 0 16))) ∧
    (¬ permitted p access → dmaTranslate s devid iova access =
      (.denied, logEvent (iotlbInsert s devid iova ta size p (dte.q1.extractLsb' 0 16)) .ioPageFault devid
        (faultFlags true access) iova)) ∧
    ∃ e, iotlbLookup (dmaTranslate s devid iova access).2 devid iova = some e ∧
      e.domid = dte.q1.extractLsb' 0 16 ∧ e.perms = p ∧ e.translatedAddr = ta ∧ e.pageMask = size - 1#64

/-- A granted translation asked for again, with nothing in between, is granted alike and changes nothing (20_memory R57,
43_translate R184). -/
def Obligations.TranslateTwiceIsTheSame : Prop :=
  ∀ (s t : State) (devid : DevId) (iova : Word) (access : Access) (base ta mask : Word) (p : Perms),
    dmaTranslate s devid iova access = (.ok base ta mask p, t) →
    dmaTranslate t devid iova access = (.ok base ta mask p, t)

/-- A granted access is one the answered permission set allows, and the answer names the page of the request
(43_translate R180). -/
def Obligations.GrantedAccessIsPermitted : Prop :=
  ∀ (s t : State) (devid : DevId) (iova : Word) (access : Access) (base ta mask : Word) (p : Perms),
    dmaTranslate s devid iova access = (.ok base ta mask p, t) → permitted p access ∧ base = iova &&& ~~~mask

/-! ### The interrupt request -/

/-- The interrupts that are not remapped (45_interrupt_remap R241, R243, R244). -/
def Obligations.RemapPassesOrFailsBeforeTheTable : Prop :=
  ∀ (s : State) (devid : DevId) (msg : Message),
    (s.enabled = false → remapInterrupt s devid msg = (.passed msg, s)) ∧
    (s.enabled = true → ∀ dte, (fetchDte s devid).1 = .notValid dte → remapInterrupt s devid msg = (.passed msg, s)) ∧
    (s.enabled = true → ∀ r, (fetchDte s devid).1 = .err r →
      remapInterrupt s devid msg = (.err r, (fetchDte s devid).2)) ∧
    (s.enabled = true → ∀ dte, (fetchDte s devid).1 = .ok dte → dte.q2.getLsbD 0 = false →
      remapInterrupt s devid msg = (.passed msg, s))

/-- A fixed or arbitrated message is resolved through the table (45_interrupt_remap R246, R247, R248): the entry's
address, the order of the checks, and the resolved fields in both formats. -/
def Obligations.RemapResolvesThroughTheTable : Prop :=
  ∀ (s : State) (devid : DevId) (msg : Message) (dte : Dte) (n : Nat) (a e : Word),
    s.enabled = true → (fetchDte s devid).1 = .ok dte → dte.q2.getLsbD 0 = true →
    ((msg.data.extractLsb' 8 3).toNat = 0 ∨ (msg.data.extractLsb' 8 3).toNat = 1) →
    n = (if s.gaEnabled then 8 else 4) →
    a = (dte.q2 &&& 0x000F_FFFF_FFFF_FFC0#64) + BitVec.ofNat 64 (n * (msg.data.toNat % 2048)) →
    e = BitVec.ofNat 64 (leNat (readBytes s.mem a n)) →
    remapInterrupt s devid msg =
      (if s.readFails a n = true then .err .irteFetchError
       else if e.getLsbD 0 = false then .err .irteRemapDisabled
       else if e.getLsbD 7 = true then .err .irteGuestMode
       else if 1 < (e.extractLsb' 2 3).toNat then .err .irteTypeReserved
       else if s.gaEnabled then
         .resolved { dest := BitVec.ofNat 32 ((e.extractLsb' 56 8).toNat * 2 ^ 24 + (e.extractLsb' 8 24).toNat),
                     vector := e.extractLsb' 32 8, deliveryMode := e.extractLsb' 2 3,
                     destMode := e.getLsbD 6, redirHint := e.getLsbD 5 }
       else
         .resolved { dest := BitVec.ofNat 32 (e.extractLsb' 8 8).toNat, vector := e.extractLsb' 16 8,
                     deliveryMode := e.extractLsb' 2 3, destMode := e.getLsbD 6, redirHint := e.getLsbD 5 }, s)

/-- The delivery types that do not use the table (45_interrupt_remap R245, R249). -/
def Obligations.RemapConsultsThePassBits : Prop :=
  ∀ (s : State) (devid : DevId) (msg : Message) (dte : Dte) (ty : Nat),
    s.enabled = true → (fetchDte s devid).1 = .ok dte → dte.q2.getLsbD 0 = true →
    ty = (msg.data.extractLsb' 8 3).toNat →
    (ty = 4 → remapInterrupt s devid msg = (if dte.q2.getLsbD 58 then .passed msg else .err .intPassDisabled, s)) ∧
    (ty = 5 → remapInterrupt s devid msg = (if dte.q2.getLsbD 56 then .passed msg else .err .intPassDisabled, s)) ∧
    (ty = 7 → remapInterrupt s devid msg = (if dte.q2.getLsbD 57 then .passed msg else .err .intPassDisabled, s)) ∧
    (ty = 2 ∨ ty = 3 ∨ ty = 6 → remapInterrupt s devid msg = (.err .intTypeUnsupported, s))

/-- Interrupts do not consult the routing, the IOTLB or the tail of the command ring: two states that agree on what the
resolver reads answer alike (45_interrupt_remap R242, R240). -/
def Obligations.RemapIgnoresRoutingAndIotlb : Prop :=
  ∀ (s t : State) (devid : DevId) (msg : Message),
    t.reg .control = s.reg .control → t.latched.devtabBase = s.latched.devtabBase →
    t.latched.devtabBytes = s.latched.devtabBytes → t.mem = s.mem → t.memFails = s.memFails →
    t.cfg.dmaRemapSupported = s.cfg.dmaRemapSupported →
    (remapInterrupt t devid msg).1 = (remapInterrupt s devid msg).1

/-- A device's requests change nothing but the IOTLB (a translation only) and the event log: no enable, no ring pointer
but `EVT_TAIL`, no routing, no latched value, no byte outside the next event's slot; with logging off, no register and
no byte at all; at most one interrupt is emitted (43_translate R180, R190, R191, 45_interrupt_remap R250). -/
def Obligations.DeviceRequestsTouchOnlyTheLog : Prop :=
  ∀ (s t : State) (devid : DevId),
    ((∃ iova access, t = (dmaTranslate s devid iova access).2) ∨ (∃ msg, t = (remapInterrupt s devid msg).2)) →
    sameSurroundings s t ∧ (∀ d, t.routing d = s.routing d) ∧
    sameRegsBut [.evtTail, .status] s t ∧ sameStatusBut [0, 1] s t ∧
    sameOutside (s.latched.evtBase + s.evtTail) 16 s t ∧
    (s.evtlogEnabled = false → t.regs = s.regs ∧ t.mem = s.mem ∧ t.trace = s.trace) ∧
    (t.trace = s.trace ∨ t.trace = s.trace ++ [.interrupt]) ∧
    ((∃ msg, t = (remapInterrupt s devid msg).2) → t.iotlb = s.iotlb)

/-! ### The register block -/

/-- `MmioRead` (46_mmio R265, 20_memory R54): all ones for a refused access, else the little-endian bytes of the register
they fall in, zero outside the registers. -/
def Obligations.MmioReadReturnsTheBytes : Prop :=
  ∀ (s : State) (offset size : Nat),
    (¬ acceptedAccess offset size → mmioRead s offset size = 2 ^ (8 * size) - 1) ∧
    (acceptedAccess offset size → ∀ n : RegName, n.offset = offset / 8 * 8 →
      mmioRead s offset size = (s.reg n).toNat / 2 ^ (8 * (offset % 8)) % 2 ^ (8 * size)) ∧
    (acceptedAccess offset size → (∀ n : RegName, n.offset ≠ offset / 8 * 8) → mmioRead s offset size = 0)

/-- The store phase of a register write (10_state R12, 46_mmio R266): every byte written is merged by the masks, and no
other byte of the block changes. -/
def Obligations.MmioStoreMergesByTheMasks : Prop :=
  ∀ (s : State) (offset size : Nat) (value : Word), acceptedAccess offset size → ∀ x : Nat,
    (storeRegBytes s offset (lowBytes value size)).mmioByte x =
      if offset ≤ x ∧ x < offset + size then
        ((s.mmioByte x &&& (roByte x ||| w1cByte x)) |||
          (BitVec.ofNat 8 (value.toNat / 2 ^ (8 * (x - offset))) &&& ~~~(roByte x))) &&&
          ~~~(BitVec.ofNat 8 (value.toNat / 2 ^ (8 * (x - offset))) &&& w1cByte x)
      else s.mmioByte x

/-- A refused access changes no state (20_memory R54); an accepted write outside the nine registers changes nothing and
triggers nothing (10_state R23); a read, refused or not, only answers (46_mmio R265; the list of answers is log 9). -/
def Obligations.RefusedAccessesChangeNothing : Prop :=
  ∀ (s : State) (offset size : Nat) (value : Word),
    (¬ acceptedAccess offset size → mmioWrite s offset size value = .next s) ∧
    (acceptedAccess offset size → (∀ n : RegName, n.offset ≠ offset / 8 * 8) →
      mmioWrite s offset size value = .next s) ∧
    (∀ t, t = serve (.mmioRead offset size) s →
      t.regs = s.regs ∧ t.latched = s.latched ∧ t.iotlb = s.iotlb ∧ t.translated = s.translated ∧ t.mem = s.mem ∧
      t.trace = s.trace ∧ t.responses = s.responses ++ [.mmioRead (mmioRead s offset size)])

/-- A write that covers byte 7 of a base register stores its bytes, whatever its size, and latches the register as it then
stands (46_mmio R266, R271, R272, R273; the split write of R282): the base, the size, and for a ring both its pointers to 0; the IOTLB, the routing, memory and the other registers stay, and no
drain follows. -/
def Obligations.BaseWritesLatch : Prop :=
  ∀ (s : State) (offset size : Nat) (v : Word) (n : RegName), s.good = true → acceptedAccess offset size →
    n.offset = offset / 8 * 8 → offset + size = n.offset + 8 →
    (n = .devtabBase → ∃ t, mmioWrite s offset size v = .next t ∧
      t.reg n = (storeRegBytes s offset (lowBytes v size)).reg n ∧
      (size = 8 → t.reg n = v &&& 0x000F_FFFF_FFFF_F1FF#64) ∧
      t.latched = { s.latched with
        devtabBase := t.reg n &&& 0x000F_FFFF_FFFF_F000#64
        devtabBytes := BitVec.ofNat 64 (((t.reg n).toNat % 512 + 1) * 4096) } ∧
      sameRegsBut [n] s t ∧ sameHidden s t ∧ t.mem = s.mem ∧ t.trace = s.trace) ∧
    (n = .cmdBase → ∃ t, mmioWrite s offset size v = .next t ∧
      t.reg n = (storeRegBytes s offset (lowBytes v size)).reg n ∧
      (size = 8 → t.reg n = v &&& 0x0F0F_FFFF_FFFF_F000#64) ∧
      t.latched = { s.latched with
        cmdBase := t.reg n &&& 0x000F_FFFF_FFFF_F000#64
        cmdBytes := BitVec.ofNat 64 (16 * 2 ^ ((t.reg n).extractLsb' 56 4).toNat) } ∧
      t.reg .cmdHead = 0#64 ∧ t.reg .cmdTail = 0#64 ∧
      sameRegsBut [n, .cmdHead, .cmdTail] s t ∧ sameHidden s t ∧ t.mem = s.mem ∧ t.trace = s.trace) ∧
    (n = .evtBase → ∃ t, mmioWrite s offset size v = .next t ∧
      t.reg n = (storeRegBytes s offset (lowBytes v size)).reg n ∧
      (size = 8 → t.reg n = v &&& 0x0F0F_FFFF_FFFF_F000#64) ∧
      t.latched = { s.latched with
        evtBase := t.reg n &&& 0x000F_FFFF_FFFF_F000#64
        evtBytes := BitVec.ofNat 64 (16 * 2 ^ ((t.reg n).extractLsb' 56 4).toNat) } ∧
      t.reg .evtHead = 0#64 ∧ t.reg .evtTail = 0#64 ∧
      sameRegsBut [n, .evtHead, .evtTail] s t ∧ sameHidden s t ∧ t.mem = s.mem ∧ t.trace = s.trace)

/-- A write of part of a base register that does not cover its byte 7 changes that register's bytes only: nothing is
latched and no pointer moves (46_mmio R270). -/
def Obligations.PartialBaseWriteDoesNotLatch : Prop :=
  ∀ (s : State) (offset size : Nat) (value : Word) (n : RegName), acceptedAccess offset size →
    (n = .devtabBase ∨ n = .cmdBase ∨ n = .evtBase) → n.offset = offset / 8 * 8 → offset + size < n.offset + 8 →
    ∃ t, mmioWrite s offset size value = .next t ∧ t.latched = s.latched ∧ sameRegsBut [n] s t ∧ sameHidden s t ∧
      t.mem = s.mem ∧ t.trace = s.trace ∧
      ∀ x, t.mmioByte x = (storeRegBytes s offset (lowBytes value size)).mmioByte x

/-- Any write to `CONTROL` stores its bytes, whatever its size (46_mmio R266), makes the run flags follow the enables it
leaves, and then drains (R274); a whole one stores the value as it is (10_state R17). -/
def Obligations.ControlWriteSetsRunFlagsAndDrains : Prop :=
  ∀ (s : State) (offset size : Nat) (v : Word), acceptedAccess offset size → offset / 8 * 8 = 0x0018 →
    ∃ t, mmioWrite s offset size v = drain t ∧
      t.reg .control = (storeRegBytes s offset (lowBytes v size)).reg .control ∧ (size = 8 → t.reg .control = v) ∧
      t.statusFlag .eventLogRun = ((t.reg .control).getLsbD 0 && (t.reg .control).getLsbD 2) ∧
      t.statusFlag .cmdBufRun = ((t.reg .control).getLsbD 0 && (t.reg .control).getLsbD 12) ∧ sameStatusBut [3, 4] s t ∧
      sameRegsBut [.control, .status] s t ∧ sameSurroundings s t ∧ sameHidden s t ∧ t.mem = s.mem ∧
      t.trace = s.trace

/-- Any write to a pointer register reduces what it stored modulo the ring and changes nothing else; the command pointers
then drain (46_mmio R275, R276, R277). -/
def Obligations.PointerWritesStayInTheRing : Prop :=
  ∀ (s : State) (offset size : Nat) (v : Word) (n : RegName), acceptedAccess offset size → n.offset = offset / 8 * 8 →
    (n = .cmdHead ∨ n = .cmdTail → ∃ t, mmioWrite s offset size v = drain t ∧
      t.reg n = (storeRegBytes s offset (lowBytes v size)).reg n &&& (s.latched.cmdBytes - 1#64) ∧
      (s.good = true → size = 8 → t.reg n = v &&& 0x7FFF0#64 &&& (s.latched.cmdBytes - 1#64)) ∧
      sameRegsBut [n] s t ∧ sameSurroundings s t ∧ sameHidden s t ∧ t.mem = s.mem ∧ t.trace = s.trace) ∧
    (n = .evtHead ∨ n = .evtTail → ∃ t, mmioWrite s offset size v = .next t ∧
      t.reg n = (storeRegBytes s offset (lowBytes v size)).reg n &&& (s.latched.evtBytes - 1#64) ∧
      (s.good = true → size = 8 → t.reg n = v &&& 0x7FFF0#64 &&& (s.latched.evtBytes - 1#64)) ∧
      sameRegsBut [n] s t ∧ sameSurroundings s t ∧ sameHidden s t ∧ t.mem = s.mem ∧ t.trace = s.trace)

/-- A write to `STATUS` clears exactly the write-one-to-clear bits written as 1 and does nothing else, whichever of its
bytes it covers (46_mmio R278, 10_state R22). -/
def Obligations.StatusWriteClearsWrittenOnes : Prop :=
  ∀ (s : State) (offset size : Nat) (v : Word), acceptedAccess offset size → offset / 8 * 8 = 0x2020 →
    ∃ t, mmioWrite s offset size v = .next t ∧
      t.reg .status = s.reg .status &&&
        ~~~((BitVec.ofNat 64 (v.toNat % 2 ^ (8 * size)) <<< (8 * (offset % 8))) &&& 7#64) ∧
      sameRegsBut [.status] s t ∧ sameSurroundings s t ∧ sameHidden s t ∧ t.mem = s.mem ∧ t.trace = s.trace

/-! ### The whole machine -/

/-- Every step keeps the invariant of 10_state R26 and R27, from every state that has it, whatever requests wait. -/
def Obligations.StepKeepsTheInvariant : Prop :=
  ∀ s t : State, s.good = true → step s = .next t → t.good = true

/-- The state at power on has the invariant (10_state R26). -/
def Obligations.PowerOnHasTheInvariant : Prop := State.reset.good = true ∧ State.reset.quiescent = true

/-- A device's routing changes only by an `INVALIDATE_DEVTAB_ENTRY` of that device or by reset (10_state R28,
70_reset R337). -/
def Obligations.RoutingChangesOnlyByCommandOrReset : Prop :=
  ∀ (s t : State) (d : DevId), step s = .next t → t.routing d ≠ s.routing d →
    nextCommand s (.invalidateDevtabEntry d) ∨ nextRequest s .reset

/-- An IOTLB entry goes only by an invalidation that names it, by reset, or by an insertion into a full IOTLB
(20_memory R65). -/
def Obligations.EntriesLeaveOnlyByInvalidation : Prop :=
  ∀ (s t : State) (e : IotlbEntry), step s = .next t → e ∈ s.iotlb → e ∉ t.iotlb →
    nextCommand s .invalidateIommuAll ∨
    (∃ sizeFlag address, nextCommand s (.invalidateIommuPages e.domid sizeFlag address)) ∨
    (∃ address, nextCommand s (.invalidateIotlbPages e.devid true address)) ∨
    (∃ address, nextCommand s (.invalidateIotlbPages e.devid false address) ∧
      e.gfn.toNat = address.toNat / 4096) ∨
    nextRequest s .reset ∨
    (∃ devid iova access, nextRequest s (.translate devid iova access) ∧ s.cfg.iotlbCapacity ≤ s.iotlb.length)

/-- A byte of system memory changes only by the host's own store, by a `COMPLETION_WAIT` store or in the slot of the next
event while logging is on: the unit writes memory in exactly two places (20_memory R51, R66). -/
def Obligations.MemoryIsWrittenInTwoPlaces : Prop :=
  ∀ (s t : State) (x : Nat), step s = .next t → readByte t.mem x ≠ readByte s.mem x →
    (∃ interrupt flush addr data, nextCommand s (.completionWait true interrupt flush addr data) ∧
      s.writeFails addr 8 = false ∧ ∃ k < 8, x = (addr + BitVec.ofNat 64 k).toNat) ∨
    (s.evtlogEnabled = true ∧ s.writeFails (s.latched.evtBase + s.evtTail) 16 = false ∧
      ∃ k < 16, x = (s.latched.evtBase + s.evtTail + BitVec.ofNat 64 k).toNat) ∨
    (∃ addr bytes, nextRequest s (.hostStore addr bytes) ∧
      ∃ k < bytes.length, x = (addr + BitVec.ofNat 64 k).toNat)

/-- The enables, the command tail and the latched values change only by a register write of the host or by reset
(10_state R14 to R19, R25; 60_exceptions R320). That no step changes the configuration `cfg`, the parameters of 00_scope
R4, is the model's choice (log 6). -/
def Obligations.ConfigurationChangesOnlyByHostOrReset : Prop :=
  ∀ s t : State, step s = .next t →
    t.cfg = s.cfg ∧
    (¬ sameRegsBut [.cmdHead, .evtTail, .status] s t ∨ t.latched ≠ s.latched →
      (∃ offset size value, nextRequest s (.mmioWrite offset size value)) ∨ nextRequest s .reset)
end

