-- ==== Sys2Proof/Laws/Bits.lean ====
section
/-! SUPPORT. Laws of the bit and byte helpers. -/

namespace Sys2Proof

theorem byteAt_lowBytes (v : Word) (n k : Nat) (h : k < n) : byteAt (lowBytes v n) k = wordByte v k := by
  simp [byteAt, lowBytes, List.getD_eq_getElem?_getD, h]

theorem byteAt_wordBytes (v : Word) (k : Nat) (h : k < 8) : byteAt (wordBytes v) k = wordByte v k :=
  byteAt_lowBytes v 8 k h

theorem byteAt_append_left (as bs : List Byte) (k : Nat) (h : k < as.length) : byteAt (as ++ bs) k = byteAt as k := by
  simp [byteAt, List.getD_eq_getElem?_getD, List.getElem?_append_left h]

theorem byteAt_append_right (as bs : List Byte) (k : Nat) : byteAt (as ++ bs) (as.length + k) = byteAt bs k := by
  simp [byteAt, List.getD_eq_getElem?_getD, List.getElem?_append_right]

/-- Eight bytes that are a word's, put together, are the word. -/
theorem le64_of_bytes (bs : List Byte) (o : Nat) (v : Word) (h : ∀ k < 8, byteAt bs (o + k) = wordByte v k) :
    le64 bs o = v := by
  have h0 := h 0 (by decide); have h1 := h 1 (by decide); have h2 := h 2 (by decide); have h3 := h 3 (by decide)
  have h4 := h 4 (by decide); have h5 := h 5 (by decide); have h6 := h 6 (by decide); have h7 := h 7 (by decide)
  rw [Nat.add_zero] at h0
  unfold le64
  rw [h0, h1, h2, h3, h4, h5, h6, h7]
  apply BitVec.eq_of_getLsbD_eq
  intro i hi
  simp only [wordByte, BitVec.getLsbD_append, BitVec.getLsbD_extractLsb']
  interval_cases i <;> rfl

theorem le64_wordBytes (v : Word) : le64 (wordBytes v) 0 = v :=
  le64_of_bytes _ _ _ fun k hk => by rw [Nat.zero_add, byteAt_wordBytes v k hk]

/-- The first of two words stored one after the other. -/
theorem le64_append_left (u v : Word) (rest : List Byte) : le64 (wordBytes u ++ wordBytes v ++ rest) 0 = u :=
  le64_of_bytes _ _ _ fun k hk => by
    rw [Nat.zero_add, List.append_assoc, byteAt_append_left _ _ _ (by simp [wordBytes, lowBytes]; omega),
      byteAt_wordBytes u k hk]

/-- The second of two words stored one after the other. -/
theorem le64_append_right (u v : Word) (rest : List Byte) : le64 (wordBytes u ++ wordBytes v ++ rest) 8 = v :=
  le64_of_bytes _ _ _ fun k hk => by
    have h8 : 8 = (wordBytes u).length := by simp [wordBytes, lowBytes]
    rw [List.append_assoc, h8, byteAt_append_right, byteAt_append_left _ _ _ (by simp [wordBytes, lowBytes]; omega),
      byteAt_wordBytes v k hk]

/-- A byte replaced in a word: the other bits stay. -/
theorem getLsbD_withByte (v : Word) (i : Nat) (b : Byte) (j : Nat) (hj : j < 64) :
    (withByte v i b).getLsbD j = if j / 8 = i then b.getLsbD (j % 8) else v.getLsbD j := by
  have h255 : ∀ k, (0xFF#64).getLsbD k = decide (k < 8) := by
    intro k
    by_cases hk : k < 64
    · interval_cases k <;> rfl
    · rw [BitVec.getLsbD_of_ge _ _ (by omega)]; simp; omega
  simp only [withByte, BitVec.getLsbD_or, BitVec.getLsbD_and, BitVec.getLsbD_not, BitVec.getLsbD_shiftLeft, h255,
    BitVec.getLsbD_setWidth, hj, decide_true, Bool.true_and]
  by_cases h : j / 8 = i
  · have e : j - 8 * i = j % 8 := by omega
    have h1 : ¬ j < 8 * i := by omega
    have h2 : j % 8 < 8 := by omega
    have h3 : j - 8 * i < 64 := by omega
    simp [h, h1, e, h2]
    omega
  · by_cases h1 : j < 8 * i
    · simp [h, h1]
    · have h3 : ¬ j - 8 * i < 8 := by omega
      simp [h, h3, BitVec.getLsbD_of_ge b (j - 8 * i) (by omega)]

namespace Machine

theorem getLsbD_withBit (v : Word) (i : Nat) (b : Bool) (hi : i < 64) (j : Nat) :
    (withBit v i b).getLsbD j = if j = i then b else v.getLsbD j := by
  have h1 : (1#64 <<< i).getLsbD j = decide (j = i) := by
    rw [BitVec.getLsbD_shiftLeft, BitVec.getLsbD_one]
    by_cases h : j = i
    · subst h; simp [hi]
    · simp [h]; omega
  have h2 : (if b then v ||| (1#64 <<< i) else v &&& ~~~(1#64 <<< i)).getLsbD j =
      if b then (v.getLsbD j || decide (j = i)) else (v.getLsbD j && (decide (j < 64) && !decide (j = i))) := by
    cases b <;> simp only [Bool.false_eq_true, if_false, if_true, BitVec.getLsbD_or, BitVec.getLsbD_and,
      BitVec.getLsbD_not, h1]
  rw [withBit, h2]
  by_cases hj : j < 64
  · cases b <;> by_cases h : j = i <;> simp [h, hj]
  · have hne : j ≠ i := by omega
    cases b <;> simp [hne, BitVec.getLsbD_of_ge v j (by omega)]

theorem StatusFlag.bit_lt (f : StatusFlag) : f.bit < 64 := by cases f <;> decide

/-- A `STATUS` flag after the unit sets one. -/
theorem statusFlag_setStatusFlag (s : State) (f g : StatusFlag) (b : Bool) :
    (s.setStatusFlag f b).statusFlag g = if g = f then b else s.statusFlag g := by
  have : (s.setStatusFlag f b).reg .status = withBit (s.reg .status) f.bit b := rfl
  simp only [State.statusFlag, this, getLsbD_withBit _ _ _ f.bit_lt]
  cases f <;> cases g <;> rfl

end Machine

end Sys2Proof
end

