-- ==== Sys2Proof/Laws/State.lean ====
section
/-! SUPPORT. What each update of the state does to each field: one lemma per field per update, so that no proof
unfolds a record update. -/

namespace Sys2Proof.Machine

variable (s : State)

/-! ### Registers by name -/

@[simp] theorem Regs.get_set (r : Regs) (n m : RegName) (v : Word) :
    (r.set n v).get m = if m = n then v else r.get m := by
  cases n <;> cases m <;> rfl

theorem Regs.ext_get (r r' : Regs) (h : ∀ n, r.get n = r'.get n) : r = r' := by
  have h1 := h .devtabBase; have h2 := h .cmdBase; have h3 := h .evtBase; have h4 := h .control
  have h5 := h .cmdHead; have h6 := h .cmdTail; have h7 := h .evtHead; have h8 := h .evtTail
  have h9 := h .status
  cases r; cases r'; simp_all [Regs.get]

@[simp] theorem RegName.mem_all (n : RegName) : n ∈ RegName.all := by cases n <;> decide

@[simp] theorem setReg_reg (n m : RegName) (v : Word) :
    (s.setReg n v).reg m = if m = n then v else s.reg m := Regs.get_set _ _ _ _

@[simp] theorem setStatusFlag_reg (f : StatusFlag) (b : Bool) (m : RegName) :
    (s.setStatusFlag f b).reg m = if m = .status then withBit (s.reg .status) f.bit b else s.reg m :=
  setReg_reg _ _ _ _

@[simp] theorem advanceHead_reg (m : RegName) :
    (advanceHead s).reg m = if m = .cmdHead then s.cmdNext else s.reg m := setReg_reg _ _ _ _

theorem refreshRunFlags_reg (m : RegName) (h : m ≠ .status) : s.refreshRunFlags.reg m = s.reg m := by
  simp [State.refreshRunFlags, h]

/-! ### Fields -/

section setReg
variable (n : RegName) (v : Word)

@[simp] theorem setReg_cfg : (s.setReg n v).cfg = s.cfg := rfl
@[simp] theorem setReg_regs : (s.setReg n v).regs = s.regs.set n v := rfl
@[simp] theorem setReg_latched : (s.setReg n v).latched = s.latched := rfl
@[simp] theorem setReg_iotlb : (s.setReg n v).iotlb = s.iotlb := rfl
@[simp] theorem setReg_translated : (s.setReg n v).translated = s.translated := rfl
@[simp] theorem setReg_mem : (s.setReg n v).mem = s.mem := rfl
@[simp] theorem setReg_memFails : (s.setReg n v).memFails = s.memFails := rfl
@[simp] theorem setReg_inputs : (s.setReg n v).inputs = s.inputs := rfl
@[simp] theorem setReg_responses : (s.setReg n v).responses = s.responses := rfl
@[simp] theorem setReg_trace : (s.setReg n v).trace = s.trace := rfl
@[simp] theorem setReg_routing (x : DevId) : (s.setReg n v).routing x = s.routing x := rfl
end setReg

section setStatusFlag
variable (f : StatusFlag) (b : Bool)

@[simp] theorem setStatusFlag_cfg : (s.setStatusFlag f b).cfg = s.cfg := rfl
@[simp] theorem setStatusFlag_latched : (s.setStatusFlag f b).latched = s.latched := rfl
@[simp] theorem setStatusFlag_iotlb : (s.setStatusFlag f b).iotlb = s.iotlb := rfl
@[simp] theorem setStatusFlag_translated : (s.setStatusFlag f b).translated = s.translated := rfl
@[simp] theorem setStatusFlag_mem : (s.setStatusFlag f b).mem = s.mem := rfl
@[simp] theorem setStatusFlag_memFails : (s.setStatusFlag f b).memFails = s.memFails := rfl
@[simp] theorem setStatusFlag_inputs : (s.setStatusFlag f b).inputs = s.inputs := rfl
@[simp] theorem setStatusFlag_responses : (s.setStatusFlag f b).responses = s.responses := rfl
@[simp] theorem setStatusFlag_trace : (s.setStatusFlag f b).trace = s.trace := rfl
@[simp] theorem setStatusFlag_routing (x : DevId) : (s.setStatusFlag f b).routing x = s.routing x := rfl
end setStatusFlag

section refreshRunFlags

@[simp] theorem refreshRunFlags_cfg : (s.refreshRunFlags).cfg = s.cfg := rfl
@[simp] theorem refreshRunFlags_latched : (s.refreshRunFlags).latched = s.latched := rfl
@[simp] theorem refreshRunFlags_iotlb : (s.refreshRunFlags).iotlb = s.iotlb := rfl
@[simp] theorem refreshRunFlags_translated : (s.refreshRunFlags).translated = s.translated := rfl
@[simp] theorem refreshRunFlags_mem : (s.refreshRunFlags).mem = s.mem := rfl
@[simp] theorem refreshRunFlags_memFails : (s.refreshRunFlags).memFails = s.memFails := rfl
@[simp] theorem refreshRunFlags_inputs : (s.refreshRunFlags).inputs = s.inputs := rfl
@[simp] theorem refreshRunFlags_responses : (s.refreshRunFlags).responses = s.responses := rfl
@[simp] theorem refreshRunFlags_trace : (s.refreshRunFlags).trace = s.trace := rfl
@[simp] theorem refreshRunFlags_routing (x : DevId) : (s.refreshRunFlags).routing x = s.routing x := rfl
end refreshRunFlags

section advanceHead

@[simp] theorem advanceHead_cfg : (advanceHead s).cfg = s.cfg := rfl
@[simp] theorem advanceHead_latched : (advanceHead s).latched = s.latched := rfl
@[simp] theorem advanceHead_iotlb : (advanceHead s).iotlb = s.iotlb := rfl
@[simp] theorem advanceHead_translated : (advanceHead s).translated = s.translated := rfl
@[simp] theorem advanceHead_mem : (advanceHead s).mem = s.mem := rfl
@[simp] theorem advanceHead_memFails : (advanceHead s).memFails = s.memFails := rfl
@[simp] theorem advanceHead_inputs : (advanceHead s).inputs = s.inputs := rfl
@[simp] theorem advanceHead_responses : (advanceHead s).responses = s.responses := rfl
@[simp] theorem advanceHead_trace : (advanceHead s).trace = s.trace := rfl
@[simp] theorem advanceHead_routing (x : DevId) : (advanceHead s).routing x = s.routing x := rfl
end advanceHead

section emit
variable (o : Output)

@[simp] theorem emit_cfg : (s.emit o).cfg = s.cfg := rfl
@[simp] theorem emit_regs : (s.emit o).regs = s.regs := rfl
@[simp] theorem emit_latched : (s.emit o).latched = s.latched := rfl
@[simp] theorem emit_iotlb : (s.emit o).iotlb = s.iotlb := rfl
@[simp] theorem emit_translated : (s.emit o).translated = s.translated := rfl
@[simp] theorem emit_mem : (s.emit o).mem = s.mem := rfl
@[simp] theorem emit_memFails : (s.emit o).memFails = s.memFails := rfl
@[simp] theorem emit_inputs : (s.emit o).inputs = s.inputs := rfl
@[simp] theorem emit_responses : (s.emit o).responses = s.responses := rfl
@[simp] theorem emit_trace : (s.emit o).trace = s.trace ++ [o] := rfl
@[simp] theorem emit_reg (m : RegName) : (s.emit o).reg m = s.reg m := rfl
@[simp] theorem emit_routing (x : DevId) : (s.emit o).routing x = s.routing x := rfl
end emit

section respond
variable (r : Response)

@[simp] theorem respond_cfg : (s.respond r).cfg = s.cfg := rfl
@[simp] theorem respond_regs : (s.respond r).regs = s.regs := rfl
@[simp] theorem respond_latched : (s.respond r).latched = s.latched := rfl
@[simp] theorem respond_iotlb : (s.respond r).iotlb = s.iotlb := rfl
@[simp] theorem respond_translated : (s.respond r).translated = s.translated := rfl
@[simp] theorem respond_mem : (s.respond r).mem = s.mem := rfl
@[simp] theorem respond_memFails : (s.respond r).memFails = s.memFails := rfl
@[simp] theorem respond_inputs : (s.respond r).inputs = s.inputs := rfl
@[simp] theorem respond_responses : (s.respond r).responses = s.responses ++ [r] := rfl
@[simp] theorem respond_trace : (s.respond r).trace = s.trace := rfl
@[simp] theorem respond_reg (m : RegName) : (s.respond r).reg m = s.reg m := rfl
@[simp] theorem respond_routing (x : DevId) : (s.respond r).routing x = s.routing x := rfl
end respond

section setRouting
variable (d : DevId) (r : Routing)

@[simp] theorem setRouting_cfg : (s.setRouting d r).cfg = s.cfg := rfl
@[simp] theorem setRouting_regs : (s.setRouting d r).regs = s.regs := rfl
@[simp] theorem setRouting_latched : (s.setRouting d r).latched = s.latched := rfl
@[simp] theorem setRouting_iotlb : (s.setRouting d r).iotlb = s.iotlb := rfl
@[simp] theorem setRouting_mem : (s.setRouting d r).mem = s.mem := rfl
@[simp] theorem setRouting_memFails : (s.setRouting d r).memFails = s.memFails := rfl
@[simp] theorem setRouting_inputs : (s.setRouting d r).inputs = s.inputs := rfl
@[simp] theorem setRouting_responses : (s.setRouting d r).responses = s.responses := rfl
@[simp] theorem setRouting_trace : (s.setRouting d r).trace = s.trace := rfl
@[simp] theorem setRouting_reg (m : RegName) : (s.setRouting d r).reg m = s.reg m := rfl
end setRouting

section iotlbInvalidatePage
variable (d : DevId) (iova : Word)

@[simp] theorem iotlbInvalidatePage_cfg : (iotlbInvalidatePage s d iova).cfg = s.cfg := rfl
@[simp] theorem iotlbInvalidatePage_regs : (iotlbInvalidatePage s d iova).regs = s.regs := rfl
@[simp] theorem iotlbInvalidatePage_latched : (iotlbInvalidatePage s d iova).latched = s.latched := rfl
@[simp] theorem iotlbInvalidatePage_iotlb : (iotlbInvalidatePage s d iova).iotlb = eraseKey IotlbEntry.key (iotlbKeyOf d (gfnOf iova)) s.iotlb := rfl
@[simp] theorem iotlbInvalidatePage_translated : (iotlbInvalidatePage s d iova).translated = s.translated := rfl
@[simp] theorem iotlbInvalidatePage_mem : (iotlbInvalidatePage s d iova).mem = s.mem := rfl
@[simp] theorem iotlbInvalidatePage_memFails : (iotlbInvalidatePage s d iova).memFails = s.memFails := rfl
@[simp] theorem iotlbInvalidatePage_inputs : (iotlbInvalidatePage s d iova).inputs = s.inputs := rfl
@[simp] theorem iotlbInvalidatePage_responses : (iotlbInvalidatePage s d iova).responses = s.responses := rfl
@[simp] theorem iotlbInvalidatePage_trace : (iotlbInvalidatePage s d iova).trace = s.trace := rfl
@[simp] theorem iotlbInvalidatePage_reg (m : RegName) : (iotlbInvalidatePage s d iova).reg m = s.reg m := rfl
@[simp] theorem iotlbInvalidatePage_routing (x : DevId) : (iotlbInvalidatePage s d iova).routing x = s.routing x := rfl
end iotlbInvalidatePage

section iotlbInvalidateDevice
variable (d : DevId)

@[simp] theorem iotlbInvalidateDevice_cfg : (iotlbInvalidateDevice s d).cfg = s.cfg := rfl
@[simp] theorem iotlbInvalidateDevice_regs : (iotlbInvalidateDevice s d).regs = s.regs := rfl
@[simp] theorem iotlbInvalidateDevice_latched : (iotlbInvalidateDevice s d).latched = s.latched := rfl
@[simp] theorem iotlbInvalidateDevice_iotlb : (iotlbInvalidateDevice s d).iotlb = s.iotlb.filter fun e => e.devid != d := rfl
@[simp] theorem iotlbInvalidateDevice_translated : (iotlbInvalidateDevice s d).translated = s.translated := rfl
@[simp] theorem iotlbInvalidateDevice_mem : (iotlbInvalidateDevice s d).mem = s.mem := rfl
@[simp] theorem iotlbInvalidateDevice_memFails : (iotlbInvalidateDevice s d).memFails = s.memFails := rfl
@[simp] theorem iotlbInvalidateDevice_inputs : (iotlbInvalidateDevice s d).inputs = s.inputs := rfl
@[simp] theorem iotlbInvalidateDevice_responses : (iotlbInvalidateDevice s d).responses = s.responses := rfl
@[simp] theorem iotlbInvalidateDevice_trace : (iotlbInvalidateDevice s d).trace = s.trace := rfl
@[simp] theorem iotlbInvalidateDevice_reg (m : RegName) : (iotlbInvalidateDevice s d).reg m = s.reg m := rfl
@[simp] theorem iotlbInvalidateDevice_routing (x : DevId) : (iotlbInvalidateDevice s d).routing x = s.routing x := rfl
end iotlbInvalidateDevice

section iotlbInvalidateDomain
variable (d : DomId)

@[simp] theorem iotlbInvalidateDomain_cfg : (iotlbInvalidateDomain s d).cfg = s.cfg := rfl
@[simp] theorem iotlbInvalidateDomain_regs : (iotlbInvalidateDomain s d).regs = s.regs := rfl
@[simp] theorem iotlbInvalidateDomain_latched : (iotlbInvalidateDomain s d).latched = s.latched := rfl
@[simp] theorem iotlbInvalidateDomain_iotlb : (iotlbInvalidateDomain s d).iotlb = s.iotlb.filter fun e => e.domid != d := rfl
@[simp] theorem iotlbInvalidateDomain_translated : (iotlbInvalidateDomain s d).translated = s.translated := rfl
@[simp] theorem iotlbInvalidateDomain_mem : (iotlbInvalidateDomain s d).mem = s.mem := rfl
@[simp] theorem iotlbInvalidateDomain_memFails : (iotlbInvalidateDomain s d).memFails = s.memFails := rfl
@[simp] theorem iotlbInvalidateDomain_inputs : (iotlbInvalidateDomain s d).inputs = s.inputs := rfl
@[simp] theorem iotlbInvalidateDomain_responses : (iotlbInvalidateDomain s d).responses = s.responses := rfl
@[simp] theorem iotlbInvalidateDomain_trace : (iotlbInvalidateDomain s d).trace = s.trace := rfl
@[simp] theorem iotlbInvalidateDomain_reg (m : RegName) : (iotlbInvalidateDomain s d).reg m = s.reg m := rfl
@[simp] theorem iotlbInvalidateDomain_routing (x : DevId) : (iotlbInvalidateDomain s d).routing x = s.routing x := rfl
end iotlbInvalidateDomain

section iotlbInvalidateAll

@[simp] theorem iotlbInvalidateAll_cfg : (iotlbInvalidateAll s).cfg = s.cfg := rfl
@[simp] theorem iotlbInvalidateAll_regs : (iotlbInvalidateAll s).regs = s.regs := rfl
@[simp] theorem iotlbInvalidateAll_latched : (iotlbInvalidateAll s).latched = s.latched := rfl
@[simp] theorem iotlbInvalidateAll_iotlb : (iotlbInvalidateAll s).iotlb = [] := rfl
@[simp] theorem iotlbInvalidateAll_translated : (iotlbInvalidateAll s).translated = s.translated := rfl
@[simp] theorem iotlbInvalidateAll_mem : (iotlbInvalidateAll s).mem = s.mem := rfl
@[simp] theorem iotlbInvalidateAll_memFails : (iotlbInvalidateAll s).memFails = s.memFails := rfl
@[simp] theorem iotlbInvalidateAll_inputs : (iotlbInvalidateAll s).inputs = s.inputs := rfl
@[simp] theorem iotlbInvalidateAll_responses : (iotlbInvalidateAll s).responses = s.responses := rfl
@[simp] theorem iotlbInvalidateAll_trace : (iotlbInvalidateAll s).trace = s.trace := rfl
@[simp] theorem iotlbInvalidateAll_reg (m : RegName) : (iotlbInvalidateAll s).reg m = s.reg m := rfl
@[simp] theorem iotlbInvalidateAll_routing (x : DevId) : (iotlbInvalidateAll s).routing x = s.routing x := rfl
end iotlbInvalidateAll

/-! ### The conditional updates -/

@[simp] theorem raiseIf_cfg (b : Bool) : (s.raiseIf b).cfg = s.cfg := by cases b <;> rfl
@[simp] theorem raiseIf_regs (b : Bool) : (s.raiseIf b).regs = s.regs := by cases b <;> rfl
@[simp] theorem raiseIf_latched (b : Bool) : (s.raiseIf b).latched = s.latched := by cases b <;> rfl
@[simp] theorem raiseIf_iotlb (b : Bool) : (s.raiseIf b).iotlb = s.iotlb := by cases b <;> rfl
@[simp] theorem raiseIf_translated (b : Bool) : (s.raiseIf b).translated = s.translated := by cases b <;> rfl
@[simp] theorem raiseIf_mem (b : Bool) : (s.raiseIf b).mem = s.mem := by cases b <;> rfl
@[simp] theorem raiseIf_memFails (b : Bool) : (s.raiseIf b).memFails = s.memFails := by cases b <;> rfl
@[simp] theorem raiseIf_inputs (b : Bool) : (s.raiseIf b).inputs = s.inputs := by cases b <;> rfl
@[simp] theorem raiseIf_responses (b : Bool) : (s.raiseIf b).responses = s.responses := by cases b <;> rfl
@[simp] theorem raiseIf_trace (b : Bool) :
    (s.raiseIf b).trace = s.trace ++ if b then [.interrupt] else [] := by cases b <;> simp [State.raiseIf]
@[simp] theorem raiseIf_reg (b : Bool) (m : RegName) : (s.raiseIf b).reg m = s.reg m := by cases b <;> rfl
@[simp] theorem raiseIf_routing (b : Bool) (x : DevId) : (s.raiseIf b).routing x = s.routing x := by cases b <;> rfl

@[simp] theorem memWriteDrop_cfg (a : Word) (bs : List Byte) : (memWriteDrop s a bs).cfg = s.cfg := by
  unfold memWriteDrop memWrite; split <;> rfl
@[simp] theorem memWriteDrop_regs (a : Word) (bs : List Byte) : (memWriteDrop s a bs).regs = s.regs := by
  unfold memWriteDrop memWrite; split <;> rfl
@[simp] theorem memWriteDrop_latched (a : Word) (bs : List Byte) : (memWriteDrop s a bs).latched = s.latched := by
  unfold memWriteDrop memWrite; split <;> rfl
@[simp] theorem memWriteDrop_iotlb (a : Word) (bs : List Byte) : (memWriteDrop s a bs).iotlb = s.iotlb := by
  unfold memWriteDrop memWrite; split <;> rfl
@[simp] theorem memWriteDrop_translated (a : Word) (bs : List Byte) : (memWriteDrop s a bs).translated = s.translated := by
  unfold memWriteDrop memWrite; split <;> rfl
theorem memWriteDrop_mem (a : Word) (bs : List Byte) :
    (memWriteDrop s a bs).mem = if s.writeFails a bs.length then s.mem else writeBytes s.mem a bs := by
  unfold memWriteDrop memWrite; split <;> rfl
@[simp] theorem memWriteDrop_memFails (a : Word) (bs : List Byte) : (memWriteDrop s a bs).memFails = s.memFails := by
  unfold memWriteDrop memWrite; split <;> rfl
@[simp] theorem memWriteDrop_inputs (a : Word) (bs : List Byte) : (memWriteDrop s a bs).inputs = s.inputs := by
  unfold memWriteDrop memWrite; split <;> rfl
@[simp] theorem memWriteDrop_responses (a : Word) (bs : List Byte) : (memWriteDrop s a bs).responses = s.responses := by
  unfold memWriteDrop memWrite; split <;> rfl
@[simp] theorem memWriteDrop_trace (a : Word) (bs : List Byte) : (memWriteDrop s a bs).trace = s.trace := by
  unfold memWriteDrop memWrite; split <;> rfl
@[simp] theorem memWriteDrop_reg (a : Word) (bs : List Byte) (m : RegName) : (memWriteDrop s a bs).reg m = s.reg m := by
  simp [State.reg]
@[simp] theorem memWriteDrop_routing (a : Word) (bs : List Byte) (x : DevId) :
    (memWriteDrop s a bs).routing x = s.routing x := by
  simp [State.routing]

/-! ### What depends on the registers alone -/

theorem controlFlag_congr {s t : State} (h : t.reg .control = s.reg .control) (f : ControlFlag) :
    t.controlFlag f = s.controlFlag f := by simp [State.controlFlag, h]

theorem evtlogEnabled_congr {s t : State} (h : t.reg .control = s.reg .control) :
    t.evtlogEnabled = s.evtlogEnabled := by
  simp [State.evtlogEnabled, State.enabled, controlFlag_congr h]

theorem cmdbufEnabled_congr {s t : State} (h : t.reg .control = s.reg .control) :
    t.cmdbufEnabled = s.cmdbufEnabled := by
  simp [State.cmdbufEnabled, State.enabled, controlFlag_congr h]

end Sys2Proof.Machine
end

