-- ==== Sys2Proof/Laws/Memory.lean ====
section
/-! SUPPORT. The laws of keyed lists and of system memory: what a lookup sees after an update, and that every
operation keeps the canonical form. -/

namespace Sys2Proof.Machine

/-! ### Keyed lists -/

section Keyed
variable {α : Type} (key : α → Nat)

theorem mem_eraseKey {k : Nat} {l : List α} {x : α} : x ∈ eraseKey key k l ↔ x ∈ l ∧ key x ≠ k := by
  simp [eraseKey]

theorem mem_insertSorted {x y : α} {l : List α} : y ∈ insertSorted key x l ↔ y = x ∨ y ∈ l := by
  induction l with
  | nil => simp [insertSorted]
  | cons z zs ih =>
    unfold insertSorted
    split
    · simp
    · simp only [List.mem_cons, ih]; tauto

theorem mem_putKey {x y : α} {l : List α} : y ∈ putKey key x l ↔ y = x ∨ (y ∈ l ∧ key y ≠ key x) := by
  simp [putKey, mem_insertSorted, mem_eraseKey]

theorem length_insertSorted (x : α) (l : List α) : (insertSorted key x l).length = l.length + 1 := by
  induction l with
  | nil => rfl
  | cons z zs ih => unfold insertSorted; split <;> simp [ih]

@[simp] theorem findKey_nil (k : Nat) : findKey key k [] = none := rfl

theorem findKey_cons (k : Nat) (y : α) (ys : List α) :
    findKey key k (y :: ys) = if key y = k then some y else findKey key k ys := by
  unfold findKey
  rw [List.find?_cons]
  by_cases h : key y = k
  · simp [h]
  · rw [beq_false_of_ne h, if_neg h]

theorem findKey_eraseKey (k k' : Nat) (l : List α) :
    findKey key k (eraseKey key k' l) = if k = k' then none else findKey key k l := by
  induction l with
  | nil => simp [eraseKey]
  | cons y ys ih =>
    simp only [eraseKey, List.filter_cons] at ih ⊢
    by_cases h : key y = k'
    · simp only [h, bne_self_eq_false, Bool.false_eq_true, if_false, ih, findKey_cons]
      grind
    · simp only [h, bne_iff_ne, ne_eq, not_false_eq_true, if_true, findKey_cons, ih]
      grind

theorem findKey_insertSorted (x : α) (k : Nat) (l : List α) (h : ∀ y ∈ l, key y ≠ key x) :
    findKey key k (insertSorted key x l) = if k = key x then some x else findKey key k l := by
  induction l with
  | nil => simp only [insertSorted, findKey_cons, findKey_nil]; grind
  | cons y ys ih =>
    have hy : key y ≠ key x := h y (by simp)
    have ih' := ih (fun z hz => h z (by simp [hz]))
    unfold insertSorted
    split
    · simp only [findKey_cons]; grind
    · simp only [findKey_cons, ih']; grind

theorem findKey_putKey (x : α) (k : Nat) (l : List α) :
    findKey key k (putKey key x l) = if k = key x then some x else findKey key k l := by
  rw [putKey, findKey_insertSorted key x k _ (by simp [mem_eraseKey]), findKey_eraseKey]
  split <;> simp_all

theorem findKey_some {k : Nat} {l : List α} {x : α} (h : findKey key k l = some x) : x ∈ l ∧ key x = k := by
  unfold findKey at h
  exact ⟨List.mem_of_find?_eq_some h, by simpa using List.find?_some h⟩

theorem findKey_none {k : Nat} {l : List α} : findKey key k l = none ↔ ∀ x ∈ l, key x ≠ k := by
  simp [findKey]

theorem rising_iff {l : List α} : rising key l = true ↔ l.Pairwise fun x y => key x < key y := by
  simp [rising, List.pairwise_map]

theorem rising_filter (p : α → Bool) {l : List α} (h : rising key l = true) : rising key (l.filter p) = true := by
  rw [rising_iff] at h ⊢; exact h.filter p

theorem rising_eraseKey (k : Nat) {l : List α} (h : rising key l = true) : rising key (eraseKey key k l) = true :=
  rising_filter key _ h

theorem rising_insertSorted (x : α) {l : List α} (h : rising key l = true) (hx : ∀ y ∈ l, key y ≠ key x) :
    rising key (insertSorted key x l) = true := by
  induction l with
  | nil => simp [insertSorted, rising]
  | cons y ys ih =>
    rw [rising_iff] at h
    have hy := hx y (by simp)
    have hys := List.pairwise_cons.mp h
    unfold insertSorted
    split
    · rename_i hlt
      rw [rising_iff, List.pairwise_cons]
      refine ⟨fun z hz => ?_, h⟩
      rcases List.mem_cons.mp hz with rfl | hz
      · exact hlt
      · exact lt_trans hlt (hys.1 z hz)
    · have ih' := ih ((rising_iff key).mpr hys.2) (fun z hz => hx z (by simp [hz]))
      rw [rising_iff] at ih' ⊢
      rw [List.pairwise_cons]
      refine ⟨fun z hz => ?_, ih'⟩
      rcases (mem_insertSorted key).mp hz with rfl | hz
      · omega
      · exact hys.1 z hz

theorem rising_putKey (x : α) {l : List α} (h : rising key l = true) : rising key (putKey key x l) = true :=
  rising_insertSorted key x (rising_eraseKey key _ h) (by simp [mem_eraseKey])

/-- With rising keys, the lookup finds exactly the item that is there. -/
theorem findKey_of_mem {l : List α} (h : rising key l = true) {x : α} (hx : x ∈ l) : findKey key (key x) l = some x := by
  induction l with
  | nil => simp at hx
  | cons y ys ih =>
    rw [rising_iff] at h
    have hys := List.pairwise_cons.mp h
    rcases List.mem_cons.mp hx with rfl | hx
    · simp [findKey]
    · have hne : key y ≠ key x := (hys.1 x hx).ne
      have := ih ((rising_iff key).mpr hys.2) hx
      simpa [findKey, List.find?_cons, hne] using this

end Keyed

/-! ### One byte -/

theorem readByte_writeByte (m : Memory) (a x : Nat) (b : Byte) :
    readByte (writeByte m a b) x = if x = a then b else readByte m x := by
  unfold readByte writeByte
  split
  · rename_i hb; rw [findKey_eraseKey]; split <;> simp [hb]
  · rw [findKey_putKey]; split <;> simp_all

theorem Memory.wf_iff {m : Memory} :
    Memory.wf m = true ↔ rising Prod.fst m = true ∧ ∀ c ∈ m, c.1 < 2 ^ 64 ∧ c.2 ≠ unlistedByte := by
  simp [Memory.wf]

theorem Memory.wf_writeByte {m : Memory} (h : Memory.wf m = true) (a : Nat) (ha : a < 2 ^ 64) (b : Byte) :
    Memory.wf (writeByte m a b) = true := by
  rw [Memory.wf_iff] at h ⊢
  unfold writeByte
  split
  · exact ⟨rising_eraseKey _ _ h.1, fun c hc => h.2 c ((mem_eraseKey _).mp hc).1⟩
  · refine ⟨rising_putKey _ _ h.1, fun c hc => ?_⟩
    rcases (mem_putKey _).mp hc with rfl | hc
    · exact ⟨ha, by assumption⟩
    · exact h.2 c hc.1

/-! ### Runs of bytes -/

@[simp] theorem length_readBytes (m : Memory) (a : Word) (n : Nat) : (readBytes m a n).length = n := by
  induction n generalizing a with
  | zero => rfl
  | succ n ih => simp [readBytes, ih]

@[simp] theorem length_lowBytes (v : Word) (n : Nat) : (lowBytes v n).length = n := by simp [lowBytes]

@[simp] theorem length_wordBytes (v : Word) : (wordBytes v).length = 8 := by simp [wordBytes]

/-- The `k`-th byte read is the byte at the `k`-th address. -/
theorem readBytes_getD (m : Memory) (a : Word) (n k : Nat) (h : k < n) :
    byteAt (readBytes m a n) k = readByte m (a + BitVec.ofNat 64 k).toNat := by
  induction n generalizing a k with
  | zero => omega
  | succ n ih =>
    cases k with
    | zero => simp [readBytes, byteAt]
    | succ k =>
      have e : a + 1#64 + BitVec.ofNat 64 k = a + BitVec.ofNat 64 (k + 1) := by
        rw [BitVec.add_assoc, BitVec.add_comm 1#64, ← BitVec.ofNat_add]
      have := ih (a + 1#64) k (by omega)
      rw [e] at this
      simpa [readBytes, byteAt] using this

/-- A word inside a run of bytes is the word that stands at its place in memory. -/
theorem le64_readBytes (m : Memory) (a : Word) {o n : Nat} (h : o + 8 ≤ n) :
    le64 (readBytes m a n) o = le64 (readBytes m (a + BitVec.ofNat 64 o) 8) 0 := by
  have e : ∀ k < 8, byteAt (readBytes m a n) (o + k) = byteAt (readBytes m (a + BitVec.ofNat 64 o) 8) (0 + k) := by
    intro k hk
    rw [readBytes_getD _ _ _ _ (by omega), readBytes_getD _ _ _ _ (by omega), BitVec.add_assoc, ← BitVec.ofNat_add,
      Nat.zero_add]
  have e0 := e 0 (by decide)
  rw [Nat.add_zero] at e0
  simp only [le64, e0, e 1 (by decide), e 2 (by decide), e 3 (by decide), e 4 (by decide), e 5 (by decide),
    e 6 (by decide), e 7 (by decide)]

/-- A store leaves every other byte alone. -/
theorem readByte_writeBytes_other (m : Memory) (a : Word) (bs : List Byte) (x : Nat)
    (h : ∀ k < bs.length, x ≠ (a + BitVec.ofNat 64 k).toNat) : readByte (writeBytes m a bs) x = readByte m x := by
  induction bs generalizing m a with
  | nil => rfl
  | cons b bs ih =>
    have h0 : x ≠ a.toNat := by simpa using h 0 (by simp)
    rw [writeBytes, ih, readByte_writeByte, if_neg h0]
    intro k hk
    have := h (k + 1) (by simp; omega)
    rwa [show a + 1#64 + BitVec.ofNat 64 k = a + BitVec.ofNat 64 (k + 1) by
      rw [BitVec.add_assoc, BitVec.add_comm 1#64, ← BitVec.ofNat_add]]

/-- A store puts its `k`-th byte at the `k`-th address. -/
theorem readByte_writeBytes_same (m : Memory) (a : Word) (bs : List Byte) (hl : bs.length ≤ 2 ^ 64) (k : Nat)
    (hk : k < bs.length) : readByte (writeBytes m a bs) (a + BitVec.ofNat 64 k).toNat = byteAt bs k := by
  induction bs generalizing m a k with
  | nil => simp at hk
  | cons b bs ih =>
    simp only [List.length_cons] at hl hk
    cases k with
    | zero =>
      rw [writeBytes, readByte_writeBytes_other, readByte_writeByte]
      · simp [byteAt]
      · intro j hj e
        have := BitVec.eq_of_toNat_eq e
        rw [BitVec.add_assoc, BitVec.add_comm 1#64, ← BitVec.ofNat_add] at this
        have h2 := BitVec.add_right_inj (a) |>.mp this
        have h3 := congrArg BitVec.toNat h2
        simp at h3
        omega
    | succ k =>
      have := ih (writeByte m a.toNat b) (a + 1#64) (by omega) k (by omega)
      rw [show a + 1#64 + BitVec.ofNat 64 k = a + BitVec.ofNat 64 (k + 1) by
        rw [BitVec.add_assoc, BitVec.add_comm 1#64, ← BitVec.ofNat_add]] at this
      simpa [writeBytes, byteAt] using this

/-- Reading back what was stored. -/
theorem readBytes_writeBytes (m : Memory) (a : Word) (bs : List Byte) (hl : bs.length ≤ 2 ^ 64) :
    readBytes (writeBytes m a bs) a bs.length = bs := by
  apply List.ext_getElem (by simp)
  intro k h1 h2
  have e1 := readBytes_getD (writeBytes m a bs) a bs.length k h2
  rw [readByte_writeBytes_same m a bs hl k h2] at e1
  simpa [byteAt, List.getD_eq_getElem?_getD, h1, h2] using e1

theorem Memory.wf_writeBytes {m : Memory} (h : Memory.wf m = true) (a : Word) (bs : List Byte) :
    Memory.wf (writeBytes m a bs) = true := by
  induction bs generalizing m a with
  | nil => exact h
  | cons b bs ih => exact ih (Memory.wf_writeByte h _ a.isLt b) _

theorem Memory.wf_memWriteDrop {s : State} (h : Memory.wf s.mem = true) (a : Word) (bs : List Byte) :
    Memory.wf (memWriteDrop s a bs).mem = true := by
  rw [memWriteDrop_mem]; split
  · exact h
  · exact Memory.wf_writeBytes h _ _

theorem Memory.wf_reset : Memory.wf State.reset.mem = true := by decide

/-! ### The memory port -/

/-- Everything `MemRead` can answer. -/
theorem memRead_cases (s : State) (a : Word) (n : Nat) :
    (s.readFails a n = true ∧ memRead s a n = none) ∨
    (s.readFails a n = false ∧ memRead s a n = some (readBytes s.mem a n)) := by
  unfold memRead; cases s.readFails a n <;> simp

/-- Everything `MemWrite` can answer. -/
theorem memWrite_cases (s : State) (a : Word) (bs : List Byte) :
    (s.writeFails a bs.length = true ∧ memWrite s a bs = none) ∨
    (s.writeFails a bs.length = false ∧ memWrite s a bs = some { s with mem := writeBytes s.mem a bs }) := by
  unfold memWrite; cases s.writeFails a bs.length <;> simp

theorem memRead_length {s : State} {a : Word} {n : Nat} {bs : List Byte} (h : memRead s a n = some bs) :
    bs.length = n := by
  rcases memRead_cases s a n with ⟨_, e⟩ | ⟨_, e⟩ <;> rw [e] at h
  · cases h
  · cases h; simp

/-- What `MemRead` answers depends on memory and the failing ranges alone. -/
theorem memRead_congr {s t : State} (hm : t.mem = s.mem) (hf : t.memFails = s.memFails) (a : Word) (n : Nat) :
    memRead t a n = memRead s a n := by
  simp [memRead, State.readFails, hm, hf]

end Sys2Proof.Machine
end

