-- ==== Sys2Proof/Laws/Events.lean ====
section
/-! SUPPORT. What the event log, the device-table fetch and the IOTLB insertion can do: each shared operation said once,
with the fields it leaves alone. -/

namespace Sys2Proof.Machine

/-! ### The event log (60_exceptions R301) -/

/-- Everything `logEvent` can do. -/
theorem logEvent_cases (s : State) (c : EventCode) (d : DevId) (f : BitVec 12) (a : Word) :
    (s.evtlogEnabled = false ∧ logEvent s c d f a = s) ∨
    (s.evtlogEnabled = true ∧ s.evtNext = s.evtHead ∧
      logEvent s c d f a = (s.setStatusFlag .eventOverflow true).raiseIf s.evtlogIntr) ∨
    (s.evtlogEnabled = true ∧ s.evtNext ≠ s.evtHead ∧
      logEvent s c d f a =
        (((memWriteDrop s (s.latched.evtBase + s.evtTail) (eventBytes c d f a)).setReg .evtTail s.evtNext).setStatusFlag
          .eventLogInt true).raiseIf s.evtlogIntr) := by
  unfold logEvent
  cases h : s.evtlogEnabled
  · simp
  · by_cases h2 : s.evtNext = s.evtHead <;> simp [h2]

section
variable (s : State) (c : EventCode) (d : DevId) (f : BitVec 12) (a : Word)

@[simp] theorem logEvent_cfg : (logEvent s c d f a).cfg = s.cfg := by
  rcases logEvent_cases s c d f a with ⟨_, e⟩ | ⟨_, _, e⟩ | ⟨_, _, e⟩ <;> simp [e]
@[simp] theorem logEvent_latched : (logEvent s c d f a).latched = s.latched := by
  rcases logEvent_cases s c d f a with ⟨_, e⟩ | ⟨_, _, e⟩ | ⟨_, _, e⟩ <;> simp [e]
@[simp] theorem logEvent_iotlb : (logEvent s c d f a).iotlb = s.iotlb := by
  rcases logEvent_cases s c d f a with ⟨_, e⟩ | ⟨_, _, e⟩ | ⟨_, _, e⟩ <;> simp [e]
@[simp] theorem logEvent_translated : (logEvent s c d f a).translated = s.translated := by
  rcases logEvent_cases s c d f a with ⟨_, e⟩ | ⟨_, _, e⟩ | ⟨_, _, e⟩ <;> simp [e]
@[simp] theorem logEvent_memFails : (logEvent s c d f a).memFails = s.memFails := by
  rcases logEvent_cases s c d f a with ⟨_, e⟩ | ⟨_, _, e⟩ | ⟨_, _, e⟩ <;> simp [e]
@[simp] theorem logEvent_inputs : (logEvent s c d f a).inputs = s.inputs := by
  rcases logEvent_cases s c d f a with ⟨_, e⟩ | ⟨_, _, e⟩ | ⟨_, _, e⟩ <;> simp [e]
@[simp] theorem logEvent_responses : (logEvent s c d f a).responses = s.responses := by
  rcases logEvent_cases s c d f a with ⟨_, e⟩ | ⟨_, _, e⟩ | ⟨_, _, e⟩ <;> simp [e]
@[simp] theorem logEvent_routing (x : DevId) : (logEvent s c d f a).routing x = s.routing x := by
  simp [State.routing]

/-- An event touches no register but `EVT_TAIL` and `STATUS`. -/
theorem logEvent_reg (n : RegName) (h1 : n ≠ .evtTail) (h2 : n ≠ .status) :
    (logEvent s c d f a).reg n = s.reg n := by
  rcases logEvent_cases s c d f a with ⟨_, e⟩ | ⟨_, _, e⟩ | ⟨_, _, e⟩ <;> simp [e, h1, h2]

/-- An event adds at most one interrupt to the trace. -/
theorem logEvent_trace :
    (logEvent s c d f a).trace = s.trace ∨ (logEvent s c d f a).trace = s.trace ++ [.interrupt] := by
  rcases logEvent_cases s c d f a with ⟨_, e⟩ | ⟨_, _, e⟩ | ⟨_, _, e⟩ <;> cases h : s.evtlogIntr <;> simp [e, h]

/-- An event changes no byte outside its own 16. -/
theorem logEvent_readByte (x : Nat)
    (h : ∀ k < 16, x ≠ (s.latched.evtBase + s.evtTail + BitVec.ofNat 64 k).toNat) :
    readByte (logEvent s c d f a).mem x = readByte s.mem x := by
  rcases logEvent_cases s c d f a with ⟨_, e⟩ | ⟨_, _, e⟩ | ⟨_, _, e⟩
  · rw [e]
  · rw [e]; simp
  · rw [e]
    simp only [raiseIf_mem, setStatusFlag_mem, setReg_mem, memWriteDrop_mem]
    split
    · rfl
    · exact readByte_writeBytes_other _ _ _ _ (by simpa [eventBytes] using h)

theorem Memory.wf_logEvent (h : Memory.wf s.mem = true) : Memory.wf (logEvent s c d f a).mem = true := by
  rcases logEvent_cases s c d f a with ⟨_, e⟩ | ⟨_, _, e⟩ | ⟨_, _, e⟩
  · rw [e]; exact h
  · rw [e]; simpa using h
  · rw [e]; simpa using Memory.wf_memWriteDrop h _ _
end

/-! ### The device-table fetch (40_device_table_fetch R127) -/

/-- Everything `fetchDte` can do. -/
theorem fetchDte_cases (s : State) (devid : DevId) :
    (fetchDte s devid = (.err .dteFetchError, logEvent s .devTabHwError devid 0#12 (s.dteAddr devid)) ∧
      (s.beyondDevtab devid = true ∨ memRead s (s.dteAddr devid) 32 = none)) ∨
    (∃ bs, s.beyondDevtab devid = false ∧ memRead s (s.dteAddr devid) 32 = some bs ∧
      (((dteOfBytes bs).valid = false ∧ fetchDte s devid = (.notValid (dteOfBytes bs), s)) ∨
       ((dteOfBytes bs).valid = true ∧ s.dteIllegal (dteOfBytes bs) = true ∧
          fetchDte s devid = (.err .dteIllegal, logEvent s .illegalDevTableEntry devid 0#12 (s.dteAddr devid))) ∨
       ((dteOfBytes bs).valid = true ∧ s.dteIllegal (dteOfBytes bs) = false ∧
          fetchDte s devid = (.ok (dteOfBytes bs), s)))) := by
  unfold fetchDte
  cases hb : s.beyondDevtab devid
  · cases hr : memRead s (s.dteAddr devid) 32 with
    | none => simp
    | some bs =>
      right
      refine ⟨bs, by simp, by simp, ?_⟩
      cases hv : (dteOfBytes bs).valid
      · simp [hv]
      · cases hi : s.dteIllegal (dteOfBytes bs) <;> simp [hv, hi]
  · simp

/-- The fetch leaves the state alone or logs one event. -/
theorem fetchDte_state (s : State) (devid : DevId) :
    (fetchDte s devid).2 = s ∨ ∃ c, (fetchDte s devid).2 = logEvent s c devid 0#12 (s.dteAddr devid) := by
  rcases fetchDte_cases s devid with ⟨e, _⟩ | ⟨bs, _, _, ⟨_, e⟩ | ⟨_, _, e⟩ | ⟨_, _, e⟩⟩ <;> rw [e]
  · exact .inr ⟨_, rfl⟩
  · exact .inl rfl
  · exact .inr ⟨_, rfl⟩
  · exact .inl rfl

section
variable (s : State) (devid : DevId)

@[simp] theorem fetchDte_cfg : (fetchDte s devid).2.cfg = s.cfg := by
  rcases fetchDte_state s devid with e | ⟨c, e⟩ <;> simp [e]
@[simp] theorem fetchDte_latched : (fetchDte s devid).2.latched = s.latched := by
  rcases fetchDte_state s devid with e | ⟨c, e⟩ <;> simp [e]
@[simp] theorem fetchDte_iotlb : (fetchDte s devid).2.iotlb = s.iotlb := by
  rcases fetchDte_state s devid with e | ⟨c, e⟩ <;> simp [e]
@[simp] theorem fetchDte_translated : (fetchDte s devid).2.translated = s.translated := by
  rcases fetchDte_state s devid with e | ⟨c, e⟩ <;> simp [e]
@[simp] theorem fetchDte_memFails : (fetchDte s devid).2.memFails = s.memFails := by
  rcases fetchDte_state s devid with e | ⟨c, e⟩ <;> simp [e]
@[simp] theorem fetchDte_inputs : (fetchDte s devid).2.inputs = s.inputs := by
  rcases fetchDte_state s devid with e | ⟨c, e⟩ <;> simp [e]
@[simp] theorem fetchDte_responses : (fetchDte s devid).2.responses = s.responses := by
  rcases fetchDte_state s devid with e | ⟨c, e⟩ <;> simp [e]
theorem fetchDte_reg (n : RegName) (h1 : n ≠ .evtTail) (h2 : n ≠ .status) :
    (fetchDte s devid).2.reg n = s.reg n := by
  rcases fetchDte_state s devid with e | ⟨c, e⟩ <;> rw [e]
  exact logEvent_reg _ _ _ _ _ _ h1 h2
theorem Memory.wf_fetchDte (h : Memory.wf s.mem = true) : Memory.wf (fetchDte s devid).2.mem = true := by
  rcases fetchDte_state s devid with e | ⟨c, e⟩ <;> rw [e]
  · exact h
  · exact Memory.wf_logEvent _ _ _ _ _ h
end

/-! ### The routing map (10_state R28) -/

theorem routing_setRouting (s : State) (d x : DevId) (r : Routing) :
    (s.setRouting d r).routing x = if x = d then r else s.routing x := by
  cases r
  · simp only [State.routing, State.setRouting, mem_eraseKey, BitVec.toNat_eq]
    by_cases h : x.toNat = d.toNat <;> simp [h]
  · simp only [State.routing, State.setRouting, mem_putKey, BitVec.toNat_eq]
    by_cases h : x.toNat = d.toNat <;> simp [h]

/-! ### The IOTLB (42_iotlb) -/

/-- A key names one device and one frame. -/
theorem iotlbKeyOf_inj {d d' : DevId} {g g' : Gfn} : iotlbKeyOf d g = iotlbKeyOf d' g' ↔ d = d' ∧ g = g' := by
  unfold iotlbKeyOf
  constructor
  · intro h
    have h1 := g.isLt
    have h2 := g'.isLt
    refine ⟨BitVec.eq_of_toNat_eq ?_, BitVec.eq_of_toNat_eq ?_⟩ <;> omega
  · rintro ⟨rfl, rfl⟩; rfl

theorem iotlbInsert_none (s : State) (d : DevId) (iova ta size : Word) (domid : DomId) :
    iotlbInsert s d iova ta size permsNone domid = s := by
  simp [iotlbInsert]

section
variable (s : State) (d : DevId) (iova ta size : Word) (p : Perms) (domid : DomId)

@[simp] theorem iotlbInsert_cfg : (iotlbInsert s d iova ta size p domid).cfg = s.cfg := by
  unfold iotlbInsert; split <;> dsimp only; split <;> rfl
@[simp] theorem iotlbInsert_regs : (iotlbInsert s d iova ta size p domid).regs = s.regs := by
  unfold iotlbInsert; split <;> dsimp only; split <;> rfl
@[simp] theorem iotlbInsert_latched : (iotlbInsert s d iova ta size p domid).latched = s.latched := by
  unfold iotlbInsert; split <;> dsimp only; split <;> rfl
@[simp] theorem iotlbInsert_translated : (iotlbInsert s d iova ta size p domid).translated = s.translated := by
  unfold iotlbInsert; split <;> dsimp only; split <;> rfl
@[simp] theorem iotlbInsert_mem : (iotlbInsert s d iova ta size p domid).mem = s.mem := by
  unfold iotlbInsert; split <;> dsimp only; split <;> rfl
@[simp] theorem iotlbInsert_memFails : (iotlbInsert s d iova ta size p domid).memFails = s.memFails := by
  unfold iotlbInsert; split <;> dsimp only; split <;> rfl
@[simp] theorem iotlbInsert_inputs : (iotlbInsert s d iova ta size p domid).inputs = s.inputs := by
  unfold iotlbInsert; split <;> dsimp only; split <;> rfl
@[simp] theorem iotlbInsert_responses : (iotlbInsert s d iova ta size p domid).responses = s.responses := by
  unfold iotlbInsert; split <;> dsimp only; split <;> rfl
@[simp] theorem iotlbInsert_trace : (iotlbInsert s d iova ta size p domid).trace = s.trace := by
  unfold iotlbInsert; split <;> dsimp only; split <;> rfl
@[simp] theorem iotlbInsert_reg (n : RegName) : (iotlbInsert s d iova ta size p domid).reg n = s.reg n := by
  simp [State.reg]
@[simp] theorem iotlbInsert_routing (x : DevId) : (iotlbInsert s d iova ta size p domid).routing x = s.routing x := by
  simp [State.routing]
end

end Sys2Proof.Machine
end

