-- ==== Sys2Proof/Laws/Mmio.lean ====
section
/-! SUPPORT. What a register write can do (46_mmio R266): which register an offset falls in, what the store phase leaves
alone, and that a write which triggers no drain leaves none waiting. -/

namespace Sys2Proof.Machine

/-! ### Offsets (10_state R13, R23) -/

theorem regHolding_eq_none {o : Nat} : regHolding o = none ↔ ∀ n : RegName, n.offset ≠ o / 8 * 8 := by
  simp [regHolding, List.find?_eq_none]

/-- All the bytes of an accepted access fall in one register, or all in none. -/
theorem regHolding_add {o z k : Nat} (h : mmioAccessOk o z = true) (hk : k < z) : regHolding (o + k) = regHolding o := by
  simp only [mmioAccessOk, Bool.and_eq_true, Bool.or_eq_true, beq_iff_eq] at h
  have : (o + k) / 8 = o / 8 := by
    obtain ⟨⟨((rfl | rfl) | rfl) | rfl, ha⟩, _⟩ := h <;> omega
  simp [regHolding, this]

/-! ### The store phase -/

theorem storeRegByte_none {s : State} {o : Nat} (b : Byte) (h : regHolding o = none) : storeRegByte s o b = s := by
  simp [storeRegByte, h]

/-- A byte's store sets at most the register the byte falls in. -/
theorem storeRegByte_cases (s : State) (o : Nat) (b : Byte) :
    (regHolding o = none ∧ storeRegByte s o b = s) ∨
    ∃ n v, regHolding o = some n ∧ storeRegByte s o b = s.setReg n v := by
  cases h : regHolding o with
  | none => exact .inl ⟨rfl, storeRegByte_none b h⟩
  | some n => exact .inr ⟨n, _, rfl, by simp only [storeRegByte, h]; rfl⟩

theorem storeRegByte_reg_other {s : State} {o : Nat} {n : RegName} (b : Byte) (h : regHolding o ≠ some n) :
    (storeRegByte s o b).reg n = s.reg n := by
  rcases storeRegByte_cases s o b with ⟨_, e⟩ | ⟨m, v, hm, e⟩
  · rw [e]
  · rw [e, setReg_reg, if_neg (by rintro rfl; exact h hm)]

/-- A store phase that falls in no register changes nothing. -/
theorem storeRegBytes_outside (bs : List Byte) : ∀ (s : State) (o : Nat),
    (∀ k < bs.length, regHolding (o + k) = none) → storeRegBytes s o bs = s := by
  induction bs with
  | nil => intros; rfl
  | cons b bs ih =>
    intro s o h
    rw [storeRegBytes, storeRegByte_none b (by simpa using h 0 (by simp))]
    exact ih s (o + 1) fun k hk => by rw [Nat.add_assoc, Nat.add_comm 1]; exact h (k + 1) (by simpa using hk)

/-- A store phase leaves the registers that it does not fall in. -/
theorem storeRegBytes_reg_other {n : RegName} (bs : List Byte) : ∀ (s : State) (o : Nat),
    (∀ k < bs.length, regHolding (o + k) ≠ some n) → (storeRegBytes s o bs).reg n = s.reg n := by
  induction bs with
  | nil => intros; rfl
  | cons b bs ih =>
    intro s o h
    rw [storeRegBytes, ih _ _ fun k hk => by rw [Nat.add_assoc, Nat.add_comm 1]; exact h (k + 1) (by simpa using hk)]
    exact storeRegByte_reg_other b (h 0 (by simp))

/-- A store phase changes registers only. -/
theorem storeRegBytes_frame (bs : List Byte) : ∀ (s : State) (o : Nat),
    storeRegBytes s o bs = { s with regs := (storeRegBytes s o bs).regs } := by
  induction bs with
  | nil => intros; rfl
  | cons b bs ih =>
    intro s o
    rw [storeRegBytes, ih]
    rcases storeRegByte_cases s o b with ⟨_, e⟩ | ⟨m, v, _, e⟩
    · rw [e]
    · rw [e]; rfl

section
variable (s : State) (o : Nat) (bs : List Byte)

@[simp] theorem storeRegBytes_cfg : (storeRegBytes s o bs).cfg = s.cfg := by rw [storeRegBytes_frame]
@[simp] theorem storeRegBytes_latched : (storeRegBytes s o bs).latched = s.latched := by rw [storeRegBytes_frame]
@[simp] theorem storeRegBytes_iotlb : (storeRegBytes s o bs).iotlb = s.iotlb := by rw [storeRegBytes_frame]
@[simp] theorem storeRegBytes_translated : (storeRegBytes s o bs).translated = s.translated := by rw [storeRegBytes_frame]
@[simp] theorem storeRegBytes_mem : (storeRegBytes s o bs).mem = s.mem := by rw [storeRegBytes_frame]
@[simp] theorem storeRegBytes_memFails : (storeRegBytes s o bs).memFails = s.memFails := by rw [storeRegBytes_frame]
@[simp] theorem storeRegBytes_inputs : (storeRegBytes s o bs).inputs = s.inputs := by rw [storeRegBytes_frame]
@[simp] theorem storeRegBytes_responses : (storeRegBytes s o bs).responses = s.responses := by rw [storeRegBytes_frame]
@[simp] theorem storeRegBytes_trace : (storeRegBytes s o bs).trace = s.trace := by rw [storeRegBytes_frame]
end

/-! ### The trigger and the drain -/

/-- A trigger changes registers and latched values only (46_mmio R270 to R279). -/
theorem triggerReg_frame (s : State) (n : RegName) (hi : Bool) :
    triggerReg s n hi = { s with regs := (triggerReg s n hi).regs, latched := (triggerReg s n hi).latched } := by
  cases n <;> cases hi <;> rfl

/-- A register write up to its drain changes registers and latched values only. -/
theorem mmioWriteStore_frame (s : State) (o z : Nat) (v : Word) :
    mmioWriteStore s o z v =
      { s with regs := (mmioWriteStore s o z v).regs, latched := (mmioWriteStore s o z v).latched } := by
  unfold mmioWriteStore
  split
  · dsimp only; split
    · rw [triggerReg_frame, storeRegBytes_frame]
    · rw [storeRegBytes_frame]
  · rfl

/-- A drain with no command waiting does nothing (44_commands R201). -/
theorem drain_idle {s : State} (h : s.drainPending = false) : drain s = .next s := by
  simp [drain, maxRingSlots, drainRounds, h]

/-- Whether commands wait is read from three registers. -/
theorem drainPending_congr {s t : State} (h1 : t.reg .control = s.reg .control) (h2 : t.reg .cmdHead = s.reg .cmdHead)
    (h3 : t.reg .cmdTail = s.reg .cmdTail) : t.drainPending = s.drainPending := by
  simp [State.drainPending, State.cmdbufEnabled, State.enabled, State.controlFlag, State.cmdHead, State.cmdTail, h1, h2, h3]

/-- A write that runs no drain leaves no command waiting where none did (46_mmio R271 to R273, R277, R278). -/
theorem mmioWriteStore_idle {s : State} {o z : Nat} (v : Word) (h : s.drainPending = false)
    (hd : mmioWriteDrains o z = false) : (mmioWriteStore s o z v).drainPending = false := by
  unfold mmioWriteStore
  split
  · rename_i ha
    have other : ∀ n : RegName, regHolding o ≠ some n → (storeRegBytes s o (lowBytes v z)).reg n = s.reg n :=
      fun n hn => storeRegBytes_reg_other _ _ _ fun k hk => by rwa [regHolding_add ha (by simpa using hk)]
    have idle : ∀ t : State, t.reg .control = s.reg .control → t.reg .cmdHead = s.reg .cmdHead →
        t.reg .cmdTail = s.reg .cmdTail → t.drainPending = false := fun t h1 h2 h3 => by
      rw [drainPending_congr h1 h2 h3, h]
    cases hr : regHolding o with
    | none => exact idle _ (other _ (by simp [hr])) (other _ (by simp [hr])) (other _ (by simp [hr]))
    | some n =>
      have hn : n.drains = false := by simpa [mmioWriteDrains, ha, hr] using hd
      rw [hr] at other
      cases n <;> simp only [RegName.drains, reduceCtorEq] at hn <;> simp only [triggerReg] <;> (try split) <;>
        first
        | exact idle _ (other _ (by simp)) (other _ (by simp)) (other _ (by simp))
        | (simp [triggerCmdBase, State.drainPending, State.cmdHead, State.cmdTail]; done)
        | (apply idle <;> rw [← other _ (by simp)] <;> simp [reducePointer, triggerEvtBase, State.reg])
  · exact h

end Sys2Proof.Machine
end

