-- ==== Sys2Proof/Laws/PerInstr.lean ====
section
/-! SUPPORT. Statements made per command: each is about the command as syntax. -/

namespace Sys2Proof.Laws

/-- The opcode of each command (30_encoding R90). -/
def opcodeNumber : Instr → BitVec 4
  | .completionWait _ _ _ _ _ => 1#4
  | .invalidateDevtabEntry _ => 2#4
  | .invalidateIommuPages _ _ _ => 3#4
  | .invalidateIotlbPages _ _ _ => 4#4
  | .invalidateInterruptTable _ => 5#4
  | .prefetchIommuPages _ => 6#4
  | .completePprRequest _ => 7#4
  | .invalidateIommuAll => 8#4

namespace EncodeOpcode

/-- A well-formed command is written as 16 bytes (30_encoding R89, R105) whose word `q0` carries the opcode of R90. -/
def Statement (i : Instr) : Prop :=
  (encode i).length = 16 ∧ (i.wf = true → opcodeOf (encodeWords i).1 = opcodeNumber i)

theorem length_encode (i : Instr) : (encode i).length = 16 := by simp [encode, wordBytes, lowBytes]

/-- Bits outside a field are 0 in an operand that fits it. -/
theorem getLsbD_of_inField {field v : Word} (h : inField field v = true) {k : Nat} (hk : k < 64)
    (hf : field.getLsbD k = false) : v.getLsbD k = false := by
  have h1 : v &&& ~~~field = 0#64 := by simpa [inField] using h
  have h2 : (v &&& ~~~field).getLsbD k = false := by rw [h1]; simp
  simp only [BitVec.getLsbD_and, BitVec.getLsbD_not, hk, hf] at h2
  simpa using h2

/-- What the low bits hold does not change the opcode. -/
theorem opcodeOf_or (c v : Word) (h : ∀ j < 4, v.getLsbD (60 + j) = false) : opcodeOf (c ||| v) = opcodeOf c := by
  apply BitVec.eq_of_getLsbD_eq
  intro j hj
  simp [opcodeOf, hj, h j hj]

theorem opcodeOf_or_devid (c : Word) (devid : DevId) : opcodeOf (c ||| devid.setWidth 64) = opcodeOf c :=
  opcodeOf_or c _ fun j _ => by rw [BitVec.getLsbD_setWidth, BitVec.getLsbD_of_ge _ _ (by omega)]; simp

theorem completionWait (s i f : Bool) (addr data : Word) : Statement (.completionWait s i f addr data) := by
  refine ⟨length_encode _, fun h => ?_⟩
  have haddr : ∀ j < 4, addr.getLsbD (60 + j) = false := fun j hj => by
    refine getLsbD_of_inField h (by omega) ?_
    obtain rfl | rfl | rfl | rfl : j = 0 ∨ j = 1 ∨ j = 2 ∨ j = 3 := by omega
    all_goals rfl
  have hflag (b : Bool) (k : Nat) (hk : k ≤ 2) : ∀ j < 4, (flagWord b <<< k).getLsbD (60 + j) = false := fun j _ => by
    rw [BitVec.getLsbD_shiftLeft, flagWord, BitVec.getLsbD_setWidth, BitVec.getLsbD_of_ge _ _ (by omega)]
    simp
  have h0 := hflag s 0 (by omega)
  rw [BitVec.shiftLeft_zero] at h0
  simp only [encodeWords]
  rw [opcodeOf_or _ _ (hflag f 2 (by omega)), opcodeOf_or _ _ (hflag i 1 (by omega)), opcodeOf_or _ _ h0,
    opcodeOf_or _ _ haddr]
  rfl

theorem invalidateDevtabEntry (devid : DevId) : Statement (.invalidateDevtabEntry devid) :=
  ⟨length_encode _, fun _ => opcodeOf_or_devid _ devid⟩

theorem invalidateIommuPages (domid : DomId) (sizeFlag : Bool) (address : Word) :
    Statement (.invalidateIommuPages domid sizeFlag address) :=
  ⟨length_encode _, fun _ => opcodeOf_or _ _ fun j _ => by
    rw [BitVec.getLsbD_shiftLeft, BitVec.getLsbD_setWidth, BitVec.getLsbD_of_ge _ _ (by omega)]; simp⟩

theorem invalidateIotlbPages (devid : DevId) (sizeFlag : Bool) (address : Word) :
    Statement (.invalidateIotlbPages devid sizeFlag address) :=
  ⟨length_encode _, fun _ => opcodeOf_or_devid _ devid⟩

theorem invalidateInterruptTable (devid : DevId) : Statement (.invalidateInterruptTable devid) :=
  ⟨length_encode _, fun _ => opcodeOf_or_devid _ devid⟩

theorem prefetchIommuPages (devid : DevId) : Statement (.prefetchIommuPages devid) :=
  ⟨length_encode _, fun _ => opcodeOf_or_devid _ devid⟩

theorem completePprRequest (devid : DevId) : Statement (.completePprRequest devid) :=
  ⟨length_encode _, fun _ => opcodeOf_or_devid _ devid⟩

theorem invalidateIommuAll : Statement .invalidateIommuAll := ⟨length_encode _, fun _ => rfl⟩

end EncodeOpcode

end Sys2Proof.Laws
end

