-- ==== Sys2Proof/Tests/Slice0.lean ====
section
/-! SUPPORT. Tests of single operations, their expected results from spec/95_test_vectors.md and the worked examples of
the rules, and one witness for every hypothesis of a statement of Obligations.lean. -/

namespace Sys2Proof.Tests

-- One kernel check at a time: many waiting ones would each hold a thread.
set_option Elab.async false

open Sys2Proof Sys2Proof.Machine

/-! ### Well-formedness: each check refuses an ill-formed term -/

theorem test_wf_refuses_storeAddr : (Instr.completionWait true false false 0x1004#64 0#64).wf = false := by decide
theorem test_wf_refuses_domain_address : (Instr.invalidateIommuPages 7#16 true 0x5800#64).wf = false := by decide
theorem test_wf_refuses_device_address : (Instr.invalidateIotlbPages 7#16 false 0x5001#64).wf = false := by decide
theorem test_wf_accepts : (Instr.completionWait true true true 0x000F_FFFF_FFFF_FFF8#64 0#64).wf = true ∧
    (Instr.invalidateIommuPages 7#16 true 0xFFFF_FFFF_FFFF_F000#64).wf = true ∧
    (Instr.invalidateIotlbPages 7#16 true 0xFFFF_FFFF_FFFF_F000#64).wf = true := by decide

/-! ### Decoding: words written out from 30_encoding R89 to R98, and 95_test_vectors C1 to C19 -/

/-- The outcome of a decoding without the reason of a rejection. -/
def accepted (q0 q1 : Word) : Option Instr :=
  match decodeWords q0 q1 with
  | .ok i => some i
  | .error _ => none

/-- The bytes of R210's example, in ring order. -/
theorem test_decode_bytes : decodeTableWord 128 0x0000_0000_0000_0001_1000_0000_0040_0003 =
    some (.completionWait true true false 0x40_0000#64 1#64) := by decide +kernel
/-- R91: opcode 0001, reserved 52 to 59 zero, address bits 51 to 3, then f, i, s. -/
theorem test_decode_completionWait : accepted
    (0b0001#4 ++ 0#8 ++ 0x1_0000_0000_0001#49 ++ 1#1 ++ 0#1 ++ 1#1) 0xCAFE#64 =
    some (.completionWait true false true 0x0008_0000_0000_0008#64 0xCAFE#64) := by decide
/-- R92: opcode 0010, reserved 16 to 59 zero, device id. -/
theorem test_decode_devtabEntry : accepted (0b0010#4 ++ 0#44 ++ 0x8001#16) 0#64 =
    some (.invalidateDevtabEntry 0x8001#16) := by decide
/-- R93: opcode 0011, reserved, domain id in 47 to 32, reserved, ignored; address, reserved, ignored, S. -/
theorem test_decode_iommuPages : accepted (0b0011#4 ++ 0#12 ++ 0x8007#16 ++ 0#12 ++ 0xABCDE#20)
    (0x8000_0000_0000_5#52 ++ 0#9 ++ 0b11#2 ++ 1#1) =
    some (.invalidateIommuPages 0x8007#16 true 0x8000_0000_0000_5000#64) := by decide
/-- R94: opcode 0100, ignored 16 to 59, device id; address, reserved, ignored 5:4, reserved 3, ignored 2, reserved 1, S. -/
theorem test_decode_iotlbPages : accepted (0b0100#4 ++ 0xFFFF_FFFF_FFF#44 ++ 0x0010#16)
    (0x0000_0000_0000_5#52 ++ 0#6 ++ 0b11#2 ++ 0#1 ++ 1#1 ++ 0#1 ++ 0#1) =
    some (.invalidateIotlbPages 0x10#16 false 0x5000#64) := by decide
/-- R95: opcode 0101, reserved, device id. -/
theorem test_decode_interruptTable : accepted (0b0101#4 ++ 0#44 ++ 0x0010#16) 0#64 =
    some (.invalidateInterruptTable 0x10#16) := by decide
/-- R96: opcode 0110, reserved 52 to 59, ignored 24 to 51, reserved 16 to 23, device id. -/
theorem test_decode_prefetch : accepted (0b0110#4 ++ 0#8 ++ 0xFFF_FFFF#28 ++ 0#8 ++ 0x0010#16)
    (0xFFFF_FFFF_FFFF_F#52 ++ 0#7 ++ 1#1 ++ 0#1 ++ 1#1 ++ 0#1 ++ 1#1) =
    some (.prefetchIommuPages 0x10#16) := by decide
/-- R97: opcode 0111, reserved 52 to 59, ignored 32 to 51, reserved 16 to 31, device id. -/
theorem test_decode_ppr : accepted (0b0111#4 ++ 0#8 ++ 0xF_FFFF#20 ++ 0#16 ++ 0x0010#16)
    (0xFFFF_FFFF#32 ++ 0#29 ++ 1#1 ++ 0#2) = some (.completePprRequest 0x10#16) := by decide
/-- R98: opcode 1000, everything else zero. -/
theorem test_decode_iommuAll : accepted (0b1000#4 ++ 0#60) 0#64 = some .invalidateIommuAll := by decide
/-- C4, C5b, C11, C11b, C13b, C17b: a reserved bit set. -/
theorem test_decode_reserved :
    accepted 0x1010_0000_0040_0001#64 1#64 = none ∧ accepted 0x2000_0000_0000_0010#64 1#64 = none ∧
    accepted 0x3000_0007_0010_0000#64 0#64 = none ∧ accepted 0x3000_0007_0000_0000#64 0x5008#64 = none ∧
    accepted 0x4000_0000_0000_0010#64 2#64 = none ∧ accepted 0x8000_0000_0000_0001#64 0#64 = none := by decide
/-- C18, C19: an unrecognised opcode. -/
theorem test_decode_unrecognised : accepted 0#64 0#64 = none ∧
    ∀ k : Fin 7, accepted (BitVec.ofNat 64 (9 + k.val) <<< 60) 0#64 = none := by decide
/-- An encoding with every ignored bit 0 (R93). -/
theorem test_encode : encodeWords (.invalidateIommuPages 7#16 true 0x7FFF_FFFF_FFFF_F000#64) =
    (0x3000_0007_0000_0000#64, 0x7FFF_FFFF_FFFF_F001#64) := by decide

/-! ### Small states -/

/-- Memory that holds the given words. -/
def words (l : List (Word × Word)) : Memory := l.foldl (fun m c => writeBytes m c.1 (wordBytes c.2)) []

/-- The unit set up as in 95_test_vectors, section 2: tables at 0x20_0000, rings of 64 bytes at 0x30_0000 and 0x38_0000,
everything enabled but GA mode, device 0x10 translated. -/
def unit (l : List (Word × Word)) : State :=
  { State.reset with
    regs := { Regs.reset with control := 0x101D#64, status := 0x18#64 }
    latched := { Latched.reset with
      devtabBase := 0x20_0000#64, cmdBase := 0x30_0000#64, cmdBytes := 64#64, evtBase := 0x38_0000#64, evtBytes := 64#64 }
    translated := [0x10#16]
    mem := words l }

/-- `unit` with one command queued at the head. -/
def queued (q0 q1 : Word) : State := (unit [(0x30_0000#64, q0), (0x30_0008#64, q1)]).setReg .cmdTail 0x10#64

/-- Reads and writes fail on the eight bytes from an address. -/
def failing (a : Word) (s : State) : State :=
  { s with memFails := [{ first := a, last := a + 7#64, failsRead := true, failsWrite := true }] }

/-- The next state, or the reset state where there is none. -/
def next : Host.Outcome State Fault Refusal → State
  | .next s => s
  | _ => State.reset

/-- The event in the log's first slot, with `EVT_TAIL` and `STATUS`. -/
def firstEvent (s : State) : Word × Word × Word × Word :=
  (le64 (readBytes s.mem 0x38_0000#64 8) 0, le64 (readBytes s.mem 0x38_0008#64 8) 0, s.reg .evtTail, s.reg .status)

/-- The device-table entry of R148 and R193 for device 0x10, with its page tables. -/
def table : List (Word × Word) :=
  [(0x20_0200#64, 0x6000_0000_0010_0603#64), (0x20_0208#64, 7#64), (0x10_0240#64, 0x6000_0000_0010_1401#64),
   (0x10_1D10#64, 0x6000_0000_0010_2201#64), (0x10_2B38#64, 0x2000_0000_7654_3001#64)]

/-- The IOVA of R148. -/
def iova : Word := 0x12_3456_7ABC#64

/-- A cached entry of device `d` and frame 5, in domain `dom`. -/
def cached (d : DevId) (dom : DomId) : IotlbEntry :=
  { devid := d, gfn := 5#52, domid := dom, perms := 1#2, translatedAddr := 0x4000_0000#64, pageMask := 0x7FFF#64 }

/-- `unit` with three cached entries, devices 0x10 (twice domain 7) and 0x20 (domain 9). -/
def withEntries : State :=
  { unit [] with iotlb := [cached 0x10#16 7#16, { cached 0x10#16 7#16 with gfn := 6#52 }, cached 0x20#16 9#16] }

/-! ### The commands, through one step from the ring -/

/-- C1: the bytes, their order, the head. -/
theorem test_completionWait_store :
    let t := next (step (queued 0x1000_0000_0040_0001#64 0xCAFE_F00D_DEAD_BEEF#64))
    readBytes t.mem 0x40_0000#64 8 = [0xEF#8, 0xBE#8, 0xAD#8, 0xDE#8, 0x0D#8, 0xF0#8, 0xFE#8, 0xCA#8] ∧
    t.reg .cmdHead = 0x10#64 ∧ t.reg .status = 0x18#64 ∧ t.trace = [] := by decide +kernel
/-- C2: the status bit and the interrupt. -/
theorem test_completionWait_interrupt :
    let t := next (step (queued 0x1000_0000_0000_0002#64 0#64))
    t.reg .status = 0x1C#64 ∧ t.trace = [.interrupt] := by decide +kernel
/-- R212 on an illegal entry (F6): isolated, and the event of R130. -/
theorem test_devtabEntry_isolates :
    let s := unit [(0x30_0000#64, 0x2000_0000_0000_0008#64), (0x20_0100#64, 0x0080_0000_0000_0001#64)]
    let t := next (step (s.setReg .cmdTail 0x10#64))
    t.routing 8#16 = .translated ∧ firstEvent t = (0x1000_0000_0000_0008#64, 0x20_0100#64, 0x10#64, 0x1A#64) ∧
    t.trace = [.interrupt, .syncDevice 8#16 .translated] := by decide +kernel
/-- R212 on an entry with V = 0: pass-through. -/
theorem test_devtabEntry_passThrough :
    let t := next (step (queued 0x2000_0000_0000_0010#64 0#64))
    t.routing 0x10#16 = .passThrough ∧ t.trace = [.syncDevice 0x10#16 .passThrough] := by decide +kernel
/-- C6 and S8: the domain goes, the other stays. -/
theorem test_iommuPages :
    let t := next (exec (.invalidateIommuPages 7#16 true 0x7FFF_FFFF_FFFF_F000#64) withEntries)
    t.iotlb = [cached 0x20#16 9#16] ∧ t.trace = [.syncDomain 7#16 0#64 .all] := by decide +kernel
/-- C7 to C10, C6b: the coded ranges. -/
theorem test_decodeRange : decodeRange false 0x5000#64 = (0x5000#64, .bytes 0x1000#64) ∧
    decodeRange true 0x4000#64 = (0x4000#64, .bytes 0x2000#64) ∧ decodeRange true 0x5000#64 = (0x4000#64, .bytes 0x4000#64) ∧
    decodeRange true 0x3000#64 = (0#64, .bytes 0x8000#64) ∧ decodeRange true 0xFFFF_FFFF_FFFF_F000#64 = (0#64, .all) := by
  decide +kernel
/-- C12: one key. -/
theorem test_iotlbPages_page :
    (next (exec (.invalidateIotlbPages 0x10#16 false 0x5000#64) withEntries)).iotlb =
    [{ cached 0x10#16 7#16 with gfn := 6#52 }, cached 0x20#16 9#16] := by decide +kernel
/-- C13: the device. -/
theorem test_iotlbPages_device :
    (next (exec (.invalidateIotlbPages 0x10#16 true 0#64) withEntries)).iotlb = [cached 0x20#16 9#16] := by decide +kernel
/-- C14, C15, C16: only the head moves. -/
theorem test_hints :
    ∀ q0 ∈ [0x5000_0000_0000_0010#64, 0x6000_0000_0000_0010#64, 0x7000_0000_0000_0010#64],
      step (queued q0 0#64) = .next ((queued q0 0#64).setReg .cmdHead 0x10#64) := by
  intro q0 h
  simp only [List.mem_cons, List.not_mem_nil, or_false] at h
  rcases h with rfl | rfl | rfl <;> rfl
/-- C17: empty, and the output. -/
theorem test_iommuAll : (next (exec .invalidateIommuAll withEntries)).iotlb = [] ∧
    (next (exec .invalidateIommuAll withEntries)).trace = [.resyncAll] := by decide +kernel
/-- C18: the event of an illegal command. -/
theorem test_illegalCommand : firstEvent (next (step (queued 0#64 0#64))) =
    (0x5000_0000_0000_0000#64, 0x30_0000#64, 0x10#64, 0x1A#64) := by decide +kernel
/-- C20: the event of an unreadable slot. -/
theorem test_unreadableCommand : firstEvent (next (step (failing 0x30_0008#64 (queued 0#64 0#64)))) =
    (0x6000_0000_0000_0000#64, 0x30_0000#64, 0x10#64, 0x1A#64) := by decide +kernel
/-- The instruction that `withFetchWord` places is the first that runs after reset. -/
theorem test_withFetchWord : (next (step (State.reset.withFetchWord 128 0x8000_0000_0000_0000))).trace = [.resyncAll] := by
  decide +kernel

/-! ### The port operations -/

/-- W11 and W9c: the walk of R148, and the leaf that has no permission. -/
theorem test_walk : walk (unit table) { q0 := 0x6000_0000_0010_0603#64, q1 := 7#64, q2 := 0#64, q3 := 0#64 } iova =
      .ok 0x7654_3000#64 4096#64 1#2 ∧
    walk (unit (table ++ [(0x10_2B38#64, 0x7654_3001#64)]))
      { q0 := 0x6000_0000_0010_0603#64, q1 := 7#64, q2 := 0#64, q3 := 0#64 } iova = .noMapping 4096 := by decide +kernel
/-- W12: the first page of a 32 KiB run (R149). -/
theorem test_walk_large : walk (unit [(0x10_0028#64, 0x6000_0000_4000_3E01#64)])
    { q0 := 0x6000_0000_0010_0203#64, q1 := 0#64, q2 := 0#64, q3 := 0#64 } 0x5ABC#64 =
    .ok 0x4000_0000#64 0x8000#64 3#2 := by decide +kernel
/-- T6: the response and the cached entry. -/
theorem test_translate : dmaTranslate (unit table) 0x10#16 iova .read =
    (.ok 0x12_3456_7000#64 0x7654_3000#64 0xFFF#64 1#2,
      { unit table with iotlb := [{ devid := 0x10#16, gfn := 0x1234567#52, domid := 7#16, perms := 1#2,
                                    translatedAddr := 0x7654_3000#64, pageMask := 0xFFF#64 }] }) := by decide +kernel
/-- T9: cached, then denied, with the event of a write to a read-only page. -/
theorem test_translate_denied : (dmaTranslate (unit table) 0x10#16 iova .write).1 = .denied ∧
    firstEvent (dmaTranslate (unit table) 0x10#16 iova .write).2 =
    (0x2030_0000_0000_0010#64, 0x12_3456_7ABC#64, 0x10#64, 0x1A#64) := by decide +kernel
/-- T13: an unreadable page-table entry. -/
theorem test_translate_abort : (dmaTranslate (failing 0x10_2B38#64 (unit table)) 0x10#16 iova .read).1 = .targetAbort ∧
    firstEvent (dmaTranslate (failing 0x10_2B38#64 (unit table)) 0x10#16 iova .read).2 =
    (0x4000_0000_0000_0010#64, 0x10_2B38#64, 0x10#64, 0x1A#64) := by decide +kernel
/-- The device-table entry of R253, its table in both formats (P3). -/
def irqTable : List (Word × Word) :=
  [(0x20_0200#64, 1#64), (0x20_0210#64, 0x0400_0000_0050_0001#64), (0x50_0094#64, 0x0041_0301#64),
   (0x50_0128#64, 0x0100_0051_0001_0245#64)]
/-- P3 steps 3 and 7: the legacy and the GA entry. -/
theorem test_remap : (remapInterrupt (unit irqTable) 0x10#16 { address := 0xFEE0_0000#64, data := 0x25#32 }).1 =
      .resolved { dest := 3#32, vector := 0x41#8, deliveryMode := 0#3, destMode := false, redirHint := false } ∧
    (remapInterrupt ((unit irqTable).setReg .control 0x2_0001#64) 0x10#16
      { address := 0xFEE0_0000#64, data := 0x25#32 }).1 =
      .resolved { dest := 0x0100_0102#32, vector := 0x51#8, deliveryMode := 1#3, destMode := true, redirHint := false } := by
  decide +kernel
/-- P3 steps 4 and 5: the pass bits. -/
theorem test_remap_pass :
    (remapInterrupt (unit irqTable) 0x10#16 { address := 0#64, data := 0x400#32 }).1 =
      .passed { address := 0#64, data := 0x400#32 } ∧
    (remapInterrupt (unit irqTable) 0x10#16 { address := 0#64, data := 0x500#32 }).1 = .err .intPassDisabled := by
  decide +kernel
/-- R282: the split write of `CMD_BASE`, then `CONTROL`, read back. -/
theorem test_mmio_split :
    let s := mmioWriteStore State.reset 0x0008 4 0x0030_0000#64
    let t := mmioWriteStore s 0x000C 4 0x0800_0000#64
    s.latched.cmdBase = 0#64 ∧ mmioRead s 0x0008 8 = 0x0030_0000 ∧ t.latched.cmdBase = 0x30_0000#64 ∧
    t.latched.cmdBytes = 4096#64 ∧ mmioRead (mmioWriteStore t 0x0018 8 0x1001#64) 0x2020 8 = 0x10 := by decide +kernel
/-- M5: the write-one-to-clear bits; M6: refused reads. -/
theorem test_mmio_status :
    let s := State.reset.setReg .status 0x1B#64
    (mmioWriteStore s 0x2020 8 0x1#64).reg .status = 0x1A#64 ∧ (mmioWriteStore s 0x2020 1 0xFF#64).reg .status = 0x18#64 ∧
    mmioRead s 0x2021 2 = 0xFFFF ∧ mmioRead s 0x3FFC 8 = 0xFFFF_FFFF_FFFF_FFFF ∧ mmioRead s 0x4000 1 = 0xFF := by
  decide +kernel
/-- E2 and E3: the wrap of the tail, and a full log. -/
theorem test_logEvent :
    let s := (unit []).setReg .evtTail 0x30#64
    (logEvent (s.setReg .evtHead 0x10#64) .ioPageFault 0x10#16 0#12 0#64).reg .evtTail = 0#64 ∧
    (logEvent s .ioPageFault 0x10#16 0#12 0#64) = (s.setReg .status 0x19#64).emit .interrupt := by decide +kernel
/-- R302's bytes. -/
theorem test_eventBytes : eventBytes .ioPageFault 0x0010#16 0x030#12 0x12_3456_7000#64 =
    [0x10#8, 0#8, 0#8, 0#8, 0#8, 0#8, 0x30#8, 0x20#8, 0x00#8, 0x70#8, 0x56#8, 0x34#8, 0x12#8, 0#8, 0#8, 0#8] := by
  decide +kernel

/-! ### Witnesses: states and operands that meet the hypotheses of each statement that has some -/

theorem test_witness_DecodeEncodeEveryCommand :
    (Instr.completionWait true false true 0x000F_FFFF_FFFF_FFF8#64 0xFFFF_FFFF_FFFF_FFFF#64).wf = true := by decide
theorem test_witness_DecodedCommandReencodes :
    decodeWords 0x3000_0007_000F_FFFF#64 0x5007#64 = .ok (.invalidateIommuPages 7#16 true 0x5000#64) := rfl
theorem test_witness_RejectedExactlyTheIllegalWords : illegalByFields 0x1010_0000_0040_0001#64 1#64 ∧
    ¬ illegalByFields 0x1000_0000_0040_0001#64 1#64 :=
  ⟨show (_ : BitVec 8) ≠ _ by decide, show ¬ (_ : BitVec 8) ≠ _ by decide⟩
theorem test_witness_IgnoredBitsAreNotRead :
    let q := 0x3000_0007_0000_0000#64
    let q' := 0x3000_0007_000F_FFFF#64
    opcodeOf q = opcodeOf q' ∧ q &&& ~~~(ignoredBits (opcodeOf q)).1 = q' &&& ~~~(ignoredBits (opcodeOf q)).1 ∧
    0x5001#64 &&& ~~~(ignoredBits (opcodeOf q)).2 = 0x5007#64 &&& ~~~(ignoredBits (opcodeOf q)).2 := by decide

/-- A command queued at the head, fetched and decoded. -/
theorem test_witness_StepRunsTheDecodedCommand :
    let s := queued 0x8000_0000_0000_0000#64 0#64
    s.drainPending = true ∧ fetchCommand s = some (encode .invalidateIommuAll) ∧
    decodeTableWord 128 0x8000_0000_0000_0000 = some .invalidateIommuAll := by decide +kernel
theorem test_witness_StepRunsTheDecodedCommand_decode : decode (encode .invalidateIommuAll) = .ok .invalidateIommuAll := rfl
/-- The head in the last slot, the tail in slot 1. -/
theorem test_witness_EveryRoundAdvancesTheHead :
    let s := (queued 0#64 0#64).setReg .cmdHead 0x30#64
    s.drainPending = true ∧ s.cmdHead + 16#64 = s.latched.cmdBytes := by decide +kernel
theorem test_witness_UnreadableCommandIsSkipped :
    let s := failing 0x30_000F#64 (queued 0#64 0#64)
    s.drainPending = true ∧ s.readFails s.cmdAddr 16 = true := by decide +kernel
theorem test_witness_IllegalCommandIsSkipped :
    let s := queued 0x2000_0000_0000_0010#64 1#64
    s.drainPending = true ∧ s.readFails s.cmdAddr 16 = false ∧
    le64 (readBytes s.mem s.cmdAddr 16) 0 = 0x2000_0000_0000_0010#64 ∧ le64 (readBytes s.mem s.cmdAddr 16) 8 = 1#64 := by
  decide +kernel
theorem test_witness_IllegalCommandIsSkipped_fields : illegalByFields 0x2000_0000_0000_0010#64 1#64 :=
  show (_ : BitVec 44) ≠ _ ∨ 1#64 ≠ 0#64 by decide
/-- No request, and each kind of request first in the queue with another one behind it; a host store round the end of the
address space, and a write of the last byte of a pointer that drains. -/
theorem test_witness_StepServesTheNextRequest : (unit []).drainPending = false ∧ (unit []).inputs = [] ∧
    ∀ r ∈ [Request.translate 0x10#16 iova .write, .remapInterrupt 0x10#16 { address := 0#64, data := 0#32 },
        .mmioRead 0x2020 8, .mmioWrite 0x200F 1 0#64, .hostStore 0xFFFF_FFFF_FFFF_FFFF#64 [1#8, 2#8],
        .hostLoad 0xFFFF_FFFF_FFFF_FFFF#64 2, .setMemFails []],
      ({ unit [] with inputs := [r, .reset] } : State).drainPending = false ∧
      ({ unit [] with inputs := [r, .reset] } : State).inputs = r :: [.reset] := by decide +kernel
/-- Three commands waiting in a ring of four slots, round its end: as many as a drain can make. -/
theorem test_witness_DrainReachesTheTail :
    let s := ((unit []).setReg .cmdHead 0x30#64).setReg .cmdTail 0x20#64
    s.good = true ∧ s.cmdbufEnabled = true ∧ roundsToTail s = 3 := by decide +kernel
theorem test_witness_WriteAndDrainAreOneTransition :
    let s := { unit [] with inputs := [.mmioWrite 0x2008 8 0x30#64, .reset] }
    s.good = true ∧ s.quiescent = true ∧ s.inputs = [.mmioWrite 0x2008 8 0x30#64, .reset] := by decide +kernel
theorem test_witness_ResetGivesTheResetState : nextRequest { unit [] with inputs := [.reset] } .reset :=
  ⟨by decide +kernel, [], rfl⟩
theorem test_witness_AfterResetEverythingPasses :
    ({ State.reset with mem := words table } : State).regs = State.reset.regs ∧ acceptedAccess 0x3FF8 8 ∧
    ({ State.reset with mem := words table } : State).inputs = [] := by
  refine ⟨rfl, ?_, rfl⟩; unfold acceptedAccess; decide

theorem test_witness_CompletionWaitStoresAndSignals : (unit []).writeFails 0x40_0000#64 8 = false ∧
    (failing 0x40_0007#64 (unit [])).writeFails 0x40_0000#64 8 = true := by decide +kernel

/-- The entry of R193. -/
def dteOf (q0 : Word) : Dte := { q0 := q0, q1 := 7#64, q2 := 0#64, q3 := 0#64 }
/-- `unit` whose device 0x10 has an entry with the given word q0. -/
def withDte (q0 : Word) : State := unit (table ++ [(0x20_0200#64, q0)])

theorem test_witness_InvalidateDevtabEntrySetsRouting :
    (fetchDte (unit table) 0x10#16).1 = .ok (dteOf 0x6000_0000_0010_0603#64) ∧
    (fetchDte (withDte 0#64) 0x10#16).1 = .notValid (dteOf 0#64) ∧
    (fetchDte (withDte 5#64) 0x10#16).1 = .err .dteIllegal ∧
    (fetchDte (unit table) 0x80#16).1 = .err .dteFetchError := by decide +kernel
theorem test_witness_InvalidateDevtabEntryFrame :
    exec (.invalidateDevtabEntry 0x80#16) (unit table) = .next (next (exec (.invalidateDevtabEntry 0x80#16) (unit table))) :=
  rfl
/-- The last range that is a size, and the first that is the whole space. -/
theorem test_witness_RangeIsCodedByTrailingOnes :
    (∀ b, 12 ≤ b → b ≤ 62 → (0x7FFF_FFFF_FFFF_F000#64).getLsbD b = true) ∧
    (∀ b < 50, (0x3FFF_FFFF_FFFF_F000#64).getLsbD (12 + b) = true) ∧
    (0x3FFF_FFFF_FFFF_F000#64).getLsbD (12 + 50) = false ∧ (0#64).getLsbD (12 + 0) = false := by
  refine ⟨fun b h1 h2 => ?_, by decide, by decide, by decide⟩
  have h : ∀ b < 63, 12 ≤ b → (0x7FFF_FFFF_FFFF_F000#64).getLsbD b = true := by decide
  exact h b (by omega) h1
/-- Logging off; the log full at its wrap; the log with one slot free at its wrap, its store accepted or failing. -/
theorem test_witness_LogEventDiscardsDropsOrStores :
    State.reset.evtlogEnabled = false ∧
    (let s := (unit []).setReg .evtTail 0x30#64
     s.evtlogEnabled = true ∧ (s.evtTail + 16#64) % s.latched.evtBytes = s.evtHead) ∧
    (let s := ((unit []).setReg .evtTail 0x30#64).setReg .evtHead 0x10#64
     s.evtlogEnabled = true ∧ (s.evtTail + 16#64) % s.latched.evtBytes ≠ s.evtHead ∧
     s.writeFails (s.latched.evtBase + s.evtTail) 16 = false ∧
     (failing 0x38_003F#64 s).writeFails (s.latched.evtBase + s.evtTail) 16 = true) := by decide +kernel

/-- The last device id inside the table and the first beyond it; the other outcomes' conditions. -/
theorem test_witness_FetchDteOutcomes :
    (unit table).latched.devtabBytes.toNat = 32 * (0x7F#16 : DevId).toNat + 32 ∧
    (unit table).latched.devtabBytes.toNat < 32 * (0x80#16 : DevId).toNat + 32 ∧
    (failing 0x20_021F#64 (unit table)).readFails 0x20_0200#64 32 = true ∧
    (le64 (readBytes (withDte 0xFFFF_FFFF_FFFF_FFFE#64).mem 0x20_0200#64 8) 0).getLsbD 0 = false ∧
    (le64 (readBytes (withDte 5#64).mem 0x20_0200#64 8) 0).extractLsb' 2 5 ≠ 0#5 ∧
    (le64 (readBytes (unit table).mem 0x20_0200#64 8) 0).getLsbD 0 = true ∧
    (0x20_0200#64 : Word) = (unit table).latched.devtabBase + BitVec.ofNat 64 (32 * (0x10#16 : DevId).toNat) := by decide +kernel
/-- The four words of an entry, as they stand in memory. -/
theorem test_witness_FetchDteOutcomes_words :
    (dteOf 0x6000_0000_0010_0603#64).q0 = le64 (readBytes (unit table).mem 0x20_0200#64 8) 0 ∧
    (dteOf 0x6000_0000_0010_0603#64).q1 = le64 (readBytes (unit table).mem (0x20_0200#64 + 8#64) 8) 0 ∧
    (dteOf 0x6000_0000_0010_0603#64).q2 = le64 (readBytes (unit table).mem (0x20_0200#64 + 16#64) 8) 0 ∧
    (dteOf 0x6000_0000_0010_0603#64).q3 = le64 (readBytes (unit table).mem (0x20_0200#64 + 24#64) 8) 0 := by
  decide +kernel

theorem test_witness_WalkEndsBeforeReading :
    (dteOf 0x6000_0000_0010_0601#64).q0.getLsbD 1 = false ∧
    (dteOf 0x6000_0000_0010_0E03#64).q0.getLsbD 1 = true ∧
    ((dteOf 0x6000_0000_0010_0E03#64).q0.extractLsb' 9 3).toNat = 7 ∧
    ((dteOf 3#64).q0.extractLsb' 9 3).toNat = 0 ∧ (dteOf 3#64).q0.extractLsb' 61 2 = 0#2 ∧
    (dteOf 0x2000_0000_0000_0003#64).q0.extractLsb' 61 2 ≠ 0#2 ∧
    ((dteOf 0x6000_0000_0010_0A03#64).q0.extractLsb' 9 3).toNat = 5 ∧
    2 ^ (12 + 9 * 5) ≤ (0x0200_0000_0000_0000#64 : Word).toNat ∧
    (0x01FF_FFFF_FFFF_FFFF#64 : Word).toNat < 2 ^ (12 + 9 * 5) ∧
    ((dteOf 0x6000_0000_0010_0C03#64).q0.extractLsb' 9 3).toNat = 6 := by decide +kernel

/-- A chain given as a list of entries. -/
def chain (l : List Word) (j : Nat) : Word := l.getD j 0#64
/-- `chain`'s conditions, one entry at a time. -/
theorem tableChain_of {s : State} {m d : Nat} {a : Word} {es : Nat → Word}
    (h : ∀ j < d, memRead s (chainAddr m a es j) 8 = some (wordBytes (es (j + 1))) ∧ chainPerms es j ≠ 0#2 ∧
      (0 < j → (es j).getLsbD 0 = true ∧ (es j).extractLsb' 9 3 ≠ 0#3 ∧ (es j).extractLsb' 9 3 ≠ 7#3)) :
    TableChain s m a es d :=
  ⟨fun j hj => (h j hj).1, fun j hj => (h j hj).2.1, fun j hj => (h j hj).2.2⟩

/-- R148's chain down to its 4 KiB leaf. -/
def leafChain : Nat → Word :=
  chain [0x6000_0000_0010_0603#64, 0x6000_0000_0010_1401#64, 0x6000_0000_0010_2201#64, 0x2000_0000_7654_3001#64]
theorem test_witness_WalkFollowsTheTableChain :
    TableChain (unit table) 3 iova leafChain 3 ∧ iova.toNat < 2 ^ (12 + 9 * 3) ∧ leafChain 0 = 0x6000_0000_0010_0603#64 ∧
    chainPerms leafChain 3 ≠ 0#2 ∧ (leafChain 3).getLsbD 0 = true ∧ (leafChain 3).extractLsb' 9 3 = 0#3 :=
  ⟨tableChain_of (by decide +kernel), by decide +kernel⟩
/-- W9c: the permissions empty at the leaf. -/
theorem test_witness_WalkFollowsTheTableChain_empty :
    let es := chain [0x6000_0000_0010_0603#64, 0x6000_0000_0010_1401#64, 0x6000_0000_0010_2201#64, 0x7654_3001#64]
    TableChain (unit (table ++ [(0x10_2B38#64, 0x7654_3001#64)])) 3 iova es 3 ∧ chainPerms es 3 = 0#2 :=
  ⟨tableChain_of (by decide +kernel), by decide +kernel⟩
/-- W9b: an entry that is not present. -/
theorem test_witness_WalkFollowsTheTableChain_absent :
    let es := chain [0x6000_0000_0010_0603#64, 0x6000_0000_0010_1401#64, 0x6000_0000_0010_2200#64]
    TableChain (unit (table ++ [(0x10_1D10#64, 0x6000_0000_0010_2200#64)])) 3 iova es 2 ∧ chainPerms es 2 ≠ 0#2 ∧
    (es 2).getLsbD 0 = false :=
  ⟨tableChain_of (by decide +kernel), by decide +kernel⟩
/-- W13a, W13b, W13c: a large page too large, of the largest size and of the smallest. -/
theorem test_witness_WalkFollowsTheTableChain_large :
    let es := fun e => chain [0x6000_0000_0010_0203#64, e]
    let s := fun e => unit [(0x10_0028#64, e)]
    let bad := 0x600F_FFFF_FFFF_FE01#64
    let large := 0x6007_FFFF_FFFF_FE01#64
    let small := 0x6000_0000_4000_0E01#64
    (TableChain (s bad) 1 0x5ABC#64 (es bad) 1 ∧ ∀ b < 52, 12 ≤ b → (es bad 1).getLsbD b = true) ∧
    (TableChain (s large) 1 0x5ABC#64 (es large) 1 ∧ (∀ b < 51, 12 ≤ b → (es large 1).getLsbD b = true) ∧
      (es large 1).getLsbD 51 = false) ∧
    TableChain (s small) 1 0x5ABC#64 (es small) 1 ∧ (es small 1).getLsbD 12 = false ∧
    (es small 1).extractLsb' 9 3 = 7#3 ∧ (es small 1).getLsbD 0 = true ∧ chainPerms (es small) 1 ≠ 0#2 :=
  ⟨⟨tableChain_of (by decide +kernel), by decide +kernel⟩,
    ⟨tableChain_of (by decide +kernel), by decide +kernel, by decide +kernel⟩,
    tableChain_of (by decide +kernel), by decide +kernel⟩
/-- W7 and W8: the first entry and a deeper one unreadable. -/
theorem test_witness_WalkFollowsTheTableChain_unreadable :
    (TableChain (failing 0x10_0240#64 (unit table)) 3 iova leafChain 0 ∧
      memRead (failing 0x10_0240#64 (unit table)) (chainAddr 3 iova leafChain 0) 8 = none) ∧
    TableChain (failing 0x10_1D10#64 (unit table)) 3 iova leafChain 1 ∧
      memRead (failing 0x10_1D10#64 (unit table)) (chainAddr 3 iova leafChain 1) 8 = none :=
  ⟨⟨tableChain_of (by decide +kernel), by decide +kernel⟩, tableChain_of (by decide +kernel), by decide +kernel⟩
theorem test_witness_WalkAnswersAnAlignedPage :
    walk (unit table) (dteOf 0x6000_0000_0010_0603#64) iova = .ok 0x7654_3000#64 4096#64 1#2 := by decide +kernel
theorem test_witness_WalkDependsOnTheFrameOnly :
    (0x5000#64 : Word).toNat / 4096 = (0x5FFF#64 : Word).toNat / 4096 := by decide

theorem test_witness_LookupFindsTheFramesEntry :
    iotlbLookup withEntries 0x10#16 0x5FFF#64 = some (cached 0x10#16 7#16) ∧
    iotlbLookup withEntries 0x10#16 0x7000#64 = none := by decide +kernel
/-- Empty permissions; an IOTLB at its capacity; one a single entry below it. -/
theorem test_witness_InsertKeepsTheCapacity :
    let s := fun n => { withEntries with cfg := { iotlbCapacity := n } }
    let others := fun (s : State) (d : DevId) (g : Gfn) => (s.iotlb.filter fun x => x.devid != d || x.gfn != g).length
    iotlbInsert (s 3) 0x11#16 0x5000#64 0#64 0x1000#64 0#2 7#16 = s 3 ∧
    (s 3).cfg.iotlbCapacity ≤ others (s 3) 0x11#16 5#52 ∧ others (s 3) 0x10#16 5#52 < (s 3).cfg.iotlbCapacity ∧
    others (s 4) 0x11#16 5#52 < (s 4).cfg.iotlbCapacity ∧ 1 ≤ (s 4).cfg.iotlbCapacity := by decide +kernel
theorem test_witness_InvalidationsRemoveExactly :
    iotlbInvalidatePage withEntries 0x10#16 0x5FFF#64 ≠ withEntries ∧
    iotlbInvalidateDevice withEntries 0x10#16 ≠ withEntries ∧ iotlbInvalidateDomain withEntries 7#16 ≠ withEntries ∧
    iotlbInvalidateAll withEntries ≠ withEntries := by decide +kernel

/-- The window's first and last address, and their neighbours. -/
theorem test_witness_TranslateBypasses : State.reset.enabled = false ∧ (unit []).enabled = true ∧
    windowAddress 0xFEE0_0000#64 ∧ windowAddress 0xFEEF_FFFF#64 ∧ ¬ windowAddress 0xFEDF_FFFF#64 ∧
    ¬ windowAddress 0xFEF0_0000#64 ∧ (unit []).routing 0x11#16 = .passThrough := by
  unfold windowAddress; decide +kernel
theorem test_reaches (s : State) (a : Word) (h : s.enabled = true ∧ s.routing 0x10#16 = .translated)
    (ha : a.toNat < 0xFEE0_0000 ∨ 0xFEEF_FFFF < a.toNat) : reachesIotlb s 0x10#16 a :=
  ⟨h.1, fun w => by unfold windowAddress at w; omega, h.2⟩
/-- A hit that allows the access and one that does not. -/
theorem test_witness_TranslateHitAnswersFromTheEntry : reachesIotlb withEntries 0x10#16 0x5ABC#64 ∧
    iotlbLookup withEntries 0x10#16 0x5ABC#64 = some (cached 0x10#16 7#16) ∧
    permitted (cached 0x10#16 7#16).perms .read ∧ ¬ permitted (cached 0x10#16 7#16).perms .write :=
  ⟨test_reaches _ _ (by decide +kernel) (by decide), by decide +kernel, by unfold permitted; decide,
    by unfold permitted; decide⟩
/-- A miss on an illegal entry and on one that is not valid. -/
theorem test_witness_TranslateMissFetchesTheEntry :
    reachesIotlb (withDte 5#64) 0x10#16 iova ∧ iotlbLookup (withDte 5#64) 0x10#16 iova = none ∧
    (fetchDte (withDte 5#64) 0x10#16).1 = .err .dteIllegal ∧
    reachesIotlb (withDte 0#64) 0x10#16 iova ∧ iotlbLookup (withDte 0#64) 0x10#16 iova = none ∧
    (fetchDte (withDte 0#64) 0x10#16).1 = .notValid (dteOf 0#64) :=
  ⟨test_reaches _ _ (by decide +kernel) (by decide), by decide +kernel, by decide +kernel,
    test_reaches _ _ (by decide +kernel) (by decide), by decide +kernel, by decide +kernel⟩
theorem test_reachesWalk (s : State) (q0 : Word) (h : s.enabled = true ∧ s.routing 0x10#16 = .translated)
    (hl : iotlbLookup s 0x10#16 iova = none) (hf : (fetchDte s 0x10#16).1 = .ok (dteOf q0)) :
    reachesWalk s 0x10#16 iova (dteOf q0) :=
  ⟨test_reaches s iova h (by decide), hl, hf⟩
/-- `TV = 0` under both policies. -/
theorem test_witness_TranslateWalkFailures :
    let s := withDte 0x6000_0000_0010_0601#64
    reachesWalk s 0x10#16 iova (dteOf 0x6000_0000_0010_0601#64) ∧ s.cfg.tv0Policy = .block ∧
    reachesWalk { s with cfg := { tv0Policy := .passThrough } } 0x10#16 iova (dteOf 0x6000_0000_0010_0601#64) ∧
    walk s (dteOf 0x6000_0000_0010_0601#64) iova = .err .tvClear :=
  ⟨test_reachesWalk _ _ (by decide +kernel) (by decide +kernel) (by decide +kernel), by decide +kernel,
    test_reachesWalk _ _ (by decide +kernel) (by decide +kernel) (by decide +kernel), by decide +kernel⟩
/-- W7 and W8: an unreadable table. -/
theorem test_witness_TranslateWalkFailures_unreadable :
    reachesWalk (failing 0x10_0240#64 (unit table)) 0x10#16 iova (dteOf 0x6000_0000_0010_0603#64) ∧
    walk (failing 0x10_0240#64 (unit table)) (dteOf 0x6000_0000_0010_0603#64) iova = .err (.rootPointerError 0x10_0240#64) ∧
    reachesWalk (failing 0x10_1D10#64 (unit table)) 0x10#16 iova (dteOf 0x6000_0000_0010_0603#64) ∧
    walk (failing 0x10_1D10#64 (unit table)) (dteOf 0x6000_0000_0010_0603#64) iova = .err (.pteFetchError 0x10_1D10#64) :=
  ⟨test_reachesWalk _ _ (by decide +kernel) (by decide +kernel) (by decide +kernel), by decide +kernel,
    test_reachesWalk _ _ (by decide +kernel) (by decide +kernel) (by decide +kernel), by decide +kernel⟩
/-- No mapping, mode 7, an IOVA out of range, and a large page too large (an entry at 0x10_0000 read with mode 3). -/
theorem test_witness_TranslateWalkFailures_denied :
    (reachesWalk (withDte 0x0000_0000_0010_0603#64) 0x10#16 iova (dteOf 0x0000_0000_0010_0603#64) ∧
      walk (withDte 0x0000_0000_0010_0603#64) (dteOf 0x0000_0000_0010_0603#64) iova = .noMapping 0x80_0000_0000) ∧
    (reachesWalk (withDte 0x6000_0000_0010_0E03#64) 0x10#16 iova (dteOf 0x6000_0000_0010_0E03#64) ∧
      walk (withDte 0x6000_0000_0010_0E03#64) (dteOf 0x6000_0000_0010_0E03#64) iova = .err .modeReserved) ∧
    (reachesWalk (withDte 0x6000_0000_0010_0403#64) 0x10#16 iova (dteOf 0x6000_0000_0010_0403#64) ∧
      walk (withDte 0x6000_0000_0010_0403#64) (dteOf 0x6000_0000_0010_0403#64) iova = .err .iovaOutOfRange) ∧
    (let s := unit (table ++ [(0x10_1D10#64, 0x600F_FFFF_FFFF_FE01#64)])
     reachesWalk s 0x10#16 iova (dteOf 0x6000_0000_0010_0603#64) ∧
      walk s (dteOf 0x6000_0000_0010_0603#64) iova = .err .largePageSizeInvalid) :=
  ⟨⟨test_reachesWalk _ _ (by decide +kernel) (by decide +kernel) (by decide +kernel), by decide +kernel⟩,
    ⟨test_reachesWalk _ _ (by decide +kernel) (by decide +kernel) (by decide +kernel), by decide +kernel⟩,
    ⟨test_reachesWalk _ _ (by decide +kernel) (by decide +kernel) (by decide +kernel), by decide +kernel⟩,
    test_reachesWalk _ _ (by decide +kernel) (by decide +kernel) (by decide +kernel), by decide +kernel⟩
theorem test_witness_TranslateCachesTheMapping :
    reachesWalk (unit table) 0x10#16 iova (dteOf 0x6000_0000_0010_0603#64) ∧
    walk (unit table) (dteOf 0x6000_0000_0010_0603#64) iova = .ok 0x7654_3000#64 4096#64 1#2 ∧
    permitted 1#2 .read ∧ ¬ permitted 1#2 .write :=
  ⟨test_reachesWalk _ _ (by decide +kernel) (by decide +kernel) (by decide +kernel), by decide +kernel,
    by unfold permitted; decide, by unfold permitted; decide⟩
theorem test_witness_TranslateTwiceIsTheSame : dmaTranslate (unit table) 0x10#16 iova .read =
    (.ok 0x12_3456_7000#64 0x7654_3000#64 0xFFF#64 1#2, (dmaTranslate (unit table) 0x10#16 iova .read).2) := by
  decide +kernel
theorem test_witness_GrantedAccessIsPermitted : dmaTranslate withEntries 0x10#16 0x5ABC#64 .read =
    (.ok 0#64 0x4000_0000#64 0x7FFF#64 1#2, withEntries) := by decide +kernel

/-- The entry of `irqTable`. -/
def irqDte : Dte := { q0 := 1#64, q1 := 0#64, q2 := 0x0400_0000_0050_0001#64, q3 := 0#64 }
theorem test_witness_RemapPassesOrFailsBeforeTheTable : State.reset.enabled = false ∧ (unit table).enabled = true ∧
    (fetchDte (withDte 0#64) 0x10#16).1 = .notValid (dteOf 0#64) ∧
    (fetchDte (withDte 5#64) 0x10#16).1 = .err .dteIllegal ∧
    (fetchDte (unit table) 0x10#16).1 = .ok (dteOf 0x6000_0000_0010_0603#64) ∧
    (dteOf 0x6000_0000_0010_0603#64).q2.getLsbD 0 = false := by decide +kernel
/-- Both formats, both delivery types (R252 (a): entries 0 to 255 and 256 to 511). -/
theorem test_witness_RemapResolvesThroughTheTable :
    (unit irqTable).enabled = true ∧ (fetchDte (unit irqTable) 0x10#16).1 = .ok irqDte ∧ irqDte.q2.getLsbD 0 = true ∧
    ((0xFF#32 : BitVec 32).extractLsb' 8 3).toNat = 0 ∧ ((0x100#32 : BitVec 32).extractLsb' 8 3).toNat = 1 ∧
    (unit irqTable).gaEnabled = false ∧ ((unit irqTable).setReg .control 0x2_0001#64).gaEnabled = true ∧
    ((unit irqTable).setReg .control 0x2_0001#64).enabled = true := by decide +kernel
theorem test_witness_RemapConsultsThePassBits :
    (unit irqTable).enabled = true ∧ (fetchDte (unit irqTable) 0x10#16).1 = .ok irqDte ∧ irqDte.q2.getLsbD 0 = true ∧
    ∀ ty < 8, ((BitVec.ofNat 32 (256 * ty)).extractLsb' 8 3).toNat = ty := by decide +kernel
theorem test_witness_RemapIgnoresRoutingAndIotlb :
    let s := unit irqTable
    let t := { s with translated := [], iotlb := [cached 0x10#16 7#16] }
    t ≠ s ∧ t.reg .control = s.reg .control ∧ t.latched = s.latched ∧ t.mem = s.mem ∧ t.memFails = s.memFails ∧
    t.cfg = s.cfg := by decide +kernel
/-- A request that logs, and one with logging off. -/
theorem test_witness_DeviceRequestsTouchOnlyTheLog :
    (dmaTranslate (withDte 5#64) 0x10#16 iova .read).2 ≠ withDte 5#64 ∧
    (remapInterrupt (withDte 5#64) 0x10#16 { address := 0#64, data := 0#32 }).2 ≠ withDte 5#64 ∧
    ((withDte 5#64).setReg .control 1#64).evtlogEnabled = false := by decide +kernel

/-- A refused access, the last byte of a register, and the last word of the block. -/
theorem test_witness_MmioReadReturnsTheBytes : ¬ acceptedAccess 0x3FFC 8 ∧ ¬ acceptedAccess 0x2021 2 ∧
    acceptedAccess 0x2027 1 ∧ RegName.offset .status = 0x2027 / 8 * 8 ∧ acceptedAccess 0x3FF8 8 := by
  unfold acceptedAccess; decide
theorem test_witness_MmioReadReturnsTheBytes_none (n : RegName) : n.offset ≠ 0x3FF8 / 8 * 8 := by
  cases n <;> decide
theorem test_witness_MmioStoreMergesByTheMasks : acceptedAccess 0x2020 1 ∧ acceptedAccess 0x000C 4 := by
  unfold acceptedAccess; decide
theorem test_witness_RefusedAccessesChangeNothing : ¬ acceptedAccess 0x3FFF 2 ∧ ¬ acceptedAccess 0 3 := by
  unfold acceptedAccess; decide
/-- The words beside the registers: the first ones after each group, the last one before the second, and the last one. -/
theorem test_witness_RefusedAccessesChangeNothing_outside : ∀ o ∈ [0x0020, 0x1FFF, 0x2028, 0x3FFF],
    acceptedAccess o 1 ∧ ∀ n ∈ RegName.all, n.offset ≠ o / 8 * 8 := by
  unfold acceptedAccess; decide +kernel
/-- The whole register, its high half (46_mmio R282) and its last byte, for each base register. -/
theorem test_witness_BaseWritesLatch : (unit table).good = true ∧
    ∀ n ∈ [RegName.devtabBase, .cmdBase, .evtBase], acceptedAccess n.offset 8 ∧ n.offset = n.offset / 8 * 8 ∧
      acceptedAccess (n.offset + 4) 4 ∧ n.offset = (n.offset + 4) / 8 * 8 ∧ n.offset + 4 + 4 = n.offset + 8 ∧
      acceptedAccess (n.offset + 7) 1 ∧ n.offset = (n.offset + 7) / 8 * 8 ∧ n.offset + 7 + 1 = n.offset + 8 := by
  unfold acceptedAccess; decide +kernel
/-- The whole low half, and the last byte that does not trigger. -/
theorem test_witness_PartialBaseWriteDoesNotLatch :
    acceptedAccess 0x0008 4 ∧ RegName.offset .cmdBase = 0x0008 / 8 * 8 ∧ 0x0008 + 4 < RegName.offset .cmdBase + 8 ∧
    acceptedAccess 0x0016 1 ∧ RegName.offset .evtBase = 0x0016 / 8 * 8 ∧ 0x0016 + 1 < RegName.offset .evtBase + 8 := by
  unfold acceptedAccess; decide
theorem test_witness_ControlWriteSetsRunFlagsAndDrains : acceptedAccess 0x0018 8 ∧ acceptedAccess 0x001F 1 ∧
    0x0018 / 8 * 8 = 0x0018 ∧ 0x001F / 8 * 8 = 0x0018 := by
  unfold acceptedAccess; decide
theorem test_witness_PointerWritesStayInTheRing : withEntries.good = true ∧
    ∀ n ∈ [RegName.cmdHead, .cmdTail, .evtHead, .evtTail], acceptedAccess n.offset 8 ∧ n.offset = n.offset / 8 * 8 ∧
      acceptedAccess (n.offset + 1) 1 ∧ n.offset = (n.offset + 1) / 8 * 8 := by
  unfold acceptedAccess; decide +kernel
theorem test_witness_StatusWriteClearsWrittenOnes : acceptedAccess 0x2020 1 ∧ 0x2020 / 8 * 8 = 0x2020 ∧
    acceptedAccess 0x2027 1 ∧ 0x2027 / 8 * 8 = 0x2020 := by
  unfold acceptedAccess; decide

theorem test_witness_StepKeepsTheInvariant : (queued 0x8000_0000_0000_0000#64 0#64).good = true ∧
    step (queued 0x8000_0000_0000_0000#64 0#64) = .next (next (step (queued 0x8000_0000_0000_0000#64 0#64))) :=
  ⟨by decide +kernel, rfl⟩
/-- By the command, and by reset. -/
theorem test_witness_RoutingChangesOnlyByCommandOrReset :
    (next (step (queued 0x2000_0000_0000_0010#64 0#64))).routing 0x10#16 ≠ (unit []).routing 0x10#16 ∧
    (next (step { unit [] with inputs := [.reset] })).routing 0x10#16 ≠ (unit []).routing 0x10#16 := by decide +kernel
/-- By an invalidation, and by an insertion at capacity. -/
theorem test_witness_EntriesLeaveOnlyByInvalidation :
    (let s := { queued 0x8000_0000_0000_0000#64 0#64 with iotlb := [cached 0x10#16 7#16] }
     cached 0x10#16 7#16 ∈ s.iotlb ∧ cached 0x10#16 7#16 ∉ (next (step s)).iotlb) ∧
    (let s := { unit table with cfg := { iotlbCapacity := 1 }, iotlb := [cached 0x10#16 7#16], inputs := [.translate 0x10#16 iova .read] }
     cached 0x10#16 7#16 ∈ s.iotlb ∧ cached 0x10#16 7#16 ∉ (next (step s)).iotlb) := by decide +kernel
/-- A completion store, an event, and the host's own store. -/
theorem test_witness_MemoryIsWrittenInTwoPlaces :
    readByte (next (step (queued 0x1000_0000_0040_0001#64 1#64))).mem 0x40_0000 ≠ 0#8 ∧
    readByte (next (step (queued 0#64 0#64))).mem 0x38_0007 ≠ 0#8 ∧
    readByte (next (step { unit [] with inputs := [.hostStore 0x40_0000#64 [1#8]] })).mem 0x40_0000 ≠ 0#8 ∧
    readByte (queued 0x1000_0000_0040_0001#64 1#64).mem 0x40_0000 = 0#8 := by decide +kernel
/-- By a register write, and by reset. -/
theorem test_witness_ConfigurationChangesOnlyByHostOrReset :
    (next (step { unit [] with inputs := [.mmioWrite 0x0018 8 0#64] })).reg .control ≠ (unit []).reg .control ∧
    (next (step { unit [] with inputs := [.reset] })).latched ≠ (unit []).latched := by decide +kernel

end Sys2Proof.Tests
end

/-! PROOFS. The device-table entry fetch (40_device_table_fetch R121 to R127): where an entry stands, when it lies beyond
the table, which of its bits make it illegal, and from these every outcome of the fetch. -/

section
namespace Sys2Proof.Machine

/-! ### Masks read as fields -/

/-- The word whose ones are the field of `n` bits from bit `lo` on. -/
def fieldMask (lo n : Nat) : Word := (BitVec.allOnes n).setWidth 64 <<< lo

theorem getLsbD_fieldMask (lo n j : Nat) :
    (fieldMask lo n).getLsbD j = (decide (j < 64) && decide (lo ≤ j) && decide (j < lo + n)) := by
  rw [Bool.eq_iff_iff]
  simp [fieldMask]
  omega

/-- A word meets a field's mask in nothing exactly when the field is zero. -/
theorem and_fieldMask_eq_zero_iff {lo n : Nat} (h : lo + n ≤ 64) (v : Word) :
    v &&& fieldMask lo n = 0#64 ↔ v.extractLsb' lo n = 0#n := by
  constructor
  · intro hv
    refine BitVec.eq_of_getLsbD_eq fun k hk => ?_
    have hbit : (v &&& fieldMask lo n).getLsbD (lo + k) = false := by rw [hv]; simp
    rw [BitVec.getLsbD_and, getLsbD_fieldMask] at hbit
    simpa [hk, show lo + k < 64 by omega] using hbit
  · intro hv
    refine BitVec.eq_of_getLsbD_eq fun j hj => ?_
    rw [BitVec.getLsbD_and, getLsbD_fieldMask, BitVec.getLsbD_zero]
    by_cases hin : lo ≤ j ∧ j < lo + n
    · have hbit : (v.extractLsb' lo n).getLsbD (j - lo) = false := by rw [hv]; simp
      rw [BitVec.getLsbD_extractLsb', show lo + (j - lo) = j by omega, decide_eq_true (show j - lo < n by omega),
        Bool.true_and] at hbit
      rw [hbit, Bool.false_and]
    · simp; omega

theorem extractLsb'_one_eq_zero_iff (v : Word) (k : Nat) : v.extractLsb' k 1 = 0#1 ↔ v.getLsbD k = false := by
  constructor
  · intro hv
    have hbit : (v.extractLsb' k 1).getLsbD 0 = false := by rw [hv]; simp
    simpa using hbit
  · intro hv
    refine BitVec.eq_of_getLsbD_eq fun j hj => ?_
    simpa [show j = 0 by omega] using hv

/-! ### Where an entry stands, and the table's bound (R121) -/

theorem mul_devid_eq (devid : DevId) : 32#64 * devid.setWidth 64 = BitVec.ofNat 64 (32 * devid.toNat) :=
  BitVec.eq_of_toNat_eq (by simp)

theorem dteAddr_eq (s : State) (devid : DevId) :
    s.dteAddr devid = s.latched.devtabBase + BitVec.ofNat 64 (32 * devid.toNat) := by
  rw [State.dteAddr, mul_devid_eq]

/-- The model's comparison of words is R121's comparison of integers: a 16-bit device id cannot wrap it. -/
theorem beyondDevtab_iff (s : State) (devid : DevId) :
    s.beyondDevtab devid = true ↔ s.latched.devtabBytes.toNat < 32 * devid.toNat + 32 := by
  have hsum : (32#64 * devid.setWidth 64 + 32#64).toNat = 32 * devid.toNat + 32 := by
    have := devid.isLt
    rw [mul_devid_eq, BitVec.toNat_add, BitVec.toNat_ofNat, BitVec.toNat_ofNat]
    omega
  rw [State.beyondDevtab, decide_eq_true_iff, BitVec.lt_def, hsum]

/-! ### The entry's words and its illegal bits (R83, R124) -/

/-- The entry read at an address is the one whose four words stand there. -/
theorem dteOfBytes_readBytes {m : Memory} {a : Word} {dte : Dte} (h0 : dte.q0 = le64 (readBytes m a 8) 0)
    (h1 : dte.q1 = le64 (readBytes m (a + 8#64) 8) 0) (h2 : dte.q2 = le64 (readBytes m (a + 16#64) 8) 0)
    (h3 : dte.q3 = le64 (readBytes m (a + 24#64) 8) 0) : dteOfBytes (readBytes m a 32) = dte := by
  have word (o : Nat) (h : o + 8 ≤ 32) := le64_readBytes m a h
  cases dte
  simp_all [dteOfBytes]

theorem dteRsvd0_eq : dteRsvd0 = fieldMask 2 5 ||| fieldMask 52 9 ||| fieldMask 63 1 := by decide
theorem dteRsvd2_eq : dteRsvd2 = fieldMask 52 4 := by decide

theorem and_dteRsvd0_eq_zero_iff (v : Word) :
    v &&& dteRsvd0 = 0#64 ↔ v.extractLsb' 2 5 = 0#5 ∧ v.extractLsb' 52 9 = 0#9 ∧ v.getLsbD 63 = false := by
  rw [dteRsvd0_eq, BitVec.and_or_distrib_left, BitVec.and_or_distrib_left, BitVec.or_eq_zero_iff,
    BitVec.or_eq_zero_iff, and_fieldMask_eq_zero_iff (by decide), and_fieldMask_eq_zero_iff (by decide),
    and_fieldMask_eq_zero_iff (by decide), extractLsb'_one_eq_zero_iff, and_assoc]

theorem and_dteRsvd2_eq_zero_iff (v : Word) : v &&& dteRsvd2 = 0#64 ↔ v.extractLsb' 52 4 = 0#4 := by
  rw [dteRsvd2_eq, and_fieldMask_eq_zero_iff (by decide)]

theorem entryAddr_eq_zero_iff (e : Word) : entryAddr e = 0#64 ↔ e.extractLsb' 12 40 = 0#40 :=
  and_fieldMask_eq_zero_iff (lo := 12) (n := 40) (by decide) e

theorem hasReservedBit_eq_false_iff (d : Dte) :
    d.hasReservedBit = false ↔ (d.q0.extractLsb' 2 5 = 0#5 ∧ d.q0.extractLsb' 52 9 = 0#9 ∧ d.q0.getLsbD 63 = false) ∧
      d.q2.extractLsb' 52 4 = 0#4 := by
  rw [← and_dteRsvd0_eq_zero_iff, ← and_dteRsvd2_eq_zero_iff]
  simp [Dte.hasReservedBit, dteRsvd1, dteRsvd3]

/-- What makes a valid entry illegal, field by field. -/
theorem dteIllegal_iff (s : State) (d : Dte) :
    s.dteIllegal d = true ↔ d.q0.extractLsb' 2 5 ≠ 0#5 ∨ d.q0.extractLsb' 52 9 ≠ 0#9 ∨ d.q0.getLsbD 63 = true ∨
      d.q2.extractLsb' 52 4 ≠ 0#4 ∨ (s.cfg.dmaRemapSupported = false ∧ d.q0.extractLsb' 12 40 ≠ 0#40) := by
  rw [State.dteIllegal, Bool.or_eq_true, ← Bool.not_eq_false d.hasReservedBit, hasReservedBit_eq_false_iff,
    Bool.and_eq_true, Bool.not_eq_true', bne_iff_ne, Ne, entryAddr_eq_zero_iff]
  simp only [not_and_or, Bool.not_eq_false, or_assoc, ne_eq]

/-! ### The outcomes of the fetch -/

theorem memRead_eq_none_iff (s : State) (a : Word) (n : Nat) : memRead s a n = none ↔ s.readFails a n = true := by
  rcases memRead_cases s a n with ⟨hf, e⟩ | ⟨hf, e⟩ <;> simp [hf, e]

theorem memRead_eq_some_iff {s : State} {a : Word} {n : Nat} {bs : List Byte} :
    memRead s a n = some bs ↔ s.readFails a n = false ∧ readBytes s.mem a n = bs := by
  rcases memRead_cases s a n with ⟨hf, e⟩ | ⟨hf, e⟩ <;> simp [hf, e]

/-- Settles O27: the fetch's cases, with the model's tests read as the rules state them, are the branches of the chain. -/
theorem fetchDteOutcomes : Obligations.FetchDteOutcomes := by
  intro s devid a dte ha h0 h1 h2 h3
  obtain rfl : s.dteAddr devid = a := (dteAddr_eq s devid).trans ha.symm
  have valid : dte.q0.getLsbD 0 = dte.valid := rfl
  simp only [← beyondDevtab_iff, ← memRead_eq_none_iff, valid, ← dteIllegal_iff]
  rcases fetchDte_cases s devid with ⟨e, hfail⟩ | ⟨bs, hin, hread, hcase⟩
  · rw [e, if_pos hfail]
  · have hbytes : dteOfBytes bs = dte := by
      rw [← (memRead_eq_some_iff.mp hread).2, dteOfBytes_readBytes h0 h1 h2 h3]
    have hok : ¬ (s.beyondDevtab devid = true ∨ memRead s (s.dteAddr devid) 32 = none) := by simp [hin, hread]
    rw [hbytes] at hcase
    rw [if_neg hok]
    rcases hcase with ⟨hv, e⟩ | ⟨hv, hi, e⟩ | ⟨hv, hi, e⟩
    · rw [e, if_pos hv]
    · rw [e, if_neg (by simp [hv]), if_pos hi]
    · rw [e, if_neg (by simp [hv]), if_neg (by simp [hi])]

end Sys2Proof.Machine
end

/-! PROOFS. The page-table walk up to its first table read (41_page_table_walk R136 to R138): which entries and addresses
end it before the loop, and that the loop itself never calls an address out of range. -/

section
namespace Sys2Proof.Machine

/-! ### The walk by `TV`, mode and address (R136, R137, R138) -/

section
variable {s : State} {dte : Dte} {iova : Word}

theorem walk_of_tv_clear (hv : dte.translationValid = false) : walk s dte iova = .err .tvClear := by
  simp [walk, hv]

theorem walk_of_mode_seven (hv : dte.translationValid = true) (hm : dte.mode = 7#3) :
    walk s dte iova = .err .modeReserved := by
  simp [walk, hv, hm]

theorem walk_of_mode_zero (hv : dte.translationValid = true) (hm : dte.mode = 0#3) :
    walk s dte iova =
      if entryPerms dte.q0 = permsNone then .noMapping 4096 else .ok (base4K iova) 0x1000#64 (entryPerms dte.q0) := by
  simp [walk, hv, hm]

theorem walk_of_levels (hv : dte.translationValid = true) (h1 : 1 ≤ dte.mode.toNat) (h6 : dte.mode.toNat ≤ 6) :
    walk s dte iova =
      if iovaOutOfRange dte.mode.toNat iova then .err .iovaOutOfRange
      else walkLoop s iova dte.mode.toNat dte.q0 permsRW true := by
  have hm7 : dte.mode ≠ 7#3 := fun h => by simp [h] at h6
  have hm0 : dte.mode ≠ 0#3 := fun h => by simp [h] at h1
  simp [walk, hv, hm7, hm0]

end

/-! ### The range test (R138) -/

theorem iovaOutOfRange_iff (m : Nat) (iova : Word) :
    iovaOutOfRange m iova = true ↔ m ≤ 5 ∧ 2 ^ (12 + 9 * m) ≤ iova.toNat := by
  have hwidth : levelShift m < 64 ↔ m ≤ 5 := by rw [levelShift]; omega
  rw [iovaOutOfRange, Bool.and_eq_true, decide_eq_true_iff, decide_eq_true_iff, hwidth, levelShift]

/-! ### The loop gives other reasons only -/

theorem leafResult_ne_iovaOutOfRange (entry : Word) (k : Nat) (p : Perms) :
    leafResult entry k p ≠ .err .iovaOutOfRange := by
  unfold leafResult
  split_ifs <;> simp

theorem entryReadError_ne_iovaOutOfRange (top : Bool) (pa : Word) : entryReadError top pa ≠ .iovaOutOfRange := by
  cases top <;> simp [entryReadError]

/-- The last round: nothing lies below an entry of the lowest table (R142). -/
theorem walkLoop_zero (s : State) (iova entry : Word) (p : Perms) (top : Bool) :
    walkLoop s iova 0 entry p top =
      if p &&& entryPerms entry = permsNone then .noMapping (2 ^ levelShift 0)
      else if !present entry then .noMapping (2 ^ levelShift 0)
      else leafResult entry 0 (p &&& entryPerms entry) := rfl

/-- A round above the lowest table: R140, R141, R142, R143 in that order. -/
theorem walkLoop_succ (s : State) (iova : Word) (k : Nat) (entry : Word) (p : Perms) (top : Bool) :
    walkLoop s iova (k + 1) entry p top =
      if p &&& entryPerms entry = permsNone then .noMapping (2 ^ levelShift (k + 1))
      else if !top && !present entry then .noMapping (2 ^ levelShift (k + 1))
      else if !top && (levelField entry == 0#3 || levelField entry == 7#3) then
        leafResult entry (k + 1) (p &&& entryPerms entry)
      else (memRead s (nextEntryAddr entry iova k) 8).elim
        (.err (entryReadError top (nextEntryAddr entry iova k)))
        (fun bs => walkLoop s iova k (le64 bs 0) (p &&& entryPerms entry) false) := by
  rw [walkLoop]
  cases memRead s (nextEntryAddr entry iova k) 8 <;> rfl

theorem walkLoop_ne_iovaOutOfRange (s : State) (iova : Word) (k : Nat) (entry : Word) (p : Perms) (top : Bool) :
    walkLoop s iova k entry p top ≠ .err .iovaOutOfRange := by
  induction k generalizing entry p top with
  | zero =>
    rw [walkLoop_zero]
    split_ifs
    · simp
    · simp
    · exact leafResult_ne_iovaOutOfRange _ _ _
  | succ k ih =>
    rw [walkLoop_succ]
    split_ifs
    · simp
    · simp
    · exact leafResult_ne_iovaOutOfRange _ _ _
    · cases memRead s (nextEntryAddr entry iova k) 8 with
      | none => simpa using entryReadError_ne_iovaOutOfRange top _
      | some bs => exact ih _ _ _

/-- Settles O28: the walk's cases by `TV`, mode and address, where past the range test only the loop is left. -/
theorem walkEndsBeforeReading : Obligations.WalkEndsBeforeReading := by
  intro s dte iova m hm
  obtain rfl : m = dte.mode.toNat := hm
  refine ⟨walk_of_tv_clear, fun hv h7 => ?modeSeven, fun hv h0 hp => ?zeroNone, fun hv h0 hp => ?zeroIdentity,
    fun hv h1 h5 hfar => ?outOfRange, fun hv h1 h6 hnear => ?inRange⟩
  case modeSeven => exact walk_of_mode_seven hv (BitVec.eq_of_toNat_eq h7)
  case zeroNone => exact (walk_of_mode_zero hv (BitVec.eq_of_toNat_eq h0)).trans (if_pos hp)
  case zeroIdentity => exact (walk_of_mode_zero hv (BitVec.eq_of_toNat_eq h0)).trans (if_neg hp)
  case outOfRange => rw [walk_of_levels hv h1 (by omega), if_pos ((iovaOutOfRange_iff _ _).mpr ⟨h5, hfar⟩)]
  case inRange =>
    have hin : ¬ iovaOutOfRange dte.mode.toNat iova = true := fun h => by
      obtain ⟨h5, hfar⟩ := (iovaOutOfRange_iff _ _).mp h
      exact absurd (hnear h5) (by omega)
    rw [walk_of_levels hv h1 h6, if_neg hin]
    exact walkLoop_ne_iovaOutOfRange _ _ _ _ _ _

end Sys2Proof.Machine
end

/-! PROOFS. The IOTLB's operations (42_iotlb R161 to R167): what its keys name, what a lookup, an invalidation and an
insertion do to the list of entries, and that the two kinds of update change nothing else. -/

section
namespace Sys2Proof.Machine

/-! ### Keys (R161) -/

theorem eq_gfnOf_iff {g : Gfn} {iova : Word} : g = gfnOf iova ↔ g.toNat = iova.toNat / 4096 := by
  have hgfn : (gfnOf iova).toNat = iova.toNat / 4096 := by
    have := iova.isLt
    rw [gfnOf, BitVec.extractLsb'_toNat, Nat.shiftRight_eq_div_pow]
    omega
  rw [← BitVec.toNat_inj, hgfn]

theorem IotlbEntry.key_eq_iff {e : IotlbEntry} {devid : DevId} {g : Gfn} :
    e.key = iotlbKeyOf devid g ↔ e.devid = devid ∧ e.gfn = g := iotlbKeyOf_inj

/-- An entry stands under an address's key when it is of that device and of the address's 4 KiB frame. -/
theorem IotlbEntry.key_eq_iff_frame {e : IotlbEntry} {devid : DevId} {iova : Word} :
    e.key = iotlbKeyOf devid (gfnOf iova) ↔ e.devid = devid ∧ e.gfn.toNat = iova.toNat / 4096 := by
  rw [key_eq_iff, eq_gfnOf_iff]

/-- Erasing a key keeps the entries of another device or another frame. -/
theorem eraseKey_iotlbKeyOf (devid : DevId) (g : Gfn) (l : List IotlbEntry) :
    eraseKey IotlbEntry.key (iotlbKeyOf devid g) l = l.filter fun x => x.devid != devid || x.gfn != g := by
  refine List.filter_congr fun x _ => ?_
  rw [Bool.eq_iff_iff, bne_iff_ne, Ne, IotlbEntry.key_eq_iff, not_and_or, Bool.or_eq_true, bne_iff_ne, bne_iff_ne]

/-! ### Lookup (R162) -/

theorem iotlbLookup_some {s : State} {devid : DevId} {iova : Word} {e : IotlbEntry}
    (h : iotlbLookup s devid iova = some e) :
    e ∈ s.iotlb ∧ e.devid = devid ∧ e.gfn.toNat = iova.toNat / 4096 := by
  obtain ⟨hmem, hkey⟩ := findKey_some IotlbEntry.key h
  exact ⟨hmem, IotlbEntry.key_eq_iff_frame.mp hkey⟩

theorem iotlbLookup_none_iff {s : State} {devid : DevId} {iova : Word} :
    iotlbLookup s devid iova = none ↔ ∀ e ∈ s.iotlb, ¬ (e.devid = devid ∧ e.gfn.toNat = iova.toNat / 4096) := by
  simp only [iotlbLookup, findKey_none, Ne, IotlbEntry.key_eq_iff_frame]

/-- Settles O32: what a search by key finds, with the key read as device and frame. -/
theorem lookupFindsTheFramesEntry : Obligations.LookupFindsTheFramesEntry :=
  fun _ _ _ => ⟨fun _ => iotlbLookup_some, iotlbLookup_none_iff.mp⟩

/-! ### An update of the IOTLB alone -/

/-- A state that differs from another in the IOTLB at most. -/
def differsInIotlbOnly (s t : State) : Prop := t = { s with iotlb := t.iotlb }

/-- Everything a statement may ask about besides the IOTLB is left alone by an update of the IOTLB. -/
theorem differsInIotlbOnly.frame {s t : State} (h : differsInIotlbOnly s t) :
    sameRegsBut [] s t ∧ sameMemory s t ∧ sameSurroundings s t ∧ t.trace = s.trace ∧
      ∀ d, t.routing d = s.routing d := by
  rw [h]
  exact ⟨fun _ _ => rfl, fun _ => rfl, ⟨rfl, rfl, rfl, rfl, rfl⟩, rfl, fun _ => rfl⟩

/-! ### Invalidation (R164 to R167) -/

theorem mem_iotlbInvalidatePage {s : State} {devid : DevId} {iova : Word} {e : IotlbEntry} :
    e ∈ (iotlbInvalidatePage s devid iova).iotlb ↔
      e ∈ s.iotlb ∧ ¬ (e.devid = devid ∧ e.gfn.toNat = iova.toNat / 4096) := by
  rw [iotlbInvalidatePage_iotlb, mem_eraseKey, Ne, IotlbEntry.key_eq_iff_frame]

theorem mem_iotlbInvalidateDevice {s : State} {devid : DevId} {e : IotlbEntry} :
    e ∈ (iotlbInvalidateDevice s devid).iotlb ↔ e ∈ s.iotlb ∧ e.devid ≠ devid := by
  rw [iotlbInvalidateDevice_iotlb, List.mem_filter, bne_iff_ne]

theorem mem_iotlbInvalidateDomain {s : State} {domid : DomId} {e : IotlbEntry} :
    e ∈ (iotlbInvalidateDomain s domid).iotlb ↔ e ∈ s.iotlb ∧ e.domid ≠ domid := by
  rw [iotlbInvalidateDomain_iotlb, List.mem_filter, bne_iff_ne]

/-- Settles O34: the entries each invalidation leaves, and that it updates the IOTLB alone. -/
theorem invalidationsRemoveExactly : Obligations.InvalidationsRemoveExactly := by
  intro s devid domid iova
  refine ⟨fun _ => mem_iotlbInvalidatePage, fun _ => mem_iotlbInvalidateDevice, fun _ => mem_iotlbInvalidateDomain,
    fun _ => List.not_mem_nil, fun t ht => differsInIotlbOnly.frame ?_⟩
  rcases ht with rfl | rfl | rfl | rfl <;> rfl

/-! ### Insertion (R163) -/

theorem length_putKey_le {α : Type} (key : α → Nat) (x : α) (l : List α) :
    (putKey key x l).length ≤ l.length + 1 := by
  rw [putKey, length_insertSorted]
  exact Nat.succ_le_succ (List.length_filter_le _ _)

section
variable (s : State) (devid : DevId) (iova ta size : Word) (p : Perms) (domid : DomId)

/-- The entry that an insertion stores. -/
def insertedEntry : IotlbEntry :=
  { devid := devid, gfn := gfnOf iova, domid := domid, perms := p, translatedAddr := ta, pageMask := size - 1#64 }

theorem insertedEntry_key :
    (insertedEntry devid iova ta size p domid).key = iotlbKeyOf devid (gfnOf iova) := rfl

/-- What an insertion of non-empty permissions can do: the new entry replaces a list whose other keys fill the capacity,
and joins the entries of the other keys where there is room. -/
theorem iotlbInsert_cases (hp : p ≠ permsNone) :
    (s.cfg.iotlbCapacity ≤ (iotlbInvalidatePage s devid iova).iotlb.length ∧
      iotlbInsert s devid iova ta size p domid = { s with iotlb := [insertedEntry devid iova ta size p domid] }) ∨
    ((iotlbInvalidatePage s devid iova).iotlb.length < s.cfg.iotlbCapacity ∧
      iotlbInsert s devid iova ta size p domid =
        { s with iotlb := putKey IotlbEntry.key (insertedEntry devid iova ta size p domid)
                            (iotlbInvalidatePage s devid iova).iotlb }) := by
  by_cases hfull : s.cfg.iotlbCapacity ≤ (iotlbInvalidatePage s devid iova).iotlb.length
  · refine .inl ⟨hfull, ?_⟩
    simp only [iotlbInsert, if_neg hp, iotlbInvalidatePage_cfg, hfull, if_true]
    rfl
  · refine .inr ⟨Nat.lt_of_not_le hfull, ?_⟩
    simp only [iotlbInsert, if_neg hp, iotlbInvalidatePage_cfg, hfull, if_false]
    rfl

theorem iotlbInsert_differsInIotlbOnly : differsInIotlbOnly s (iotlbInsert s devid iova ta size p domid) := by
  by_cases hp : p = permsNone
  · subst hp
    rw [iotlbInsert_none]
    rfl
  · rcases iotlbInsert_cases s devid iova ta size p domid hp with ⟨_, e⟩ | ⟨_, e⟩ <;> rw [e] <;> rfl

variable {s devid iova ta size p domid}

/-- The entry inserted is found. -/
theorem iotlbLookup_iotlbInsert (hp : p ≠ permsNone) :
    iotlbLookup (iotlbInsert s devid iova ta size p domid) devid iova =
      some (insertedEntry devid iova ta size p domid) := by
  rcases iotlbInsert_cases s devid iova ta size p domid hp with ⟨_, e⟩ | ⟨_, e⟩
  · rw [e, iotlbLookup, findKey_cons, if_pos (insertedEntry_key ..)]
  · rw [e, iotlbLookup, findKey_putKey, if_pos (insertedEntry_key ..).symm]

/-- An insertion leaves at most as many entries as the capacity. -/
theorem length_iotlbInsert_le (hp : p ≠ permsNone) (hcap : 1 ≤ s.cfg.iotlbCapacity) :
    (iotlbInsert s devid iova ta size p domid).iotlb.length ≤ s.cfg.iotlbCapacity := by
  rcases iotlbInsert_cases s devid iova ta size p domid hp with ⟨_, e⟩ | ⟨hroom, e⟩
  · rw [e]
    exact hcap
  · rw [e]
    exact (length_putKey_le _ _ _).trans hroom

theorem iotlbInsert_iotlb_of_full (hp : p ≠ permsNone)
    (hfull : s.cfg.iotlbCapacity ≤ (iotlbInvalidatePage s devid iova).iotlb.length) :
    (iotlbInsert s devid iova ta size p domid).iotlb = [insertedEntry devid iova ta size p domid] := by
  rcases iotlbInsert_cases s devid iova ta size p domid hp with ⟨_, e⟩ | ⟨hroom, _⟩
  · rw [e]
  · exact absurd hfull (Nat.not_le_of_lt hroom)

theorem mem_iotlbInsert_of_room (hp : p ≠ permsNone)
    (hroom : (iotlbInvalidatePage s devid iova).iotlb.length < s.cfg.iotlbCapacity) (x : IotlbEntry) :
    x ∈ (iotlbInsert s devid iova ta size p domid).iotlb ↔
      x = insertedEntry devid iova ta size p domid ∨ (x ∈ s.iotlb ∧ ¬ (x.devid = devid ∧ x.gfn = gfnOf iova)) := by
  rcases iotlbInsert_cases s devid iova ta size p domid hp with ⟨hfull, _⟩ | ⟨_, e⟩
  · exact absurd hfull (Nat.not_le_of_lt hroom)
  · rw [e, mem_putKey, iotlbInvalidatePage_iotlb, mem_eraseKey, insertedEntry_key, and_assoc, and_self, Ne,
      IotlbEntry.key_eq_iff]

end

/-- Settles O33: the two ways an insertion goes, with the entries it counts read as those of other keys. -/
theorem insertKeepsTheCapacity : Obligations.InsertKeepsTheCapacity := by
  intro s devid iova ta size p domid t e ht he
  obtain rfl : e = insertedEntry devid iova ta size p domid := he
  subst ht
  have others : (s.iotlb.filter fun x => x.devid != devid || x.gfn != gfnOf iova) =
      (iotlbInvalidatePage s devid iova).iotlb := (eraseKey_iotlbKeyOf ..).symm
  refine ⟨fun h0 => ?empty, fun hp => ?stored⟩
  case empty =>
    subst h0
    exact iotlbInsert_none ..
  case stored =>
    obtain ⟨hregs, hmem, hsurr, htrace, _⟩ := (iotlbInsert_differsInIotlbOnly s devid iova ta size p domid).frame
    refine ⟨iotlbLookup_iotlbInsert hp, fun hfull => ?_, fun hroom => ?_,
      length_iotlbInsert_le hp, hregs, hmem, hsurr, htrace⟩
    · exact iotlbInsert_iotlb_of_full hp (others ▸ hfull)
    · exact mem_iotlbInsert_of_room hp (others ▸ hroom)

end Sys2Proof.Machine
end

/-! PROOFS. The DMA translation request (43_translate R181 to R190): the requests that never reach the walker, and what a
request that reaches the walk is answered for each of the walk's results. -/

section
namespace Sys2Proof.Machine

/-! ### The model's tests read as the rules state them (00_scope R4, R8, 30_encoding R102) -/

theorem inIntWindow_iff {iova : Word} : inIntWindow iova = true ↔ windowAddress iova := by
  rw [inIntWindow, Bool.and_eq_true, decide_eq_true_iff, decide_eq_true_iff]
  exact Iff.rfl

theorem allows_iff {p : Perms} {access : Access} : allows p access = true ↔ permitted p access := by
  cases access with
  | read => exact (by decide : ∀ p : Perms, allows p .read = true ↔ p.getLsbD 0 = true) p
  | write => exact (by decide : ∀ p : Perms, allows p .write = true ↔ p.getLsbD 1 = true) p

theorem pageFaultFlags_eq (pr : Bool) (access : Access) : pageFaultFlags pr access = faultFlags pr access := by
  cases pr <;> cases access <;> rfl

section
variable {s : State} {devid : DevId} {iova : Word} {access : Access} {dte : Dte} {ta size : Word} {p : Perms}

theorem identityResponse_eq (iova : Word) :
    identityResponse iova = .ok (iova &&& ~~~0xFFF#64) (iova &&& ~~~0xFFF#64) 0xFFF#64 3#2 := rfl

theorem pageFault_eq (s : State) (devid : DevId) (pr : Bool) (access : Access) (iova : Word) :
    pageFault s devid pr access iova = (.denied, logEvent s .ioPageFault devid (faultFlags pr access) iova) := by
  rw [pageFault, pageFaultFlags_eq]

/-! ### The request up to the walk (R181 to R185) -/

theorem dmaTranslate_of_disabled (he : s.enabled = false) :
    dmaTranslate s devid iova access = (identityResponse iova, s) := by
  simp [dmaTranslate, he]

theorem dmaTranslate_write_of_window (he : s.enabled = true) (hw : windowAddress iova) :
    dmaTranslate s devid iova .write = (.ok (base4K iova) (base4K iova) 0xFFF#64 permsWO, s) := by
  simp [dmaTranslate, he, inIntWindow_iff.mpr hw]

theorem dmaTranslate_read_of_window (he : s.enabled = true) (hw : windowAddress iova) :
    dmaTranslate s devid iova .read = (.denied, s) := by
  simp [dmaTranslate, he, inIntWindow_iff.mpr hw]

theorem dmaTranslate_of_passThrough (he : s.enabled = true) (hw : ¬ windowAddress iova)
    (hr : s.routing devid = .passThrough) : dmaTranslate s devid iova access = (identityResponse iova, s) := by
  simp [dmaTranslate, he, inIntWindow_iff, hw, hr]

/-- A fetch that gives an entry leaves the state alone. -/
theorem fetchDte_of_ok (h : (fetchDte s devid).1 = .ok dte) : fetchDte s devid = (.ok dte, s) := by
  rcases fetchDte_cases s devid with ⟨e, _⟩ | ⟨bs, _, _, ⟨_, e⟩ | ⟨_, _, e⟩ | ⟨_, _, e⟩⟩ <;> simp_all

theorem dmaTranslate_of_reachesWalk (h : reachesWalk s devid iova dte) :
    dmaTranslate s devid iova access = translateWalk s dte devid iova access := by
  obtain ⟨⟨he, hw, hr⟩, hmiss, hfetch⟩ := h
  simp [dmaTranslate, he, inIntWindow_iff, hw, hr, hmiss, fetchDte_of_ok hfetch]

/-- Settles O35: one equation of the request for each of its ends before the IOTLB. -/
theorem translateBypasses : Obligations.TranslateBypasses := by
  intro s devid iova access
  refine ⟨fun he => ?disabled, fun he hw ha => ?windowWrite, fun he hw ha => ?windowRead, fun he hw hr => ?passThrough⟩
  case disabled => rw [dmaTranslate_of_disabled he, identityResponse_eq]
  case windowWrite => exact ha ▸ dmaTranslate_write_of_window he hw
  case windowRead => exact ha ▸ dmaTranslate_read_of_window he hw
  case passThrough => rw [dmaTranslate_of_passThrough he hw hr, identityResponse_eq]

/-! ### A walk that finds no mapping (R186 to R188) -/

theorem translateWalk_of_tvClear_block (h : walk s dte iova = .err .tvClear) (hp : s.cfg.tv0Policy = .block) :
    translateWalk s dte devid iova access = pageFault s devid false access iova := by
  simp [translateWalk, h, hp]

theorem translateWalk_of_tvClear_passThrough (h : walk s dte iova = .err .tvClear)
    (hp : s.cfg.tv0Policy = .passThrough) :
    translateWalk s dte devid iova access = (identityResponse iova, s) := by
  simp [translateWalk, h, hp]

/-- A table that cannot be read aborts the request (R187). -/
theorem translateWalk_of_unreadable {pa : Word}
    (h : walk s dte iova = .err (.rootPointerError pa) ∨ walk s dte iova = .err (.pteFetchError pa)) :
    translateWalk s dte devid iova access = (.targetAbort, logEvent s .pageTabHwError devid 0#12 pa) := by
  rcases h with h | h <;> simp [translateWalk, h]

/-- An address that the tables do not map is a fault of the request (R188). -/
theorem translateWalk_of_unmapped
    (h : (∃ n, walk s dte iova = .noMapping n) ∨ walk s dte iova = .err .modeReserved ∨
      walk s dte iova = .err .iovaOutOfRange ∨ walk s dte iova = .err .largePageSizeInvalid) :
    translateWalk s dte devid iova access = pageFault s devid false access iova := by
  rcases h with ⟨n, h⟩ | h | h | h <;> simp [translateWalk, h]

/-! ### A walk that finds a mapping (R189) -/

theorem translateWalk_of_mapped (h : walk s dte iova = .ok ta size p) :
    translateWalk s dte devid iova access = translateMapped s dte devid iova access ta size p := by
  simp [translateWalk, h]

theorem translateMapped_of_permitted (h : permitted p access) :
    translateMapped s dte devid iova access ta size p =
      (.ok (pageBase iova size) ta (size - 1#64) p, iotlbInsert s devid iova ta size p dte.domainId) :=
  if_pos (allows_iff.mpr h)

theorem translateMapped_of_not_permitted (h : ¬ permitted p access) :
    translateMapped s dte devid iova access ta size p =
      pageFault (iotlbInsert s devid iova ta size p dte.domainId) devid true access iova :=
  if_neg (mt allows_iff.mp h)

/-- Granted or denied, the request leaves the IOTLB as the insertion does: logging the denial does not touch it. -/
theorem translateMapped_iotlb :
    (translateMapped s dte devid iova access ta size p).2.iotlb =
      (iotlbInsert s devid iova ta size p dte.domainId).iotlb := by
  by_cases h : permitted p access
  · rw [translateMapped_of_permitted h]
  · rw [translateMapped_of_not_permitted h, pageFault_eq, logEvent_iotlb]

theorem iotlbLookup_translateMapped (hp : p ≠ permsNone) :
    iotlbLookup (translateMapped s dte devid iova access ta size p).2 devid iova =
      some (insertedEntry devid iova ta size p dte.domainId) := by
  rw [iotlbLookup, translateMapped_iotlb]
  exact iotlbLookup_iotlbInsert hp

end

/-! ### A mapping found grants something (41_page_table_walk R135, R140) -/

theorem perms_of_leafResult_ok {entry ta size : Word} {k : Nat} {p q : Perms}
    (h : leafResult entry k p = .ok ta size q) : q = p := by
  unfold leafResult at h
  split_ifs at h <;> simp_all

theorem walkLoop_ok_perms_ne_none {s : State} {iova ta size : Word} {q : Perms} {k : Nat} {entry : Word} {p : Perms}
    {top : Bool} (h : walkLoop s iova k entry p top = .ok ta size q) : q ≠ permsNone := by
  induction k generalizing entry p top with
  | zero =>
    rw [walkLoop_zero] at h
    split_ifs at h with hnone
    rwa [perms_of_leafResult_ok h]
  | succ k ih =>
    rw [walkLoop_succ] at h
    split_ifs at h with hnone
    · rwa [perms_of_leafResult_ok h]
    · cases hread : memRead s (nextEntryAddr entry iova k) 8 with
      | none => simp [hread] at h
      | some bs => exact ih (by simpa [hread] using h)

theorem walk_ok_perms_ne_none {s : State} {dte : Dte} {iova ta size : Word} {p : Perms}
    (h : walk s dte iova = .ok ta size p) : p ≠ permsNone := by
  unfold walk at h
  split_ifs at h with _ _ _ hnone
  · obtain ⟨_, _, rfl⟩ := WalkResult.ok.inj h
    exact hnone
  · exact walkLoop_ok_perms_ne_none h

/-! ### The statements about a request that reaches the walk -/

/-- Settles O38: the request is the walk's (`dmaTranslate_of_reachesWalk`), with one equation for each kind of result that
maps nothing. -/
theorem translateWalkFailures : Obligations.TranslateWalkFailures := by
  intro s devid iova access dte hreach
  rw [dmaTranslate_of_reachesWalk hreach]
  refine ⟨fun h hp => ?blocked, fun h hp => ?passed, fun _ => translateWalk_of_unreadable, fun h => ?unmapped⟩
  case blocked => rw [translateWalk_of_tvClear_block h hp, pageFault_eq]
  case passed => rw [translateWalk_of_tvClear_passThrough h hp, identityResponse_eq]
  case unmapped => rw [translateWalk_of_unmapped h, pageFault_eq]

/-- Settles O39: the mapping is inserted before the access is judged, and as its permissions are not empty
(`walk_ok_perms_ne_none`) the insertion stores the entry that the lookup then finds. -/
theorem translateCachesTheMapping : Obligations.TranslateCachesTheMapping := by
  intro s devid iova access dte ta size p hreach hwalk
  rw [dmaTranslate_of_reachesWalk hreach, translateWalk_of_mapped hwalk]
  refine ⟨translateMapped_of_permitted, fun h => ?denied, insertedEntry devid iova ta size p dte.domainId,
    iotlbLookup_translateMapped (walk_ok_perms_ne_none hwalk), rfl, rfl, rfl, rfl⟩
  case denied => exact (translateMapped_of_not_permitted h).trans (pageFault_eq ..)

end Sys2Proof.Machine
end

/-! PROOFS. The slots of the command ring that run no command (44_commands R201 to R206): why the decoder rejects words
that a command's Exceptions name, and the one event and head advance that an unreadable or an illegal slot leaves. -/

section
namespace Sys2Proof.Machine

/-! ### The reserved bits of a command as fields (30_encoding R91 to R98) -/

theorem and_or_ne_zero_iff (v m n : Word) : v &&& (m ||| n) ≠ 0#64 ↔ v &&& m ≠ 0#64 ∨ v &&& n ≠ 0#64 := by
  rw [BitVec.and_or_distrib_left, Ne, BitVec.or_eq_zero_iff, not_and_or]

theorem and_fieldMask_ne_zero_iff {lo n : Nat} (h : lo + n ≤ 64) (v : Word) :
    v &&& fieldMask lo n ≠ 0#64 ↔ v.extractLsb' lo n ≠ 0#n :=
  not_congr (and_fieldMask_eq_zero_iff h v)

theorem extractLsb'_one_ne_zero_iff (v : Word) (k : Nat) : v.extractLsb' k 1 ≠ 0#1 ↔ v.getLsbD k = true := by
  rw [Ne, extractLsb'_one_eq_zero_iff, Bool.not_eq_false]

/-- Words that the Exceptions of a recognised opcode name have a bit of that opcode's reserved masks set: opcode by
opcode, the masks are the named fields. -/
theorem meets_reservedMasks_of_illegalByFields {q0 q1 r0 r1 : Word} (hill : illegalByFields q0 q1)
    (hmasks : reservedMasks (opcodeOf q0) = some (r0, r1)) : q0 &&& r0 ≠ 0#64 ∨ q1 &&& r1 ≠ 0#64 := by
  unfold illegalByFields at hill
  unfold reservedMasks opcodeOf at hmasks
  split at hmasks <;> cases hmasks <;> rename_i hop <;> simp only [hop] at hill
  case h_1 =>
    change q0 &&& fieldMask 52 8 ≠ 0#64 ∨ _
    exact .inl ((and_fieldMask_ne_zero_iff (by decide) q0).mpr hill)
  case h_2 | h_5 =>
    change q0 &&& fieldMask 16 44 ≠ 0#64 ∨ q1 &&& BitVec.allOnes 64 ≠ 0#64
    rwa [and_fieldMask_ne_zero_iff (by decide), BitVec.and_allOnes]
  case h_3 =>
    change q0 &&& (fieldMask 20 12 ||| fieldMask 48 12) ≠ 0#64 ∨ q1 &&& fieldMask 3 9 ≠ 0#64
    simpa (disch := decide) only [and_or_ne_zero_iff, and_fieldMask_ne_zero_iff, or_assoc] using hill
  case h_4 =>
    change _ ∨ q1 &&& (fieldMask 1 1 ||| fieldMask 3 1 ||| fieldMask 6 6) ≠ 0#64
    refine .inr ?_
    simpa (disch := decide) only [and_or_ne_zero_iff, and_fieldMask_ne_zero_iff, extractLsb'_one_ne_zero_iff,
      or_assoc] using hill
  case h_6 =>
    change q0 &&& (fieldMask 16 8 ||| fieldMask 52 8) ≠ 0#64 ∨
      q1 &&& (fieldMask 1 1 ||| fieldMask 3 1 ||| fieldMask 5 7) ≠ 0#64
    simpa (disch := decide) only [and_or_ne_zero_iff, and_fieldMask_ne_zero_iff, extractLsb'_one_ne_zero_iff,
      or_assoc] using hill
  case h_7 =>
    change q0 &&& (fieldMask 16 16 ||| fieldMask 52 8) ≠ 0#64 ∨ q1 &&& (fieldMask 0 2 ||| fieldMask 3 29) ≠ 0#64
    simpa (disch := decide) only [and_or_ne_zero_iff, and_fieldMask_ne_zero_iff, or_assoc] using hill
  case h_8 =>
    change q0 &&& fieldMask 0 60 ≠ 0#64 ∨ q1 &&& BitVec.allOnes 64 ≠ 0#64
    rwa [and_fieldMask_ne_zero_iff (by decide), BitVec.and_allOnes]

/-! ### What the decoder rejects (30_encoding R99, 60_exceptions R293) -/

theorem decodeWords_of_reservedMasks_none {q0 q1 : Word} (hmasks : reservedMasks (opcodeOf q0) = none) :
    decodeWords q0 q1 = .error (.unrecognisedOpcode (opcodeOf q0)) := by
  rw [decodeWords, hmasks]

theorem decodeWords_error_of_meets {q0 q1 r0 r1 : Word} (hmasks : reservedMasks (opcodeOf q0) = some (r0, r1))
    (hmeets : q0 &&& r0 ≠ 0#64 ∨ q1 &&& r1 ≠ 0#64) : ∃ e, decodeWords q0 q1 = .error e := by
  cases hops : decodeOperands (opcodeOf q0) q0 q1 with
  | none => exact ⟨.unrecognisedOpcode (opcodeOf q0), by rw [decodeWords, hmasks, hops]⟩
  | some i => exact ⟨.reservedBits (opcodeOf q0), by simp [decodeWords, hmasks, hops, hmeets]⟩

theorem decodeWords_error_of_illegalByFields {q0 q1 : Word} (hill : illegalByFields q0 q1) :
    ∃ e, decodeWords q0 q1 = .error e := by
  cases hmasks : reservedMasks (opcodeOf q0) with
  | none => exact ⟨_, decodeWords_of_reservedMasks_none hmasks⟩
  | some masks => exact decodeWords_error_of_meets hmasks (meets_reservedMasks_of_illegalByFields hill hmasks)

theorem decode_of_length {bs : List Byte} (h : 16 ≤ bs.length) : decode bs = decodeWords (le64 bs 0) (le64 bs 8) :=
  if_neg (Nat.not_lt.mpr h)

/-! ### A round of the drain that runs no command (44_commands R203 to R205) -/

section
variable {s : State}

theorem step_of_drainPending (h : s.drainPending = true) : step s = drainRound s := if_pos h

theorem fetchCommand_of_readFails (h : s.readFails s.cmdAddr 16 = true) : fetchCommand s = none :=
  (memRead_eq_none_iff ..).mpr h

theorem fetchCommand_of_readable (h : s.readFails s.cmdAddr 16 = false) :
    fetchCommand s = some (readBytes s.mem s.cmdAddr 16) :=
  memRead_eq_some_iff.mpr ⟨h, rfl⟩

theorem drainRound_of_unreadable (h : fetchCommand s = none) :
    drainRound s = .next (advanceHead (commandUnreadable s)) := by
  rw [drainRound, h]

theorem drainRound_of_illegal {bs : List Byte} {e : DecodeError} (hfetch : fetchCommand s = some bs)
    (hdecode : decode bs = .error e) : drainRound s = .next (advanceHead (commandIllegal s)) := by
  simp [drainRound, hfetch, hdecode]

/-- Logging moves neither the head nor the ring, so the head advances from where the command stood. -/
theorem advanceHead_logEvent (c : EventCode) (d : DevId) (f : BitVec 12) (a : Word) :
    advanceHead (logEvent s c d f a) =
      (logEvent s c d f a).setReg .cmdHead ((s.cmdHead + 16#64) % s.latched.cmdBytes) := by
  have hhead : (logEvent s c d f a).cmdHead = s.cmdHead := by
    rw [State.cmdHead, State.cmdHead, logEvent_reg _ _ _ _ _ _ (by decide) (by decide)]
  rw [advanceHead, State.cmdNext, hhead, logEvent_latched]

end

/-- Settles O8: the failed read makes the fetch answer none, and the round logs that and advances the head. -/
theorem unreadableCommandIsSkipped : Obligations.UnreadableCommandIsSkipped := by
  intro s hwaiting hfails
  rw [step_of_drainPending hwaiting, drainRound_of_unreadable (fetchCommand_of_readFails hfails), commandUnreadable,
    advanceHead_logEvent, State.cmdAddr]

/-- Settles O9: the sixteen bytes are fetched, the decoder rejects their words (`decodeWords_error_of_illegalByFields`),
and the round logs that and advances the head. -/
theorem illegalCommandIsSkipped : Obligations.IllegalCommandIsSkipped := by
  intro s hwaiting hreadable hillegal
  obtain ⟨e, hwords⟩ := decodeWords_error_of_illegalByFields hillegal
  have hdecode : decode (readBytes s.mem s.cmdAddr 16) = .error e := by
    rw [decode_of_length (length_readBytes ..).ge, hwords]
  rw [step_of_drainPending hwaiting, drainRound_of_illegal (fetchCommand_of_readable hreadable) hdecode,
    commandIllegal, advanceHead_logEvent, State.cmdAddr]

end Sys2Proof.Machine
end

/-! PROOFS. The interrupt request (45_interrupt_remap R241 to R249): the messages answered before the table is read, the
entry of the table as a number in memory, and what the dispatch on the delivery type makes of them. -/

section
namespace Sys2Proof.Machine

/-! ### Words of bytes as numbers (20_memory R52) -/

theorem toNat_append_eq_mul_add {m n : Nat} (x : BitVec m) (y : BitVec n) :
    (x ++ y).toNat = x.toNat * 2 ^ n + y.toNat := by
  rw [BitVec.toNat_append, ← Nat.shiftLeft_add_eq_or_of_lt y.isLt, Nat.shiftLeft_eq]

theorem leNat_of_length_four {bs : List Byte} (h : bs.length = 4) : leNat bs = (le32 bs 0).toNat := by
  match bs, h with
  | [b0, b1, b2, b3], _ =>
    simp only [leNat, le32, byteAt, List.getD_cons_zero, List.getD_cons_succ, toNat_append_eq_mul_add]
    omega

theorem leNat_of_length_eight {bs : List Byte} (h : bs.length = 8) : leNat bs = (le64 bs 0).toNat := by
  match bs, h with
  | [b0, b1, b2, b3, b4, b5, b6, b7], _ =>
    simp only [leNat, le64, byteAt, List.getD_cons_zero, List.getD_cons_succ, toNat_append_eq_mul_add]
    omega

/-! ### The table's entries (30_encoding R86 to R88, R246) -/

/-- In either format the entry is the number its bytes code. -/
theorem irteOfBytes_eq {ga : Bool} {bs : List Byte} (h : bs.length = irteBytes ga) :
    irteOfBytes ga bs = BitVec.ofNat 64 (leNat bs) := by
  cases ga with
  | false => rw [leNat_of_length_four h, BitVec.ofNat_toNat]; rfl
  | true => rw [leNat_of_length_eight h, BitVec.ofNat_toNat, BitVec.setWidth_eq]; rfl

theorem toNat_index (msg : Message) : msg.index.toNat = msg.data.toNat % 2048 := by
  rw [Message.index, BitVec.extractLsb'_toNat, Nat.shiftRight_zero]

theorem irteAddr_eq (ga : Bool) (dte : Dte) (msg : Message) :
    irteAddr ga dte msg =
      (dte.q2 &&& 0x000F_FFFF_FFFF_FFC0#64) + BitVec.ofNat 64 (irteBytes ga * (msg.data.toNat % 2048)) := by
  rw [irteAddr, ← BitVec.ofNat_toNat, ← BitVec.ofNat_mul, toNat_index, Dte.intTabRoot]

theorem irteResolve_legacy (e : Word) :
    irteResolve false e =
      { dest := BitVec.ofNat 32 (e.extractLsb' 8 8).toNat, vector := e.extractLsb' 16 8,
        deliveryMode := e.extractLsb' 2 3, destMode := e.getLsbD 6, redirHint := e.getLsbD 5 } := by
  rw [BitVec.ofNat_toNat]; rfl

theorem irteResolve_ga (e : Word) :
    irteResolve true e =
      { dest := BitVec.ofNat 32 ((e.extractLsb' 56 8).toNat * 2 ^ 24 + (e.extractLsb' 8 24).toNat),
        vector := e.extractLsb' 32 8, deliveryMode := e.extractLsb' 2 3, destMode := e.getLsbD 6,
        redirHint := e.getLsbD 5 } := by
  rw [← toNat_append_eq_mul_add, BitVec.ofNat_toNat, BitVec.setWidth_eq]; rfl

/-! ### The request up to the dispatch (R241, R243, R244) -/

section
variable {s : State} {devid : DevId} {msg : Message} {dte : Dte}

/-- A fetch that gives an entry that is not valid leaves the state alone. -/
theorem fetchDte_of_notValid (h : (fetchDte s devid).1 = .notValid dte) : fetchDte s devid = (.notValid dte, s) := by
  rcases fetchDte_cases s devid with ⟨e, _⟩ | ⟨bs, _, _, ⟨_, e⟩ | ⟨_, _, e⟩ | ⟨_, _, e⟩⟩ <;> simp_all

theorem remapInterrupt_of_disabled (he : s.enabled = false) : remapInterrupt s devid msg = (.passed msg, s) := by
  simp [remapInterrupt, he]

theorem remapInterrupt_of_notValid (he : s.enabled = true) (hf : (fetchDte s devid).1 = .notValid dte) :
    remapInterrupt s devid msg = (.passed msg, s) := by
  simp [remapInterrupt, he, fetchDte_of_notValid hf]

theorem remapInterrupt_of_err {r : FaultReason} (he : s.enabled = true) (hf : (fetchDte s devid).1 = .err r) :
    remapInterrupt s devid msg = (.err r, (fetchDte s devid).2) := by
  have hpair : fetchDte s devid = (.err r, (fetchDte s devid).2) := by rw [← hf]
  rw [remapInterrupt, he, hpair]; rfl

theorem remapInterrupt_of_ok (he : s.enabled = true) (hf : (fetchDte s devid).1 = .ok dte) :
    remapInterrupt s devid msg = (if dte.intValid then remapByType s dte msg else .passed msg, s) := by
  cases hiv : dte.intValid <;> simp [remapInterrupt, he, fetchDte_of_ok hf, hiv]

theorem remapInterrupt_of_intValid (he : s.enabled = true) (hf : (fetchDte s devid).1 = .ok dte)
    (hiv : dte.intValid = true) : remapInterrupt s devid msg = (remapByType s dte msg, s) := by
  rw [remapInterrupt_of_ok he hf, if_pos hiv]

/-! ### The dispatch on the delivery type (R245) -/

theorem remapByType_of_fixed_or_arbitrated (h : msg.deliveryType.toNat = 0 ∨ msg.deliveryType.toNat = 1) :
    remapByType s dte msg = remapThroughTable s dte msg := by
  rcases h with h | h <;> simp only [remapByType, h]

theorem remapByType_of_nmi (h : msg.deliveryType.toNat = 4) :
    remapByType s dte msg = remapByPassBit dte.nmiPass msg := by simp only [remapByType, h]

theorem remapByType_of_init (h : msg.deliveryType.toNat = 5) :
    remapByType s dte msg = remapByPassBit dte.initPass msg := by simp only [remapByType, h]

theorem remapByType_of_extInt (h : msg.deliveryType.toNat = 7) :
    remapByType s dte msg = remapByPassBit dte.eintPass msg := by simp only [remapByType, h]

theorem remapByType_of_unsupported
    (h : msg.deliveryType.toNat = 2 ∨ msg.deliveryType.toNat = 3 ∨ msg.deliveryType.toNat = 6) :
    remapByType s dte msg = .err .intTypeUnsupported := by
  rcases h with h | h | h <;> simp only [remapByType, h]

/-! ### The table (R246 to R248) -/

theorem remapThroughTable_of_unreadable
    (h : s.readFails (irteAddr s.gaEnabled dte msg) (irteBytes s.gaEnabled) = true) :
    remapThroughTable s dte msg = .err .irteFetchError := by
  rw [remapThroughTable, (memRead_eq_none_iff ..).mpr h]

/-- A readable entry is checked and resolved as the number that stands at its address. -/
theorem remapThroughTable_of_readable {e : Word}
    (h : s.readFails (irteAddr s.gaEnabled dte msg) (irteBytes s.gaEnabled) = false)
    (he : e = BitVec.ofNat 64 (leNat (readBytes s.mem (irteAddr s.gaEnabled dte msg) (irteBytes s.gaEnabled)))) :
    remapThroughTable s dte msg =
      if e.getLsbD 0 = false then .err .irteRemapDisabled
      else if e.getLsbD 7 = true then .err .irteGuestMode
      else if 1 < (e.extractLsb' 2 3).toNat then .err .irteTypeReserved
      else .resolved (irteResolve s.gaEnabled e) := by
  rw [← irteOfBytes_eq (length_readBytes ..)] at he
  simp only [remapThroughTable, memRead_eq_some_iff.mpr ⟨h, rfl⟩, ← he, irteRemapEn, irteGuestMode, irteIntType,
    Bool.not_eq_true', BitVec.lt_def, BitVec.toNat_ofNat, Nat.reducePow, Nat.reduceMod]

end

/-! ### What the answer depends on (R240, R242) -/

section
variable {s t : State} {devid : DevId} {msg : Message}

theorem fetchDte_fst_congr (hbase : t.latched.devtabBase = s.latched.devtabBase)
    (hbytes : t.latched.devtabBytes = s.latched.devtabBytes) (hm : t.mem = s.mem) (hf : t.memFails = s.memFails)
    (hcfg : t.cfg.dmaRemapSupported = s.cfg.dmaRemapSupported) :
    (fetchDte t devid).1 = (fetchDte s devid).1 := by
  have hbeyond : t.beyondDevtab devid = s.beyondDevtab devid := by rw [State.beyondDevtab, State.beyondDevtab, hbytes]
  have haddr : t.dteAddr devid = s.dteAddr devid := by rw [State.dteAddr, State.dteAddr, hbase]
  have hread : memRead t (t.dteAddr devid) 32 = memRead s (s.dteAddr devid) 32 := by rw [haddr, memRead_congr hm hf]
  have hillegal (d : Dte) : t.dteIllegal d = s.dteIllegal d := by rw [State.dteIllegal, State.dteIllegal, hcfg]
  rw [fetchDte, fetchDte, hbeyond, hread]
  split_ifs
  · rfl
  · cases memRead s (s.dteAddr devid) 32 with
    | none => rfl
    | some bs => simp only [hillegal]; split_ifs <;> rfl

theorem remapByType_congr (hc : t.reg .control = s.reg .control) (hm : t.mem = s.mem) (hf : t.memFails = s.memFails)
    (dte : Dte) : remapByType t dte msg = remapByType s dte msg := by
  have hga : t.gaEnabled = s.gaEnabled := controlFlag_congr hc _
  have htable : remapThroughTable t dte msg = remapThroughTable s dte msg := by
    rw [remapThroughTable, remapThroughTable, hga, memRead_congr hm hf]
  rw [remapByType, remapByType, htable]

end

/-! ### The statements about the interrupt request -/

/-- Settles O43: the dispatch sends the message to the table, whose entry the statement's `a` and `e` name, and in each
format the resolved fields are those of `irteResolve`. -/
theorem remapResolvesThroughTheTable : Obligations.RemapResolvesThroughTheTable := by
  intro s devid msg dte n a e hen hfetch hiv htype hn ha he
  obtain rfl : irteBytes s.gaEnabled = n := hn.symm
  obtain rfl : irteAddr s.gaEnabled dte msg = a := (irteAddr_eq ..).trans ha.symm
  rw [remapInterrupt_of_intValid hen hfetch hiv, remapByType_of_fixed_or_arbitrated htype]
  cases hread : s.readFails (irteAddr s.gaEnabled dte msg) (irteBytes s.gaEnabled) with
  | true => rw [remapThroughTable_of_unreadable hread, if_pos rfl]
  | false =>
    rw [remapThroughTable_of_readable hread he, if_neg Bool.false_ne_true]
    cases s.gaEnabled with
    | false => rw [irteResolve_legacy, if_neg Bool.false_ne_true]
    | true => rw [irteResolve_ga, if_pos rfl]

/-- Settles O45: the two fetches answer alike, and from the same entry so do the two dispatches. -/
theorem remapIgnoresRoutingAndIotlb : Obligations.RemapIgnoresRoutingAndIotlb := by
  intro s t devid msg hc hbase hbytes hm hf hcfg
  have hen : t.enabled = s.enabled := controlFlag_congr hc _
  have hfetch : (fetchDte t devid).1 = (fetchDte s devid).1 := fetchDte_fst_congr hbase hbytes hm hf hcfg
  cases he : s.enabled with
  | false => rw [remapInterrupt_of_disabled he, remapInterrupt_of_disabled (hen.trans he)]
  | true =>
    have he' : t.enabled = true := hen.trans he
    cases h : (fetchDte s devid).1 with
    | notValid dte => rw [remapInterrupt_of_notValid he h, remapInterrupt_of_notValid he' (hfetch.trans h)]
    | err r => rw [remapInterrupt_of_err he h, remapInterrupt_of_err he' (hfetch.trans h)]
    | ok dte =>
      rw [remapInterrupt_of_ok he h, remapInterrupt_of_ok he' (hfetch.trans h), remapByType_congr hc hm hf]

/-- Settles O42: one equation of the request for each of its ends before the dispatch. -/
theorem remapPassesOrFailsBeforeTheTable : Obligations.RemapPassesOrFailsBeforeTheTable := by
  intro s devid msg
  refine ⟨remapInterrupt_of_disabled, fun he _ => remapInterrupt_of_notValid he,
    fun he _ => remapInterrupt_of_err he, fun he dte hfetch hiv => ?notRemapped⟩
  case notRemapped =>
    have hiv : ¬ dte.intValid = true := (Bool.not_eq_true _).mpr hiv
    rw [remapInterrupt_of_ok he hfetch, if_neg hiv]

/-- Settles O44: the request is the dispatch's, with one equation for each delivery type that does not use the table. -/
theorem remapConsultsThePassBits : Obligations.RemapConsultsThePassBits := by
  rintro s devid msg dte ty hen hfetch hiv rfl
  rw [remapInterrupt_of_intValid hen hfetch hiv]
  refine ⟨fun h => ?nmi, fun h => ?init, fun h => ?extInt, fun h => ?unsupported⟩
  case nmi => rw [remapByType_of_nmi h]; rfl
  case init => rw [remapByType_of_init h]; rfl
  case extInt => rw [remapByType_of_extInt h]; rfl
  case unsupported => rw [remapByType_of_unsupported h]

end Sys2Proof.Machine
end

/-! PROOFS. Register writes (46_mmio R266 to R279): what the store phase leaves in each bit of the register it falls in,
and from that bit rule the writes of the base registers, the pointer registers and `STATUS`. -/

section
namespace Sys2Proof.Machine

/-! ### The register an accepted access falls in (10_state R13, 20_memory R54) -/

theorem mmioAccessOk_iff {o z : Nat} : mmioAccessOk o z = true ↔ acceptedAccess o z := by
  simp only [mmioAccessOk, acceptedAccess, Bool.and_eq_true, Bool.or_eq_true, beq_iff_eq, decide_eq_true_iff, or_assoc,
    and_assoc]
  exact Iff.rfl

theorem RegName.offset_mod (n : RegName) : n.offset % 8 = 0 := by cases n <;> rfl

theorem RegName.offset_inj {m n : RegName} (h : m.offset = n.offset) : m = n :=
  (by decide : ∀ m ∈ RegName.all, ∀ n ∈ RegName.all, m.offset = n.offset → m = n) m m.mem_all n n.mem_all h

theorem regHolding_eq_some_iff {o : Nat} {n : RegName} : regHolding o = some n ↔ n.offset = o / 8 * 8 := by
  have offset_of_holding {m : RegName} (h : regHolding o = some m) : m.offset = o / 8 * 8 := by
    simpa using List.find?_some h
  refine ⟨offset_of_holding, fun hn => ?holds⟩
  case holds =>
    cases h : regHolding o with
    | none => exact absurd hn (regHolding_eq_none.mp h n)
    | some m => rw [RegName.offset_inj ((offset_of_holding h).trans hn.symm)]

theorem regHolding_offset_add (n : RegName) {i : Nat} (hi : i < 8) : regHolding (n.offset + i) = some n := by
  have := n.offset_mod
  exact regHolding_eq_some_iff.mpr (by omega)

/-! ### The store phase bit by bit (10_state R12) -/

/-- What a bit of a register holds after a host write of `new` over `old`: `mergeByte` for one bit. -/
def mergeBit (old new ro w1c : Bool) : Bool := ((old && (ro || w1c)) || (new && !ro)) && !(new && w1c)

/-- Where nothing is cleared by writing 1 and a read-only bit is 0, a write stores its writable bits. -/
theorem mergeBit_of_clear {old ro : Bool} (new : Bool) (h : (old && ro) = false) :
    mergeBit old new ro false = (new && !ro) := by
  simp [mergeBit, h]

/-- A read-only bit can only be cleared, by writing 1 where its write-one-to-clear mask is set. -/
theorem mergeBit_of_readOnly (old new w1c : Bool) : mergeBit old new true w1c = (old && !(new && w1c)) := by
  simp [mergeBit]

theorem getLsbD_mergeByte (old new ro w1c : Byte) {j : Nat} (hj : j < 8) :
    (mergeByte old new ro w1c).getLsbD j =
      mergeBit (old.getLsbD j) (new.getLsbD j) (ro.getLsbD j) (w1c.getLsbD j) := by
  simp [mergeByte, mergeBit, hj]

theorem getLsbD_wordByte (v : Word) (i : Nat) {j : Nat} (hj : j < 8) :
    (wordByte v i).getLsbD j = v.getLsbD (8 * i + j) := by
  simp [wordByte, hj]

/-- One byte stored: the bits of that byte are merged by the masks, the others stay. -/
theorem getLsbD_storeRegByte (s : State) (n : RegName) (b : Byte) {i j : Nat} (hi : i < 8) (hj : j < 64) :
    ((storeRegByte s (n.offset + i) b).reg n).getLsbD j =
      if j / 8 = i then
        mergeBit ((s.reg n).getLsbD j) (b.getLsbD (j % 8)) (n.ro.getLsbD j) (n.w1c.getLsbD j)
      else (s.reg n).getLsbD j := by
  have hn := regHolding_offset_add n hi
  have hbyte : (n.offset + i) % 8 = i := by have := n.offset_mod; omega
  have hreg : (storeRegByte s (n.offset + i) b).reg n =
      withByte (s.reg n) i (mergeByte (wordByte (s.reg n) i) b (wordByte n.ro i) (wordByte n.w1c i)) := by
    simp [storeRegByte, State.mmioByte, roByte, w1cByte, hn, hbyte]
  rw [hreg, getLsbD_withByte _ _ _ _ hj]
  split_ifs with h
  · have hlt : j % 8 < 8 := by omega
    have hbit : 8 * i + j % 8 = j := by omega
    simp only [getLsbD_mergeByte _ _ _ _ hlt, getLsbD_wordByte _ _ hlt, hbit]
  · rfl

/-- Bytes stored inside one register, from its byte `i` on: the bits they cover are merged by the masks, the others
stay. -/
theorem getLsbD_storeRegBytes (n : RegName) {j : Nat} (hj : j < 64) (bs : List Byte) : ∀ (s : State) (i : Nat),
    i + bs.length ≤ 8 →
    ((storeRegBytes s (n.offset + i) bs).reg n).getLsbD j =
      if i ≤ j / 8 ∧ j / 8 < i + bs.length then
        mergeBit ((s.reg n).getLsbD j) ((byteAt bs (j / 8 - i)).getLsbD (j % 8)) (n.ro.getLsbD j) (n.w1c.getLsbD j)
      else (s.reg n).getLsbD j := by
  induction bs with
  | nil =>
    intro s i _
    rw [storeRegBytes, if_neg (by simp)]
  | cons b bs ih =>
    intro s i hfit
    rw [List.length_cons] at hfit ⊢
    rw [storeRegBytes, Nat.add_assoc n.offset, ih _ _ (by omega), getLsbD_storeRegByte s n b (by omega) hj]
    by_cases hfirst : j / 8 = i
    · rw [if_neg (by omega), if_pos hfirst, if_pos (by omega), hfirst, Nat.sub_self]
      rfl
    · rw [if_neg hfirst]
      by_cases hrest : i + 1 ≤ j / 8 ∧ j / 8 < i + 1 + bs.length
      · have htail : byteAt (b :: bs) (j / 8 - i) = byteAt bs (j / 8 - (i + 1)) := by
          rw [show j / 8 - i = j / 8 - (i + 1) + 1 by omega]
          rfl
        rw [if_pos hrest, if_pos (by omega), htail]
      · rw [if_neg hrest, if_neg (by omega)]

/-! ### What an accepted write stores -/

section
variable {o z : Nat} {n : RegName}

/-- An accepted access stays inside one aligned group of eight bytes. -/
theorem acceptedAccess.mod_add_le (h : acceptedAccess o z) : o % 8 + z ≤ 8 := by
  obtain ⟨rfl | rfl | rfl | rfl, halign, _⟩ := h <;> omega

theorem acceptedAccess.mod_eq_zero (h : acceptedAccess o 8) : o % 8 = 0 := h.2.1

/-- The store phase of an accepted write: a bit that the access covers is merged with the written value's bit. -/
theorem getLsbD_store (s : State) (v : Word) (h : acceptedAccess o z) (hn : n.offset = o / 8 * 8) {j : Nat}
    (hj : j < 64) :
    ((storeRegBytes s o (lowBytes v z)).reg n).getLsbD j =
      if 8 * (o % 8) ≤ j ∧ j < 8 * (o % 8) + 8 * z then
        mergeBit ((s.reg n).getLsbD j) (v.getLsbD (j - 8 * (o % 8))) (n.ro.getLsbD j) (n.w1c.getLsbD j)
      else (s.reg n).getLsbD j := by
  have hfit := h.mod_add_le
  have hstore := getLsbD_storeRegBytes n hj (lowBytes v z) s (o % 8) (by rwa [length_lowBytes])
  rw [show n.offset + o % 8 = o by omega, length_lowBytes] at hstore
  rw [hstore]
  by_cases hin : 8 * (o % 8) ≤ j ∧ j < 8 * (o % 8) + 8 * z
  · have hbit : 8 * (j / 8 - o % 8) + j % 8 = j - 8 * (o % 8) := by omega
    rw [if_pos (by omega), if_pos hin, byteAt_lowBytes _ _ _ (by omega), getLsbD_wordByte _ _ (by omega), hbit]
  · rw [if_neg (by omega), if_neg hin]

/-- The store phase of an accepted write leaves every register but the one it falls in. -/
theorem store_sameRegsBut (s : State) (v : Word) (h : acceptedAccess o z) (hn : n.offset = o / 8 * 8) :
    sameRegsBut [n] s (storeRegBytes s o (lowBytes v z)) := by
  intro m hm
  refine storeRegBytes_reg_other _ _ _ fun k hk => ?_
  rw [length_lowBytes] at hk
  rw [regHolding_add (mmioAccessOk_iff.mpr h) hk, regHolding_eq_some_iff.mpr hn]
  exact fun hnm => hm (List.mem_singleton.mpr (Option.some.inj hnm).symm)

/-- The store phase changes registers only. -/
theorem store_frame (s : State) (v : Word) (o z : Nat) :
    sameSurroundings s (storeRegBytes s o (lowBytes v z)) ∧ sameHidden s (storeRegBytes s o (lowBytes v z)) ∧
      (storeRegBytes s o (lowBytes v z)).mem = s.mem ∧ (storeRegBytes s o (lowBytes v z)).trace = s.trace := by
  simp [sameSurroundings, sameHidden, State.routing]

/-- The bits that a good state's register cannot hold are clear (10_state R14 to R22). -/
theorem reg_and_not_live {s : State} (hgood : s.good = true) (n : RegName) : s.reg n &&& ~~~n.live = 0#64 := by
  have hfield : regsInField s = true := by
    simp only [State.good, Bool.and_eq_true] at hgood
    obtain ⟨⟨⟨⟨-, hfield⟩, -⟩, -⟩, -⟩ := hgood
    exact hfield
  simpa using List.all_eq_true.mp hfield n n.mem_all

/-- A register without write-one-to-clear bits holds exactly its writable bits of a value written whole. -/
theorem store_whole {s : State} (v : Word) (hgood : s.good = true) (h : acceptedAccess o 8) (hn : n.offset = o / 8 * 8)
    (hns : n ≠ .status) : (storeRegBytes s o (lowBytes v 8)).reg n = v &&& n.live := by
  have hmasks : n.live = ~~~n.ro ∧ n.w1c = 0#64 := by
    cases n with
    | status => exact absurd rfl hns
    | _ => exact ⟨rfl, rfl⟩
  obtain ⟨hlive, hw1c⟩ := hmasks
  refine BitVec.eq_of_getLsbD_eq fun j hj => ?_
  have hclear : ((s.reg n).getLsbD j && n.ro.getLsbD j) = false := by
    have hbit := congrArg (BitVec.getLsbD · j) (reg_and_not_live hgood n)
    simpa [hlive, hj] using hbit
  rw [getLsbD_store s v h hn hj, h.mod_eq_zero, if_pos (by omega), hw1c, hlive, BitVec.getLsbD_zero,
    mergeBit_of_clear _ hclear]
  simp [hj]

/-! ### The write by the register it falls in (46_mmio R270, R279) -/

theorem mmioWriteStore_eq_triggerReg (s : State) (v : Word) (h : acceptedAccess o z) (hn : n.offset = o / 8 * 8) :
    mmioWriteStore s o z v = triggerReg (storeRegBytes s o (lowBytes v z)) n (o + z == n.offset + 8) := by
  simp [mmioWriteStore, mmioAccessOk_iff.mpr h, regHolding_eq_some_iff.mpr hn, hn]

theorem mmioWrite_of_register (s : State) (v : Word) (h : acceptedAccess o z) (hn : n.offset = o / 8 * 8) :
    mmioWrite s o z v =
      if n.drains then drain (triggerReg (storeRegBytes s o (lowBytes v z)) n (o + z == n.offset + 8))
      else .next (triggerReg (storeRegBytes s o (lowBytes v z)) n (o + z == n.offset + 8)) := by
  simp [mmioWrite, mmioWriteDrains, mmioAccessOk_iff.mpr h, regHolding_eq_some_iff.mpr hn,
    mmioWriteStore_eq_triggerReg s v h hn]

end

/-! ### The base registers (R271 to R273) -/

theorem ringBytes_eq (v : Word) : ringBytes v = BitVec.ofNat 64 (16 * 2 ^ (v.extractLsb' 56 4).toNat) :=
  BitVec.eq_of_toNat_eq (by simp [ringBytes, Nat.shiftLeft_eq])

theorem devtabBytesOf_eq (v : Word) : devtabBytesOf v = BitVec.ofNat 64 ((v.toNat % 512 + 1) * 4096) :=
  BitVec.eq_of_toNat_eq (by simp [devtabBytesOf])

theorem triggerDevtabBase_latched (s : State) :
    (triggerDevtabBase s).latched = { s.latched with
      devtabBase := s.reg .devtabBase &&& 0x000F_FFFF_FFFF_F000#64
      devtabBytes := BitVec.ofNat 64 (((s.reg .devtabBase).toNat % 512 + 1) * 4096) } := by
  rw [← devtabBytesOf_eq]
  rfl

theorem triggerCmdBase_latched (s : State) :
    (triggerCmdBase s).latched = { s.latched with
      cmdBase := s.reg .cmdBase &&& 0x000F_FFFF_FFFF_F000#64
      cmdBytes := BitVec.ofNat 64 (16 * 2 ^ ((s.reg .cmdBase).extractLsb' 56 4).toNat) } := by
  rw [← ringBytes_eq]
  rfl

theorem triggerEvtBase_latched (s : State) :
    (triggerEvtBase s).latched = { s.latched with
      evtBase := s.reg .evtBase &&& 0x000F_FFFF_FFFF_F000#64
      evtBytes := BitVec.ofNat 64 (16 * 2 ^ ((s.reg .evtBase).extractLsb' 56 4).toNat) } := by
  rw [← ringBytes_eq]
  rfl

theorem triggerCmdBase_reg (s : State) (m : RegName) :
    (triggerCmdBase s).reg m = if m = .cmdTail then 0#64 else if m = .cmdHead then 0#64 else s.reg m := by
  rw [triggerCmdBase, setReg_reg, setReg_reg]
  rfl

theorem triggerEvtBase_reg (s : State) (m : RegName) :
    (triggerEvtBase s).reg m = if m = .evtTail then 0#64 else if m = .evtHead then 0#64 else s.reg m := by
  rw [triggerEvtBase, setReg_reg, setReg_reg]
  rfl

/-- Two more registers set to zero widen a frame by the two. -/
theorem sameRegsBut.zeroed {s t u : State} {m head tail : RegName} (h : sameRegsBut [m] s t)
    (hu : ∀ k, u.reg k = if k = tail then 0#64 else if k = head then 0#64 else t.reg k) :
    sameRegsBut [m, head, tail] s u := by
  intro k hk
  simp only [List.mem_cons, List.not_mem_nil, or_false, not_or] at hk
  obtain ⟨hm, hhead, htail⟩ := hk
  rw [hu, if_neg htail, if_neg hhead, h k (by simpa using hm)]

/-- Settles O50: such a write is the store phase, whose value `store_whole` names for a whole write, and then the base
register's trigger; what stays is what both leave alone. -/
theorem baseWritesLatch : Obligations.BaseWritesLatch := by
  intro s o z v n hgood h hn hlast
  have hwrite := mmioWrite_of_register s v h hn
  have hother := store_sameRegsBut s v h hn
  have hlatched := storeRegBytes_latched s o (lowBytes v z)
  obtain ⟨-, hhidden, hmem, htrace⟩ := store_frame s v o z
  have hwhole (hz : z = 8) (hns : n ≠ .status) : (storeRegBytes s o (lowBytes v z)).reg n = v &&& n.live := by
    subst hz
    exact store_whole v hgood h hn hns
  rw [beq_iff_eq.mpr hlast] at hwrite
  refine ⟨?devtab, ?cmd, ?evt⟩
  case devtab =>
    rintro rfl
    exact ⟨_, hwrite, rfl, fun hz => hwhole hz (by decide), (triggerDevtabBase_latched _).trans (by rw [hlatched]; rfl),
      hother, hhidden, hmem, htrace⟩
  case cmd =>
    rintro rfl
    exact ⟨_, hwrite, rfl, fun hz => hwhole hz (by decide), (triggerCmdBase_latched _).trans (by rw [hlatched]; rfl),
      rfl, rfl, hother.zeroed (triggerCmdBase_reg _), hhidden, hmem, htrace⟩
  case evt =>
    rintro rfl
    exact ⟨_, hwrite, rfl, fun hz => hwhole hz (by decide), (triggerEvtBase_latched _).trans (by rw [hlatched]; rfl),
      rfl, rfl, hother.zeroed (triggerEvtBase_reg _), hhidden, hmem, htrace⟩

/-! ### The pointer registers (R275 to R277) -/

/-- A pointer register's write, reduced modulo a ring of `bytes`. -/
theorem reducePointer_store {s t : State} {o z : Nat} {v bytes : Word} {n : RegName} (h : acceptedAccess o z)
    (hn : n.offset = o / 8 * 8) (hlive : n.live = pointerField)
    (ht : t = reducePointer (storeRegBytes s o (lowBytes v z)) n bytes) :
    t.reg n = (storeRegBytes s o (lowBytes v z)).reg n &&& (bytes - 1#64) ∧
      (s.good = true → z = 8 → t.reg n = v &&& 0x7FFF0#64 &&& (bytes - 1#64)) ∧
      sameRegsBut [n] s t ∧ sameSurroundings s t ∧ sameHidden s t ∧ t.mem = s.mem ∧ t.trace = s.trace := by
  have hreg : t.reg n = (storeRegBytes s o (lowBytes v z)).reg n &&& (bytes - 1#64) := by
    rw [ht, reducePointer, setReg_reg, if_pos rfl]
  refine ⟨hreg, fun hgood hz => ?whole, fun m hm => ?others, ht ▸ store_frame s v o z⟩
  case whole =>
    subst hz
    have hns : n ≠ .status := by rintro rfl; exact absurd hlive (by decide)
    rw [hreg, store_whole v hgood h hn hns, hlive, pointerField]
  case others =>
    rw [ht, reducePointer, setReg_reg, if_neg (by simpa using hm)]
    exact store_sameRegsBut s v h hn m hm

/-- Settles O53: all four pointer registers are one case of `reducePointer_store` each, with their ring's size. -/
theorem pointerWritesStayInTheRing : Obligations.PointerWritesStayInTheRing := by
  intro s o z v n h hn
  have hwrite := mmioWrite_of_register s v h hn
  have hlatched := storeRegBytes_latched s o (lowBytes v z)
  refine ⟨?command, ?event⟩
  case command =>
    rintro (rfl | rfl) <;>
      exact ⟨_, hwrite, reducePointer_store h hn rfl (by rw [triggerReg, hlatched])⟩
  case event =>
    rintro (rfl | rfl) <;>
      exact ⟨_, hwrite, reducePointer_store h hn rfl (by rw [triggerReg, hlatched])⟩

/-! ### `STATUS` (R278) -/

/-- The written value's bits where they fall in the register. -/
theorem getLsbD_written (v : Word) (o z : Nat) {j : Nat} (hj : j < 64) :
    (BitVec.ofNat 64 (v.toNat % 2 ^ (8 * z)) <<< (8 * (o % 8))).getLsbD j =
      (decide (8 * (o % 8) ≤ j ∧ j < 8 * (o % 8) + 8 * z) && v.getLsbD (j - 8 * (o % 8))) := by
  have hlow (k : Nat) (hk : k < 64) :
      (BitVec.ofNat 64 (v.toNat % 2 ^ (8 * z))).getLsbD k = (decide (k < 8 * z) && v.getLsbD k) := by
    rw [BitVec.getLsbD_ofNat, decide_eq_true hk, Bool.true_and, Nat.testBit_mod_two_pow, BitVec.testBit_toNat]
  rw [BitVec.getLsbD_shiftLeft, decide_eq_true hj, Bool.true_and, hlow _ (by omega), ← Bool.and_assoc]
  congr 1
  rw [Bool.eq_iff_iff, Bool.and_eq_true, Bool.not_eq_true', decide_eq_false_iff_not, decide_eq_true_iff,
    decide_eq_true_iff]
  omega

/-- Settles O54: `STATUS` has no trigger, and as it is read-only throughout, a bit is cleared or kept. -/
theorem statusWriteClearsWrittenOnes : Obligations.StatusWriteClearsWrittenOnes := by
  intro s o z v h ho
  have hn : RegName.status.offset = o / 8 * 8 := ho.symm
  refine ⟨_, mmioWrite_of_register s v h hn, ?stored, store_sameRegsBut s v h hn, store_frame s v o z⟩
  case stored =>
    refine BitVec.eq_of_getLsbD_eq fun j hj => ?_
    have hro : RegName.status.ro.getLsbD j = true := by
      rw [show RegName.status.ro = BitVec.allOnes 64 from rfl, BitVec.getLsbD_allOnes, decide_eq_true hj]
    rw [BitVec.getLsbD_and, BitVec.getLsbD_not, decide_eq_true hj, Bool.true_and, BitVec.getLsbD_and,
      getLsbD_written v o z hj]
    refine (getLsbD_store s v h hn hj).trans ?_
    rw [hro, mergeBit_of_readOnly]
    split_ifs with hin
    · rw [decide_eq_true hin, Bool.true_and]
      rfl
    · rw [decide_eq_false hin, Bool.false_and, Bool.false_and, Bool.not_false, Bool.and_true]

end Sys2Proof.Machine
end


/-! PROOFS. The event log (60_exceptions R300 to R304): where an entry's fields stand, and what `LogEvent` leaves with
logging off, in a full log and in a log with room. -/

section
namespace Sys2Proof.Machine

/-! ### An entry's fields (R302, 30_encoding R100) -/

section
variable (c : EventCode) (devid : DevId) (flags : BitVec 12) (addr : Word)

/-- The entry's first word read from the top: code, flags, zeros, device id. -/
theorem eventWord0_eq_append : eventWord0 c devid flags = c.number ++ flags ++ 0#32 ++ devid := by
  refine BitVec.eq_of_getLsbD_eq fun j hj => ?_
  simp only [eventWord0, BitVec.getLsbD_or, BitVec.getLsbD_setWidth, BitVec.getLsbD_shiftLeft, BitVec.getLsbD_append,
    BitVec.getLsbD_zero]
  by_cases hdevid : j < 16
  · simp [hdevid, hj]; omega
  · have hnoDevid : devid.getLsbD j = false := BitVec.getLsbD_of_ge _ _ (by omega)
    by_cases hzeros : j < 48
    · simp [hdevid, hnoDevid, hzeros, show j - 16 < 32 by omega]
    · have habove : ¬ j - 16 < 32 ∧ j - 16 - 32 = j - 48 ∧ j - 48 < 64 ∧ j - 48 < 16 := by omega
      by_cases hflags : j - 48 < 12
      · simp [hdevid, hnoDevid, hj, hzeros, habove, hflags]
      · have hnoFlags : flags.getLsbD (j - 48) = false := BitVec.getLsbD_of_ge _ _ (by omega)
        simp [hdevid, hnoDevid, hj, hzeros, habove, hflags, hnoFlags, show j - 48 - 12 < 16 by omega]

theorem eventWord0_devid : (eventWord0 c devid flags).extractLsb' 0 16 = devid := by
  rw [eventWord0_eq_append, BitVec.extractLsb'_append_eq_right]

theorem eventWord0_zeros : (eventWord0 c devid flags).extractLsb' 16 32 = 0#32 := by
  rw [eventWord0_eq_append, BitVec.extractLsb'_append_eq_of_le (by decide), BitVec.extractLsb'_append_eq_right]

theorem eventWord0_flags : (eventWord0 c devid flags).extractLsb' 48 12 = flags := by
  rw [eventWord0_eq_append, BitVec.extractLsb'_append_eq_of_le (by decide),
    BitVec.extractLsb'_append_eq_of_le (by decide), BitVec.extractLsb'_append_eq_right]

theorem eventWord0_code : (eventWord0 c devid flags).extractLsb' 60 4 = c.number := by
  rw [eventWord0_eq_append, BitVec.extractLsb'_append_eq_of_le (by decide),
    BitVec.extractLsb'_append_eq_of_le (by decide), BitVec.extractLsb'_append_eq_left]

theorem le64_eventBytes_word0 : le64 (eventBytes c devid flags addr) 0 = eventWord0 c devid flags := by
  rw [eventBytes, ← List.append_nil (wordBytes _ ++ wordBytes _), le64_append_left]

theorem le64_eventBytes_addr : le64 (eventBytes c devid flags addr) 8 = addr := by
  rw [eventBytes, ← List.append_nil (wordBytes _ ++ wordBytes _), le64_append_right]

theorem length_eventBytes : (eventBytes c devid flags addr).length = 16 := by
  rw [eventBytes, List.length_append, length_wordBytes, length_wordBytes]

end

/-! ### A state whose `STATUS` has one bit replaced -/

theorem sameStatusBut_of_withBit {s t : State} {f : StatusFlag} {b : Bool}
    (h : t.reg .status = withBit (s.reg .status) f.bit b) : sameStatusBut [f.bit] s t := fun j hj => by
  rw [h, getLsbD_withBit _ _ _ f.bit_lt, if_neg (by simpa using hj)]

theorem statusFlag_of_withBit {s t : State} {f : StatusFlag} {b : Bool}
    (h : t.reg .status = withBit (s.reg .status) f.bit b) : t.statusFlag f = b := by
  rw [State.statusFlag, h, getLsbD_withBit _ _ _ f.bit_lt, if_pos rfl]

/-! ### What no event touches -/

section
variable (s : State) (c : EventCode) (devid : DevId) (flags : BitVec 12) (addr : Word)

theorem logEvent_sameSurroundings : sameSurroundings s (logEvent s c devid flags addr) :=
  ⟨logEvent_cfg .., logEvent_latched .., logEvent_memFails .., logEvent_inputs .., logEvent_responses ..⟩

theorem logEvent_sameHidden : sameHidden s (logEvent s c devid flags addr) :=
  ⟨logEvent_iotlb .., logEvent_routing s c devid flags addr⟩

theorem logEvent_sameOutside :
    sameOutside (s.latched.evtBase + s.evtTail) 16 s (logEvent s c devid flags addr) :=
  logEvent_readByte s c devid flags addr

theorem logEvent_sameRegsBut : sameRegsBut [.evtTail, .status] s (logEvent s c devid flags addr) := fun n hn => by
  obtain ⟨htail, hstatus⟩ : n ≠ .evtTail ∧ n ≠ .status := by simpa using hn
  exact logEvent_reg s c devid flags addr n htail hstatus

end

/-! ### `LogEvent` by the enable and the room (R301) -/

section
variable {s : State} (c : EventCode) (devid : DevId) (flags : BitVec 12) (addr : Word)

theorem logEvent_of_disabled (h : s.evtlogEnabled = false) : logEvent s c devid flags addr = s := by
  simp [logEvent, h]

theorem logEvent_of_full (hen : s.evtlogEnabled = true) (hfull : s.evtNext = s.evtHead) :
    logEvent s c devid flags addr = (s.setStatusFlag .eventOverflow true).raiseIf s.evtlogIntr := by
  simp [logEvent, hen, hfull]

theorem logEvent_of_room (hen : s.evtlogEnabled = true) (hroom : s.evtNext ≠ s.evtHead) :
    logEvent s c devid flags addr =
      (((memWriteDrop s (s.latched.evtBase + s.evtTail) (eventBytes c devid flags addr)).setReg .evtTail
        s.evtNext).setStatusFlag .eventLogInt true).raiseIf s.evtlogIntr := by
  simp [logEvent, hen, hroom]

theorem logEvent_status_of_room (hen : s.evtlogEnabled = true) (hroom : s.evtNext ≠ s.evtHead) :
    (logEvent s c devid flags addr).reg .status = withBit (s.reg .status) StatusFlag.eventLogInt.bit true := by
  simp [logEvent_of_room c devid flags addr hen hroom]

theorem logEvent_evtTail_of_room (hen : s.evtlogEnabled = true) (hroom : s.evtNext ≠ s.evtHead) :
    (logEvent s c devid flags addr).reg .evtTail = s.evtNext := by
  simp [logEvent_of_room c devid flags addr hen hroom]

theorem logEvent_trace_of_room (hen : s.evtlogEnabled = true) (hroom : s.evtNext ≠ s.evtHead) :
    (logEvent s c devid flags addr).trace = s.trace ++ (if s.evtlogIntr then [.interrupt] else []) := by
  simp [logEvent_of_room c devid flags addr hen hroom]

theorem logEvent_mem_of_room (hen : s.evtlogEnabled = true) (hroom : s.evtNext ≠ s.evtHead) :
    (logEvent s c devid flags addr).mem =
      if s.writeFails (s.latched.evtBase + s.evtTail) 16 then s.mem
      else writeBytes s.mem (s.latched.evtBase + s.evtTail) (eventBytes c devid flags addr) := by
  simp [logEvent_of_room c devid flags addr hen hroom, memWriteDrop_mem, length_eventBytes]

/-- The host finds the entry in its slot, unless the store failed (R304). -/
theorem readBytes_logEvent_of_room (hen : s.evtlogEnabled = true) (hroom : s.evtNext ≠ s.evtHead)
    (hstore : s.writeFails (s.latched.evtBase + s.evtTail) 16 = false) :
    readBytes (logEvent s c devid flags addr).mem (s.latched.evtBase + s.evtTail) 16 =
      eventBytes c devid flags addr := by
  have hlen := length_eventBytes c devid flags addr
  have hread := readBytes_writeBytes s.mem (s.latched.evtBase + s.evtTail) (eventBytes c devid flags addr)
    (by rw [hlen]; decide)
  rw [hlen] at hread
  rw [logEvent_mem_of_room c devid flags addr hen hroom, hstore, if_neg Bool.false_ne_true, hread]

end

/-- Settles O25: the frames hold for every event; a full log sets one flag, and a log with room also stores the entry
and moves the tail, with the store's failure changing memory's part alone. -/
theorem logEventDiscardsDropsOrStores : Obligations.LogEventDiscardsDropsOrStores := by
  intro s c devid flags addr
  refine ⟨logEvent_of_disabled c devid flags addr, fun hen hfull => ?full, fun hen hroom => ?room⟩
  case full =>
    have hlog := logEvent_of_full c devid flags addr hen hfull
    have hstatus : (logEvent s c devid flags addr).reg .status =
        withBit (s.reg .status) StatusFlag.eventOverflow.bit true := by simp [hlog]
    refine ⟨_, rfl, statusFlag_of_withBit hstatus, sameStatusBut_of_withBit hstatus, fun n hn => ?regs, fun x => ?mem,
      ?trace, logEvent_sameSurroundings .., logEvent_sameHidden ..⟩
    case regs => rw [hlog, raiseIf_reg, setStatusFlag_reg, if_neg (by simpa using hn)]
    case mem => rw [hlog, raiseIf_mem, setStatusFlag_mem]
    case trace => rw [hlog, raiseIf_trace, setStatusFlag_trace]
  case room =>
    have hstatus := logEvent_status_of_room c devid flags addr hen hroom
    refine ⟨_, rfl, fun hstore => ?stored, fun hfail x => ?failed, logEvent_sameOutside s c devid flags addr,
      logEvent_evtTail_of_room c devid flags addr hen hroom, statusFlag_of_withBit hstatus,
      sameStatusBut_of_withBit hstatus, logEvent_sameRegsBut s c devid flags addr,
      logEvent_trace_of_room c devid flags addr hen hroom, logEvent_sameSurroundings .., logEvent_sameHidden ..⟩
    case stored =>
      rw [readBytes_logEvent_of_room c devid flags addr hen hroom hstore, le64_eventBytes_word0]
      exact ⟨eventWord0_devid .., eventWord0_zeros .., eventWord0_flags .., eventWord0_code ..,
        le64_eventBytes_addr ..⟩
    case failed => rw [logEvent_mem_of_room c devid flags addr hen hroom, if_pos hfail]

end Sys2Proof.Machine
end


/-! PROOFS. A unit whose registers hold their reset values (70_reset R332): every register reads 0, so the unit is
disabled, no command waits and every byte of the register block is 0, whatever memory, the latched values and the queue
hold. -/

section
namespace Sys2Proof.Machine

/-! ### Reading zeros, and a step with nothing to do -/

theorem leNat_of_zeros : ∀ {bs : List Byte}, (∀ b ∈ bs, b = 0#8) → leNat bs = 0
  | [], _ => rfl
  | b :: bs, h => by
    obtain ⟨hb, hbs⟩ := List.forall_mem_cons.mp h
    rw [leNat, leNat_of_zeros hbs, hb]
    rfl

theorem mmioRead_of_zeros {s : State} {o z : Nat} (hbytes : ∀ x, s.mmioByte x = 0#8) (h : acceptedAccess o z) :
    mmioRead s o z = 0 := by
  rw [mmioRead, if_pos (mmioAccessOk_iff.mpr h)]
  exact leNat_of_zeros (by simp [hbytes])

theorem serveNext_of_no_inputs {s : State} (h : s.inputs = []) : serveNext s = s := by
  simp [serveNext, h]

theorem step_of_not_drainPending {s : State} (h : s.drainPending = false) : step s = .next (serveNext s) :=
  if_neg (Bool.eq_false_iff.mp h)

theorem drainPending_of_disabled {s : State} (h : s.enabled = false) : s.drainPending = false := by
  simp [State.drainPending, State.cmdbufEnabled, h]

/-! ### What the reset values of the registers make of a state (10_state R41) -/

section
variable {s : State} (h : s.regs = State.reset.regs)
include h

theorem reg_of_resetRegs (n : RegName) : s.reg n = 0#64 := by
  rw [State.reg, h]
  cases n <;> rfl

theorem enabled_of_resetRegs : s.enabled = false := by
  rw [State.enabled, State.controlFlag, reg_of_resetRegs h, BitVec.getLsbD_zero]

theorem mmioByte_of_resetRegs (o : Nat) : s.mmioByte o = 0#8 := by
  rw [State.mmioByte]
  cases regHolding o with
  | none => rfl
  | some n => simp [reg_of_resetRegs h, wordByte]

end

/-- Settles O16: a unit with its registers at reset is disabled, which ends both device requests at their first test and
leaves no command waiting, and every byte of its register block is 0. -/
theorem afterResetEverythingPasses : Obligations.AfterResetEverythingPasses := by
  intro s hregs
  have hdisabled := enabled_of_resetRegs hregs
  refine ⟨fun d iova a => ?translate, fun d msg => remapInterrupt_of_disabled hdisabled,
    fun offset size => mmioRead_of_zeros (mmioByte_of_resetRegs hregs), fun hempty => ?idle⟩
  case translate => rw [dmaTranslate_of_disabled hdisabled, identityResponse_eq]
  case idle => rw [step_of_not_drainPending (drainPending_of_disabled hdisabled), serveNext_of_no_inputs hempty]

end Sys2Proof.Machine
end

/-! PROOFS. The decoder and the encoder (30_encoding R89 to R99): a word as the fields its format has, the commands that
decoding and writing give back, the words the decoder rejects and the bits it does not read. -/

section
namespace Sys2Proof.Machine

/-! ### Words made of fields -/

/-- A field's bits in place: what the field's mask keeps of a word. -/
theorem and_fieldMask_eq (v : Word) {lo n : Nat} (h : lo + n ≤ 64) :
    v &&& fieldMask lo n = (v.extractLsb' lo n).setWidth 64 <<< lo := by
  refine BitVec.eq_of_getLsbD_eq fun j hj => ?_
  rw [BitVec.getLsbD_and, getLsbD_fieldMask, BitVec.getLsbD_shiftLeft, BitVec.getLsbD_setWidth,
    BitVec.getLsbD_extractLsb']
  by_cases hlo : j < lo
  · simp [hlo, show ¬ lo ≤ j by omega]
  · have hin : (j < lo + n) ↔ (j - lo < n) := by omega
    simp only [hj, hlo, hin, show lo + (j - lo) = j by omega, show lo ≤ j by omega, show j - lo < 64 by omega,
      decide_true, decide_false, Bool.not_false, Bool.true_and, Bool.and_comm]

/-- A value put in its field has no bit outside the field's mask. -/
theorem setWidth_shiftLeft_and_fieldMask {n : Nat} (x : BitVec n) (lo : Nat) :
    (x.setWidth 64 <<< lo) &&& fieldMask lo n = x.setWidth 64 <<< lo := by
  refine BitVec.eq_of_getLsbD_eq fun j hj => ?_
  rw [BitVec.getLsbD_and, getLsbD_fieldMask, BitVec.getLsbD_shiftLeft, BitVec.getLsbD_setWidth]
  by_cases hin : lo ≤ j ∧ j < lo + n
  · simp [hj, hin]
  · by_cases hlo : j < lo
    · simp [hlo]
    · simp [BitVec.getLsbD_of_ge x (j - lo) (by omega)]

/-- A value put in its field is read back from it. -/
theorem extractLsb'_setWidth_shiftLeft {n : Nat} (x : BitVec n) {lo : Nat} (h : lo + n ≤ 64) :
    (x.setWidth 64 <<< lo).extractLsb' lo n = x := by
  refine BitVec.eq_of_getLsbD_eq fun j hj => ?_
  simp only [BitVec.getLsbD_extractLsb', BitVec.getLsbD_shiftLeft, BitVec.getLsbD_setWidth, hj,
    show lo + j < 64 by omega, show ¬ lo + j < lo by omega, show lo + j - lo = j by omega, show j < 64 by omega,
    decide_true, decide_false, Bool.not_false, Bool.true_and]

theorem and_eq_zero_of_within {v m r : Word} (hv : v &&& m = v) (hd : m &&& r = 0#64) : v &&& r = 0#64 := by
  rw [← hv, BitVec.and_assoc, hd, BitVec.and_zero]

theorem or_and_distrib (u v k : Word) : (u ||| v) &&& k = u &&& k ||| v &&& k := by
  rw [BitVec.and_comm, BitVec.and_or_distrib_left, BitVec.and_comm k, BitVec.and_comm k]

theorem or_and_eq_zero {u v r : Word} (hu : u &&& r = 0#64) (hv : v &&& r = 0#64) : (u ||| v) &&& r = 0#64 := by
  rw [or_and_distrib, hu, hv, BitVec.or_zero]

theorem inField_iff {f v : Word} : inField f v = true ↔ v &&& f = v := by
  rw [inField, beq_iff_eq]
  constructor
  · intro h
    refine BitVec.eq_of_getLsbD_eq fun j hj => ?_
    have hbit := congrArg (BitVec.getLsbD · j) h
    simp only [BitVec.getLsbD_and, BitVec.getLsbD_not, hj, decide_true, Bool.true_and, BitVec.getLsbD_zero] at hbit ⊢
    cases hv : v.getLsbD j <;> simp_all
  · intro h
    exact and_eq_zero_of_within h (BitVec.and_not_self f)

/-! ### The fields of a command (30_encoding R91 to R98) -/

theorem devid_and_fieldMask (devid : DevId) : devid.setWidth 64 &&& fieldMask 0 16 = devid.setWidth 64 := by
  simpa using setWidth_shiftLeft_and_fieldMask devid 0

theorem cmdDevId_setWidth (devid : DevId) : cmdDevId (devid.setWidth 64) = devid := by
  simpa [cmdDevId] using extractLsb'_setWidth_shiftLeft devid (lo := 0) (by decide)

theorem cmdDevId_or {c : Word} (hc : cmdDevId c = 0#16) (devid : DevId) :
    cmdDevId (c ||| devid.setWidth 64) = devid := by
  rw [cmdDevId, BitVec.extractLsb'_or]
  change cmdDevId c ||| cmdDevId _ = _
  rw [hc, cmdDevId_setWidth, BitVec.zero_or]

theorem cmdDomId_or {c : Word} (hc : cmdDomId c = 0#16) (domid : DomId) :
    cmdDomId (c ||| domid.setWidth 64 <<< 32) = domid := by
  rw [cmdDomId, BitVec.extractLsb'_or, extractLsb'_setWidth_shiftLeft domid (by decide)]
  change cmdDomId c ||| domid = _
  rw [hc, BitVec.zero_or]

theorem flagWord_shiftLeft_and_fieldMask (b : Bool) (k : Nat) :
    (flagWord b <<< k) &&& fieldMask k 1 = flagWord b <<< k :=
  setWidth_shiftLeft_and_fieldMask (BitVec.ofBool b) k

theorem flagWord_and_fieldMask (b : Bool) : flagWord b &&& fieldMask 0 1 = flagWord b := by
  simpa using flagWord_shiftLeft_and_fieldMask b 0

theorem getLsbD_flagWord (b : Bool) (j : Nat) : (flagWord b).getLsbD j = (decide (j = 0) && b) := by
  cases b <;> by_cases hj : j = 0 <;> simp [flagWord, hj]

theorem flagWord_getLsbD (v : Word) {k : Nat} (h : k < 64) : flagWord (v.getLsbD k) <<< k = v &&& fieldMask k 1 := by
  rw [and_fieldMask_eq v (by omega), flagWord]
  congr 2
  refine BitVec.eq_of_getLsbD_eq fun j hj => ?_
  simp [show j = 0 by omega]

/-! ### What the decoder accepts (R89, R99) -/

theorem decodeWords_eq_ok_iff {q0 q1 : Word} {i : Instr} :
    decodeWords q0 q1 = .ok i ↔
      ∃ r0 r1, reservedMasks (opcodeOf q0) = some (r0, r1) ∧ decodeOperands (opcodeOf q0) q0 q1 = some i ∧
        q0 &&& r0 = 0#64 ∧ q1 &&& r1 = 0#64 := by
  unfold decodeWords
  cases hmasks : reservedMasks (opcodeOf q0) with
  | none => simp
  | some masks =>
    cases hops : decodeOperands (opcodeOf q0) q0 q1 with
    | none => simp
    | some i' =>
      by_cases hr : q0 &&& masks.1 = 0#64 ∧ q1 &&& masks.2 = 0#64
      · obtain ⟨h0, h1⟩ := hr
        simp only [h0, h1, bne_self_eq_false, Bool.or_self, Bool.false_eq_true, if_false, Except.ok.injEq,
          Option.some.injEq]
        exact ⟨fun h => ⟨masks.1, masks.2, rfl, h, h0, h1⟩, fun ⟨_, _, _, h, _⟩ => h⟩
      · have hr' : (q0 &&& masks.1 != 0#64 || q1 &&& masks.2 != 0#64) = true := by
          simpa [← not_and_or] using hr
        simp only [hr', if_true, reduceCtorEq, false_iff]
        rintro ⟨r0, r1, hm, -, h0, h1⟩
        cases hm
        exact hr ⟨h0, h1⟩

/-- Words of a known opcode with no reserved bit set decode to their operands. -/
theorem decodeWords_of_opcode {q0 q1 r0 r1 : Word} {op : BitVec 4} {i : Instr} (hop : opcodeOf q0 = op)
    (hmasks : reservedMasks op = some (r0, r1)) (hops : decodeOperands op q0 q1 = some i) (h0 : q0 &&& r0 = 0#64)
    (h1 : q1 &&& r1 = 0#64) : decodeWords q0 q1 = .ok i :=
  decodeWords_eq_ok_iff.mpr ⟨r0, r1, hop ▸ hmasks, hop ▸ hops, h0, h1⟩

/-- A command whose first word is its opcode and a device id, by the operands that its opcode reads there. -/
theorem decodeWords_devid {c q1 r0 r1 : Word} {op : BitVec 4} {devid : DevId} {f : DevId → Instr}
    (hop : opcodeOf (c ||| devid.setWidth 64) = op) (hmasks : reservedMasks op = some (r0, r1))
    (hops : decodeOperands op (c ||| devid.setWidth 64) q1 = some (f (cmdDevId (c ||| devid.setWidth 64))))
    (hc : cmdDevId c = 0#16) (h0 : c &&& r0 = 0#64) (hd : fieldMask 0 16 &&& r0 = 0#64) (h1 : q1 &&& r1 = 0#64) :
    decodeWords (c ||| devid.setWidth 64) q1 = .ok (f devid) := by
  rw [cmdDevId_or hc] at hops
  exact decodeWords_of_opcode hop hmasks hops
    (or_and_eq_zero h0 (and_eq_zero_of_within (devid_and_fieldMask devid) hd)) h1

/-- An address operand beside its flag in the second word of an invalidation (R93, R94). -/
theorem address_or_flag {address : Word} (h : inField invAddressField address = true) (sizeFlag : Bool) :
    (address ||| flagWord sizeFlag).getLsbD 0 = sizeFlag ∧
      (address ||| flagWord sizeFlag) &&& invAddressField = address ∧
      ∀ r, invAddressField &&& r = 0#64 → fieldMask 0 1 &&& r = 0#64 →
        (address ||| flagWord sizeFlag) &&& r = 0#64 := by
  have haddr := inField_iff.mp h
  have hflag := flagWord_and_fieldMask sizeFlag
  refine ⟨?bit, ?field, fun r hr hr' => ?outside⟩
  case bit =>
    rw [BitVec.getLsbD_or, Laws.EncodeOpcode.getLsbD_of_inField h (by decide) (by decide), getLsbD_flagWord]
    simp
  case field => rw [or_and_distrib, haddr, and_eq_zero_of_within hflag (by decide), BitVec.or_zero]
  case outside => exact or_and_eq_zero (and_eq_zero_of_within haddr hr) (and_eq_zero_of_within hflag hr')

/-- The first word of a `COMPLETION_WAIT` (R91): its opcode, the address and the three flags. -/
theorem completionWait_fields {addr : Word} (h : inField storeAddrField addr = true) (s i f : Bool) {q0 : Word}
    (hq : q0 = 0x1000_0000_0000_0000#64 ||| addr ||| flagWord s ||| (flagWord i <<< 1) ||| (flagWord f <<< 2)) :
    q0.getLsbD 0 = s ∧ q0.getLsbD 1 = i ∧ q0.getLsbD 2 = f ∧ q0 &&& storeAddrField = addr ∧
      q0 &&& 0x0FF0_0000_0000_0000#64 = 0#64 := by
  subst hq
  have haddr := inField_iff.mp h
  have hs := flagWord_and_fieldMask s
  have hi := flagWord_shiftLeft_and_fieldMask i 1
  have hf := flagWord_shiftLeft_and_fieldMask f 2
  have hbit (k : Nat) (hk : k < 64) (hout : storeAddrField.getLsbD k = false) : addr.getLsbD k = false :=
    Laws.EncodeOpcode.getLsbD_of_inField h hk hout
  have hkeeps (r : Word) (hs' : fieldMask 0 1 &&& r = 0#64) (hi' : fieldMask 1 1 &&& r = 0#64)
      (hf' : fieldMask 2 1 &&& r = 0#64) :
      (0x1000_0000_0000_0000#64 ||| addr ||| flagWord s ||| (flagWord i <<< 1) ||| (flagWord f <<< 2)) &&& r =
        0x1000_0000_0000_0000#64 &&& r ||| addr &&& r := by
    rw [or_and_distrib, or_and_distrib, or_and_distrib, or_and_distrib, and_eq_zero_of_within hs hs',
      and_eq_zero_of_within hi hi', and_eq_zero_of_within hf hf', BitVec.or_zero, BitVec.or_zero, BitVec.or_zero]
  have hs0 := hbit 0 (by decide) (by decide)
  have hi0 := hbit 1 (by decide) (by decide)
  have hf0 := hbit 2 (by decide) (by decide)
  refine ⟨?store, ?interrupt, ?flush, ?address, ?reserved⟩
  case store =>
    simp only [BitVec.getLsbD_or, BitVec.getLsbD_shiftLeft, getLsbD_flagWord, hs0]
    simp
  case interrupt =>
    simp only [BitVec.getLsbD_or, BitVec.getLsbD_shiftLeft, getLsbD_flagWord, hi0]
    simp
  case flush =>
    simp only [BitVec.getLsbD_or, BitVec.getLsbD_shiftLeft, getLsbD_flagWord, hf0]
    simp
  case address =>
    rw [hkeeps _ (by decide) (by decide) (by decide), haddr]
    exact BitVec.zero_or
  case reserved =>
    rw [hkeeps _ (by decide) (by decide) (by decide), and_eq_zero_of_within haddr (by decide)]
    rfl

/-- Settles O1: command by command, its opcode is read back (`EncodeOpcode`), its operands are read back from the fields
they were put in, and no field meets a reserved bit. -/
theorem decodeEncodeEveryCommand : Obligations.DecodeEncodeEveryCommand := by
  intro i rest hwf
  have hlong : 16 ≤ (encode i ++ rest).length := by
    rw [List.length_append, Laws.EncodeOpcode.length_encode]
    omega
  rw [decode_of_length hlong, encode, le64_append_left, le64_append_right]
  cases i with
  | completionWait s i f addr data =>
    obtain ⟨hs, hi, hf, haddr, hrsvd⟩ := completionWait_fields hwf s i f rfl
    refine decodeWords_of_opcode ((Laws.EncodeOpcode.completionWait s i f addr data).2 hwf) rfl ?_ hrsvd
      BitVec.and_zero
    simp only [encodeWords, decodeOperands, Laws.opcodeNumber, hs, hi, hf, haddr]
    rfl
  | invalidateDevtabEntry devid =>
    exact decodeWords_devid ((Laws.EncodeOpcode.invalidateDevtabEntry devid).2 hwf) rfl rfl rfl (by decide) (by decide)
      BitVec.zero_and
  | invalidateIommuPages domid sizeFlag address =>
    obtain ⟨hbit, haddr, hout⟩ := address_or_flag hwf sizeFlag
    refine decodeWords_of_opcode ((Laws.EncodeOpcode.invalidateIommuPages domid sizeFlag address).2 hwf) rfl ?_
      (or_and_eq_zero (by decide) ?_) (hout _ (by decide) (by decide))
    · have hdom : cmdDomId (0x3000_0000_0000_0000#64 ||| domid.setWidth 64 <<< 32) = domid :=
        cmdDomId_or (by decide) domid
      simp only [encodeWords, decodeOperands, Laws.opcodeNumber, hbit, haddr, hdom]
      rfl
    · exact and_eq_zero_of_within (setWidth_shiftLeft_and_fieldMask domid 32) (by decide)
  | invalidateIotlbPages devid sizeFlag address =>
    obtain ⟨hbit, haddr, hout⟩ := address_or_flag hwf sizeFlag
    refine decodeWords_devid (f := fun d => .invalidateIotlbPages d sizeFlag address)
      ((Laws.EncodeOpcode.invalidateIotlbPages devid sizeFlag address).2 hwf) rfl ?_ rfl (by decide) (by decide)
      (hout _ (by decide) (by decide))
    simp only [decodeOperands, Laws.opcodeNumber, encodeWords, hbit, haddr]
    rfl
  | invalidateInterruptTable devid =>
    exact decodeWords_devid ((Laws.EncodeOpcode.invalidateInterruptTable devid).2 hwf) rfl rfl rfl (by decide)
      (by decide) BitVec.zero_and
  | prefetchIommuPages devid =>
    exact decodeWords_devid ((Laws.EncodeOpcode.prefetchIommuPages devid).2 hwf) rfl rfl rfl (by decide) (by decide)
      BitVec.zero_and
  | completePprRequest devid =>
    exact decodeWords_devid ((Laws.EncodeOpcode.completePprRequest devid).2 hwf) rfl rfl rfl (by decide) (by decide)
      BitVec.zero_and
  | invalidateIommuAll => rfl

/-! ### A decoded command and the words it came from (R89) -/

/-- Where no reserved bit is set, the bits that are not reserved are all that a mask containing them can see. -/
theorem and_eq_and_of_reserved {q kept r k : Word} (hr : q &&& r = 0#64) (hk : kept ||| r = k) :
    q &&& kept = q &&& k := by
  rw [← hk, BitVec.and_or_distrib_left, hr, BitVec.or_zero]

theorem opcode_in_place {q0 : Word} {op : BitVec 4} (hop : opcodeOf q0 = op) :
    q0 &&& fieldMask 60 4 = op.setWidth 64 <<< 60 := by
  rw [and_fieldMask_eq q0 (by decide), ← hop]
  rfl

theorem devid_in_place (q0 : Word) : (cmdDevId q0).setWidth 64 = q0 &&& fieldMask 0 16 := by
  rw [and_fieldMask_eq q0 (by decide), BitVec.shiftLeft_zero]
  rfl

theorem domid_in_place (q0 : Word) : (cmdDomId q0).setWidth 64 <<< 32 = q0 &&& fieldMask 32 16 := by
  rw [and_fieldMask_eq q0 (by decide)]
  rfl

theorem flag_in_place (q : Word) : flagWord (q.getLsbD 0) = q &&& fieldMask 0 1 := by
  rw [← flagWord_getLsbD q (by decide), BitVec.shiftLeft_zero]

theorem inField_and (q f : Word) : inField f (q &&& f) = true := by
  rw [inField_iff, BitVec.and_assoc, BitVec.and_self]

/-- A command whose first word is its opcode and a device id is written back from that word, ignored bits cleared. -/
theorem opcode_or_devid {q0 r c k : Word} {op : BitVec 4} (hop : opcodeOf q0 = op) (hr : q0 &&& r = 0#64)
    (hc : c = op.setWidth 64 <<< 60) (hk : (fieldMask 60 4 ||| fieldMask 0 16) ||| r = k) :
    c ||| (cmdDevId q0).setWidth 64 = q0 &&& k := by
  rw [hc, ← opcode_in_place hop, devid_in_place, ← BitVec.and_or_distrib_left, and_eq_and_of_reserved hr hk]

/-- The address and the flag of an invalidation are written back from its second word, ignored bits cleared. -/
theorem address_or_flag_in_place {q1 r k : Word} (hr : q1 &&& r = 0#64)
    (hk : (invAddressField ||| fieldMask 0 1) ||| r = k) :
    (q1 &&& invAddressField) ||| flagWord (q1.getLsbD 0) = q1 &&& k := by
  rw [flag_in_place, ← BitVec.and_or_distrib_left, and_eq_and_of_reserved hr hk]

theorem second_word_zero {q1 r k : Word} (hr : q1 &&& r = 0#64) (hk : 0#64 ||| r = k) : 0#64 = q1 &&& k := by
  rw [← and_eq_and_of_reserved hr hk, BitVec.and_zero]

theorem recognised_opcode {op : BitVec 4} {masks : Word × Word} (h : reservedMasks op = some masks) :
    op = 1#4 ∨ op = 2#4 ∨ op = 3#4 ∨ op = 4#4 ∨ op = 5#4 ∨ op = 6#4 ∨ op = 7#4 ∨ op = 8#4 := by
  have hsome : (reservedMasks op).isSome = true := by rw [h]; rfl
  revert hsome
  clear h
  revert op
  decide

/-- Settles O2: opcode by opcode, the fields a command carries are the parts of the two words that its format neither
reserves nor ignores, so writing them back in place gives the words without their ignored bits. -/
theorem decodedCommandReencodes : Obligations.DecodedCommandReencodes := by
  intro q0 q1 i hdec
  obtain ⟨r0, r1, hmasks, hops, h0, h1⟩ := decodeWords_eq_ok_iff.mp hdec
  generalize hop : opcodeOf q0 = op at hmasks hops ⊢
  have hall (q : Word) : q &&& ~~~0#64 = q := BitVec.and_allOnes
  rcases recognised_opcode hmasks with rfl | rfl | rfl | rfl | rfl | rfl | rfl | rfl <;> cases hmasks <;> cases hops
  · refine ⟨inField_and q0 storeAddrField, Prod.ext ?_ (hall q1).symm⟩
    change (1#4).setWidth 64 <<< 60 ||| _ ||| _ ||| _ ||| _ = q0 &&& ~~~0#64
    rw [← opcode_in_place hop, flag_in_place, flagWord_getLsbD q0 (by decide), flagWord_getLsbD q0 (by decide),
      ← BitVec.and_or_distrib_left, ← BitVec.and_or_distrib_left, ← BitVec.and_or_distrib_left,
      ← BitVec.and_or_distrib_left, and_eq_and_of_reserved h0]
    decide
  · exact ⟨rfl, Prod.ext (opcode_or_devid hop h0 rfl (by decide)) (second_word_zero h1 (by decide))⟩
  · refine ⟨inField_and q1 invAddressField, Prod.ext ?_ (address_or_flag_in_place h1 (by decide))⟩
    change (3#4).setWidth 64 <<< 60 ||| _ = _
    rw [← opcode_in_place hop, domid_in_place, ← BitVec.and_or_distrib_left, and_eq_and_of_reserved h0]
    decide
  · exact ⟨inField_and q1 invAddressField,
      Prod.ext (opcode_or_devid hop h0 rfl (by decide)) (address_or_flag_in_place h1 (by decide))⟩
  · exact ⟨rfl, Prod.ext (opcode_or_devid hop h0 rfl (by decide)) (second_word_zero h1 (by decide))⟩
  · exact ⟨rfl, Prod.ext (opcode_or_devid hop h0 rfl (by decide)) (second_word_zero h1 (by decide))⟩
  · exact ⟨rfl, Prod.ext (opcode_or_devid hop h0 rfl (by decide)) (second_word_zero h1 (by decide))⟩
  · refine ⟨rfl, Prod.ext ?_ (second_word_zero h1 (by decide))⟩
    change (8#4).setWidth 64 <<< 60 = _
    rw [← opcode_in_place hop, and_eq_and_of_reserved h0]
    decide

/-! ### What the decoder rejects (R99, 44_commands R205) -/

theorem all_reserved_iff {q : Word} : q &&& 0xFFFF_FFFF_FFFF_FFFF#64 ≠ 0#64 ↔ q ≠ 0#64 := by
  rw [show (0xFFFF_FFFF_FFFF_FFFF#64 : Word) = BitVec.allOnes 64 from rfl, BitVec.and_allOnes]

/-- The reserved masks of a recognised opcode are the fields that its command's Exceptions name. -/
theorem meets_reservedMasks_iff {q0 q1 r0 r1 : Word} (hmasks : reservedMasks (opcodeOf q0) = some (r0, r1)) :
    q0 &&& r0 ≠ 0#64 ∨ q1 &&& r1 ≠ 0#64 ↔ illegalByFields q0 q1 := by
  unfold illegalByFields
  change _ ↔ match (opcodeOf q0).toNat with
    | 1 => _ | 2 => _ | 3 => _ | 4 => _ | 5 => _ | 6 => _ | 7 => _ | 8 => _ | _ => _
  generalize opcodeOf q0 = op at hmasks ⊢
  have none_zero (q : Word) : ¬ q &&& 0#64 ≠ 0#64 := not_not.mpr BitVec.and_zero
  rcases recognised_opcode hmasks with rfl | rfl | rfl | rfl | rfl | rfl | rfl | rfl <;> cases hmasks
  · exact (or_iff_left (none_zero q1)).trans (and_fieldMask_ne_zero_iff (lo := 52) (n := 8) (by decide) q0)
  · exact or_congr (and_fieldMask_ne_zero_iff (lo := 16) (n := 44) (by decide) q0) all_reserved_iff
  · change q0 &&& (fieldMask 20 12 ||| fieldMask 48 12) ≠ 0#64 ∨ q1 &&& fieldMask 3 9 ≠ 0#64 ↔ _
    simp (disch := decide) only [and_or_ne_zero_iff, and_fieldMask_ne_zero_iff, or_assoc]
    exact Iff.rfl
  · refine (or_iff_right (none_zero q0)).trans ?_
    change q1 &&& (fieldMask 1 1 ||| fieldMask 3 1 ||| fieldMask 6 6) ≠ 0#64 ↔ _
    simp (disch := decide) only [and_or_ne_zero_iff, and_fieldMask_ne_zero_iff, extractLsb'_one_ne_zero_iff, or_assoc]
    exact Iff.rfl
  · exact or_congr (and_fieldMask_ne_zero_iff (lo := 16) (n := 44) (by decide) q0) all_reserved_iff
  · change q0 &&& (fieldMask 16 8 ||| fieldMask 52 8) ≠ 0#64 ∨
      q1 &&& (fieldMask 1 1 ||| fieldMask 3 1 ||| fieldMask 5 7) ≠ 0#64 ↔ _
    simp (disch := decide) only [and_or_ne_zero_iff, and_fieldMask_ne_zero_iff, extractLsb'_one_ne_zero_iff, or_assoc]
    exact Iff.rfl
  · change q0 &&& (fieldMask 16 16 ||| fieldMask 52 8) ≠ 0#64 ∨ q1 &&& (fieldMask 0 2 ||| fieldMask 3 29) ≠ 0#64 ↔ _
    simp (disch := decide) only [and_or_ne_zero_iff, and_fieldMask_ne_zero_iff, or_assoc]
    exact Iff.rfl
  · exact or_congr (and_fieldMask_ne_zero_iff (lo := 0) (n := 60) (by decide) q0) all_reserved_iff

theorem decodeOperands_of_recognised {q0 r0 r1 : Word} (q1 : Word)
    (hmasks : reservedMasks (opcodeOf q0) = some (r0, r1)) :
    ∃ i, decodeOperands (opcodeOf q0) q0 q1 = some i := by
  generalize opcodeOf q0 = op at hmasks ⊢
  rcases recognised_opcode hmasks with rfl | rfl | rfl | rfl | rfl | rfl | rfl | rfl <;> exact ⟨_, rfl⟩

/-- An opcode without reserved masks is one that no command has. -/
theorem illegalByFields_of_unrecognised {q0 : Word} (q1 : Word) (hmasks : reservedMasks (opcodeOf q0) = none) :
    illegalByFields q0 q1 := by
  unfold illegalByFields
  split
  case h_9 => trivial
  all_goals
    rename_i hnum
    simp [reservedMasks, opcodeOf, hnum] at hmasks

/-- Settles O3: an unrecognised opcode is illegal by its number, and a recognised one is rejected exactly when a word
meets the reserved masks (`decodeWords_eq_ok_iff`), which are the named fields (`meets_reservedMasks_iff`). -/
theorem rejectedExactlyTheIllegalWords : Obligations.RejectedExactlyTheIllegalWords := by
  intro q0 q1
  refine ⟨fun ⟨e, herror⟩ => ?_, decodeWords_error_of_illegalByFields⟩
  cases hmasks : reservedMasks (opcodeOf q0) with
  | none => exact illegalByFields_of_unrecognised q1 hmasks
  | some masks =>
    obtain ⟨i, hops⟩ := decodeOperands_of_recognised q1 hmasks
    refine (meets_reservedMasks_iff hmasks).mp (not_and_or.mp fun hclear => ?_)
    rw [decodeWords_eq_ok_iff.mpr ⟨masks.1, masks.2, hmasks, hops, hclear⟩] at herror
    cases herror

/-! ### The bits the decoder does not read (R89) -/

theorem extractLsb'_and_of_within {v k : Word} {lo n : Nat} (hk : k.extractLsb' lo n = BitVec.allOnes n) :
    (v &&& k).extractLsb' lo n = v.extractLsb' lo n := by
  rw [BitVec.extractLsb'_and, hk, BitVec.and_allOnes]

theorem getLsbD_and_of_within {v k : Word} {j : Nat} (hk : k.getLsbD j = true) :
    (v &&& k).getLsbD j = v.getLsbD j := by
  rw [BitVec.getLsbD_and, hk, Bool.and_true]

theorem and_and_of_within {v k m : Word} (hk : k &&& m = m) : v &&& k &&& m = v &&& m := by
  rw [BitVec.and_assoc, hk]

theorem opcodeOf_clear_ignored (q0 : Word) (op : BitVec 4) :
    opcodeOf (q0 &&& ~~~(ignoredBits op).1) = opcodeOf q0 := by
  refine extractLsb'_and_of_within ?_
  revert op
  decide

/-- The reserved bits are not ignored ones. -/
theorem reservedMasks_clear_ignored {op : BitVec 4} {r0 r1 : Word} (h : reservedMasks op = some (r0, r1)) :
    ~~~(ignoredBits op).1 &&& r0 = r0 ∧ ~~~(ignoredBits op).2 &&& r1 = r1 := by
  rcases recognised_opcode h with rfl | rfl | rfl | rfl | rfl | rfl | rfl | rfl <;> cases h <;> decide

/-- No operand is read from an ignored bit. -/
theorem decodeOperands_clear_ignored {op : BitVec 4} {masks : Word × Word} (h : reservedMasks op = some masks)
    (q0 q1 : Word) :
    decodeOperands op (q0 &&& ~~~(ignoredBits op).1) (q1 &&& ~~~(ignoredBits op).2) = decodeOperands op q0 q1 := by
  have devid {k : Word} (hk : k.extractLsb' 0 16 = BitVec.allOnes 16) : cmdDevId (q0 &&& k) = cmdDevId q0 :=
    extractLsb'_and_of_within hk
  have domid {k : Word} (hk : k.extractLsb' 32 16 = BitVec.allOnes 16) : cmdDomId (q0 &&& k) = cmdDomId q0 :=
    extractLsb'_and_of_within hk
  rcases recognised_opcode h with rfl | rfl | rfl | rfl | rfl | rfl | rfl | rfl
  · change decodeOperands 1#4 (q0 &&& BitVec.allOnes 64) (q1 &&& BitVec.allOnes 64) = _
    rw [BitVec.and_allOnes, BitVec.and_allOnes]
  · exact congrArg (some <| Instr.invalidateDevtabEntry ·) (devid (by decide))
  · change some (Instr.invalidateIommuPages (cmdDomId _) _ _) = some (Instr.invalidateIommuPages _ _ _)
    rw [domid (by decide), getLsbD_and_of_within (by decide), and_and_of_within (by decide)]
  · change some (Instr.invalidateIotlbPages (cmdDevId _) _ _) = some (Instr.invalidateIotlbPages _ _ _)
    rw [devid (by decide), getLsbD_and_of_within (by decide), and_and_of_within (by decide)]
  · exact congrArg (some <| Instr.invalidateInterruptTable ·) (devid (by decide))
  · exact congrArg (some <| Instr.prefetchIommuPages ·) (devid (by decide))
  · exact congrArg (some <| Instr.completePprRequest ·) (devid (by decide))
  · rfl

theorem decodeWords_clear_ignored (q0 q1 : Word) :
    decodeWords (q0 &&& ~~~(ignoredBits (opcodeOf q0)).1) (q1 &&& ~~~(ignoredBits (opcodeOf q0)).2) =
      decodeWords q0 q1 := by
  rw [decodeWords, decodeWords, opcodeOf_clear_ignored]
  cases hmasks : reservedMasks (opcodeOf q0) with
  | none => rfl
  | some masks =>
    obtain ⟨r0, r1⟩ := masks
    obtain ⟨h0, h1⟩ := reservedMasks_clear_ignored hmasks
    obtain ⟨i, hops⟩ := decodeOperands_of_recognised q1 hmasks
    simp only [decodeOperands_clear_ignored hmasks, hops, and_and_of_within h0, and_and_of_within h1]

/-- Settles O4: decoding two words is decoding them with their ignored bits cleared (`decodeWords_clear_ignored`), which
the two pairs have in common. -/
theorem ignoredBitsAreNotRead : Obligations.IgnoredBitsAreNotRead := by
  intro q0 q1 q0' q1' hop h0 h1
  have hright := decodeWords_clear_ignored q0' q1'
  rw [← hop, ← h0, ← h1] at hright
  exact (decodeWords_clear_ignored q0 q1).symm.trans hright

/-- Settles O5: the decoder run on each of the eight example words. -/
theorem workedExamplesDecode : Obligations.WorkedExamplesDecode :=
  ⟨rfl, rfl, rfl, rfl, rfl, rfl, rfl, rfl⟩

/-- Settles O26: the table, code by code. -/
theorem eventCodesAreTheTables : Obligations.EventCodesAreTheTables :=
  ⟨rfl, rfl, rfl, rfl, rfl, rfl⟩

end Sys2Proof.Machine
end

/-! PROOFS. The commands (44_commands R210 to R218): what each one does, what an event or a fetch that it logs leaves
alone, and the frame that all eight have in common. -/

section
namespace Sys2Proof.Machine

/-! ### Frames put together -/

section
variable {s t u : State}

theorem sameRegsBut.refl (ns : List RegName) (s : State) : sameRegsBut ns s s := fun _ _ => rfl

theorem sameRegsBut.trans {ns : List RegName} (h : sameRegsBut ns s t) (h' : sameRegsBut ns t u) :
    sameRegsBut ns s u := fun n hn => (h' n hn).trans (h n hn)

theorem sameRegsBut.mono {ns ms : List RegName} (h : sameRegsBut ns s t) (hsub : ns ⊆ ms) : sameRegsBut ms s t :=
  fun n hn => h n fun hin => hn (hsub hin)

theorem sameStatusBut.refl (bits : List Nat) (s : State) : sameStatusBut bits s s := fun _ _ => rfl

theorem sameStatusBut.mono {bits bits' : List Nat} (h : sameStatusBut bits s t) (hsub : bits ⊆ bits') :
    sameStatusBut bits' s t := fun j hj => h j fun hin => hj (hsub hin)

theorem sameSurroundings.refl (s : State) : sameSurroundings s s := ⟨rfl, rfl, rfl, rfl, rfl⟩

theorem sameSurroundings.trans (h : sameSurroundings s t) (h' : sameSurroundings t u) : sameSurroundings s u := by
  obtain ⟨hcfg, hlatched, hfails, hinputs, hresponses⟩ := h
  obtain ⟨hcfg', hlatched', hfails', hinputs', hresponses'⟩ := h'
  exact ⟨hcfg'.trans hcfg, hlatched'.trans hlatched, hfails'.trans hfails, hinputs'.trans hinputs,
    hresponses'.trans hresponses⟩

theorem sameOutside.refl (a : Word) (n : Nat) (s : State) : sameOutside a n s s := fun _ _ => rfl

end

/-! ### What an event and a device-table fetch leave alone -/

section
variable (s : State) (c : EventCode) (devid : DevId) (flags : BitVec 12) (addr : Word)

/-- An event sets at most `EventOverflow` or `EventLogInt` (60_exceptions R301). -/
theorem logEvent_status :
    (logEvent s c devid flags addr).reg .status = s.reg .status ∨
      (logEvent s c devid flags addr).reg .status = withBit (s.reg .status) StatusFlag.eventOverflow.bit true ∨
      (logEvent s c devid flags addr).reg .status = withBit (s.reg .status) StatusFlag.eventLogInt.bit true := by
  rcases logEvent_cases s c devid flags addr with ⟨_, e⟩ | ⟨_, _, e⟩ | ⟨_, _, e⟩ <;> rw [e]
  · exact .inl rfl
  · exact .inr (.inl (by simp))
  · exact .inr (.inr (by simp))

theorem logEvent_sameStatusBut : sameStatusBut [0, 1] s (logEvent s c devid flags addr) := by
  rcases logEvent_status s c devid flags addr with e | e | e
  · exact fun j _ => by rw [e]
  · exact (sameStatusBut_of_withBit e).mono (by decide)
  · exact (sameStatusBut_of_withBit e).mono (by decide)

theorem fetchDte_sameRegsBut : sameRegsBut [.evtTail, .status] s (fetchDte s devid).2 := by
  rcases fetchDte_state s devid with e | ⟨c, e⟩ <;> rw [e]
  · exact .refl _ s
  · exact logEvent_sameRegsBut s c devid 0#12 (s.dteAddr devid)

theorem fetchDte_sameStatusBut : sameStatusBut [0, 1] s (fetchDte s devid).2 := by
  rcases fetchDte_state s devid with e | ⟨c, e⟩ <;> rw [e]
  · exact .refl _ s
  · exact logEvent_sameStatusBut s c devid 0#12 (s.dteAddr devid)

theorem fetchDte_sameOutside : sameOutside (s.latched.evtBase + s.evtTail) 16 s (fetchDte s devid).2 := by
  rcases fetchDte_state s devid with e | ⟨c, e⟩ <;> rw [e]
  · exact .refl _ _ s
  · exact logEvent_sameOutside s c devid 0#12 (s.dteAddr devid)

theorem fetchDte_sameSurroundings : sameSurroundings s (fetchDte s devid).2 :=
  ⟨fetchDte_cfg .., fetchDte_latched .., fetchDte_memFails .., fetchDte_inputs .., fetchDte_responses ..⟩

theorem fetchDte_routing (d : DevId) : (fetchDte s devid).2.routing d = s.routing d := by
  rw [State.routing, fetchDte_translated, State.routing]

end

/-! ### `COMPLETION_WAIT` (R210) -/

section
variable (s : State) (store interrupt : Bool) (addr data : Word)

/-- The store half changes memory only. -/
theorem completionStore_frame :
    completionStore s store addr data = { s with mem := (completionStore s store addr data).mem } := by
  cases store
  · rfl
  · rw [completionStore, if_pos rfl, memWriteDrop]
    rcases memWrite_cases s addr (wordBytes data) with ⟨_, e⟩ | ⟨_, e⟩ <;> rw [e] <;> rfl

theorem completionStore_mem :
    (completionStore s store addr data).mem =
      if store = true ∧ s.writeFails addr 8 = false then writeBytes s.mem addr (wordBytes data) else s.mem := by
  cases store
  · rfl
  · rw [completionStore, if_pos rfl, memWriteDrop_mem, length_wordBytes]
    cases s.writeFails addr 8 <;> rfl

/-- The interrupt half changes `STATUS` and the trace only. -/
theorem completionInterrupt_frame :
    completionInterrupt s interrupt =
      { s with regs := (completionInterrupt s interrupt).regs, trace := (completionInterrupt s interrupt).trace } := by
  cases interrupt
  · rfl
  · rw [completionInterrupt, if_pos rfl, State.raiseIf]
    split_ifs <;> rfl

theorem completionInterrupt_reg (n : RegName) :
    (completionInterrupt s interrupt).reg n =
      if interrupt = true ∧ n = .status then withBit (s.reg .status) StatusFlag.comWaitInt.bit true else s.reg n := by
  cases interrupt
  · rfl
  · simp [completionInterrupt]

theorem completionInterrupt_trace :
    (completionInterrupt s interrupt).trace =
      s.trace ++ if interrupt && s.comwaitIntr then [.interrupt] else [] := by
  cases interrupt <;> simp [completionInterrupt]

/-- What a `COMPLETION_WAIT` leaves. -/
def completionState : State := completionInterrupt (completionStore s store addr data) interrupt

theorem exec_completionWait (flush : Bool) :
    exec (.completionWait store interrupt flush addr data) s =
      .next (completionState s store interrupt addr data) := rfl

theorem completionState_frame :
    completionState s store interrupt addr data =
      { s with regs := (completionState s store interrupt addr data).regs
               mem := (completionStore s store addr data).mem
               trace := (completionState s store interrupt addr data).trace } := by
  rw [completionState, completionInterrupt_frame, completionStore_frame]

theorem completionState_reg (n : RegName) :
    (completionState s store interrupt addr data).reg n =
      if interrupt = true ∧ n = .status then withBit (s.reg .status) StatusFlag.comWaitInt.bit true else s.reg n := by
  rw [completionState, completionInterrupt_reg, completionStore_frame]
  rfl

theorem completionState_mem :
    (completionState s store interrupt addr data).mem =
      if store = true ∧ s.writeFails addr 8 = false then writeBytes s.mem addr (wordBytes data) else s.mem := by
  rw [completionState_frame, ← completionStore_mem]

theorem completionState_trace :
    (completionState s store interrupt addr data).trace =
      s.trace ++ if interrupt && s.comwaitIntr then [.interrupt] else [] := by
  rw [completionState, completionInterrupt_trace, completionStore_frame]
  rfl

end

/-- Settles O17: a completion is its memory, its registers and its trace (`completionState_frame`), each given by one
equation. -/
theorem completionWaitStoresAndSignals : Obligations.CompletionWaitStoresAndSignals := by
  intro store interrupt flush addr data s
  have hmem := completionState_mem s store interrupt addr data
  have hreg := completionState_reg s store interrupt addr data
  refine ⟨completionState s store interrupt addr data, rfl, rfl, fun hs hw => ?stored, fun hs x hx => ?outside,
    fun hno x => ?unstored, ?flag, fun j hj => ?status, completionState_trace .., fun n hn => ?regs, ?surroundings,
    ?hidden⟩
  case stored =>
    rw [hmem, if_pos ⟨hs, hw⟩]
    exact readBytes_writeBytes s.mem addr (wordBytes data) (by rw [length_wordBytes]; decide)
  case outside =>
    rw [hmem]
    split_ifs
    · exact readByte_writeBytes_other _ _ _ _ (by rwa [length_wordBytes])
    · rfl
  case unstored =>
    have hnot : ¬ (store = true ∧ s.writeFails addr 8 = false) := by
      rintro ⟨hs, hw⟩
      simp [hs, hw] at hno
    rw [hmem, if_neg hnot]
  case flag =>
    rw [State.statusFlag, hreg]
    cases interrupt
    · rfl
    · simp [getLsbD_withBit _ _ _ StatusFlag.comWaitInt.bit_lt]
  case status =>
    rw [hreg]
    split_ifs
    · rw [getLsbD_withBit _ _ _ StatusFlag.comWaitInt.bit_lt]
      exact if_neg fun h => hj (List.mem_singleton.mpr h)
    · rfl
  case regs => rw [hreg, if_neg (by simp at hn; simp [hn])]
  case surroundings =>
    rw [completionState_frame]
    exact ⟨rfl, rfl, rfl, rfl, rfl⟩
  case hidden =>
    rw [completionState_frame]
    exact ⟨rfl, fun _ => rfl⟩

/-! ### `INVALIDATE_DEVTAB_ENTRY` (R212) -/

section
variable (s : State) (devid : DevId)

/-- What an `INVALIDATE_DEVTAB_ENTRY` leaves. -/
def devtabState : State :=
  ((fetchDte s devid).2.setRouting devid (routingOfFetch (fetchDte s devid).1)).emit
    (.syncDevice devid (routingOfFetch (fetchDte s devid).1))

theorem exec_invalidateDevtabEntry : exec (.invalidateDevtabEntry devid) s = .next (devtabState s devid) := rfl

theorem devtabState_routing (d : DevId) :
    (devtabState s devid).routing d = if d = devid then routingOfFetch (fetchDte s devid).1 else s.routing d := by
  rw [devtabState, emit_routing, routing_setRouting, fetchDte_routing]

theorem devtabState_iotlb : (devtabState s devid).iotlb = s.iotlb := by simp [devtabState]

theorem routed_sameSurroundings (u : State) (d : DevId) (r : Routing) (o : Output) :
    sameSurroundings u ((u.setRouting d r).emit o) := ⟨rfl, rfl, rfl, rfl, rfl⟩

theorem devtabState_sameSurroundings : sameSurroundings s (devtabState s devid) :=
  (fetchDte_sameSurroundings s devid).trans (routed_sameSurroundings _ _ _ _)

theorem devtabState_reg (n : RegName) : (devtabState s devid).reg n = (fetchDte s devid).2.reg n := by
  rw [devtabState, emit_reg, setRouting_reg]

theorem devtabState_mem : (devtabState s devid).mem = (fetchDte s devid).2.mem := by
  rw [devtabState, emit_mem, setRouting_mem]

theorem devtabState_sameRegsBut : sameRegsBut [.evtTail, .status] s (devtabState s devid) := fun n hn => by
  rw [devtabState_reg, fetchDte_sameRegsBut s devid n hn]

theorem devtabState_sameStatusBut : sameStatusBut [0, 1] s (devtabState s devid) := fun j hj => by
  rw [devtabState_reg, fetchDte_sameStatusBut s devid j hj]

theorem devtabState_sameOutside : sameOutside (s.latched.evtBase + s.evtTail) 16 s (devtabState s devid) :=
  fun x hx => by rw [devtabState_mem, fetchDte_sameOutside s devid x hx]

end

/-- Settles O18: the routing is what the fetch's outcome gives (`devtabState_routing`), set on the state that the fetch
left. -/
theorem invalidateDevtabEntrySetsRouting : Obligations.InvalidateDevtabEntrySetsRouting := by
  intro devid s
  refine ⟨devtabState s devid, routingOfFetch (fetchDte s devid).1, rfl, fun dte hok => ?valid,
    fun dte hnv => ?notValid, fun r herr => ?error, ?own, fun d hd => ?others, emit_trace .., emit_regs ..,
    devtabState_mem .., devtabState_iotlb .., devtabState_sameSurroundings ..⟩
  case valid =>
    rw [hok, routingOfFetch, Dte.mode, levelField]
    split_ifs with hmode <;> simp [hmode]
  case notValid => rw [hnv, routingOfFetch]
  case error => rw [herr, routingOfFetch]
  case own => rw [devtabState_routing, if_pos rfl]
  case others => rw [devtabState_routing, if_neg hd]

/-- Settles O19: what the fetch can log is all that changes besides the device's own routing. -/
theorem invalidateDevtabEntryFrame : Obligations.InvalidateDevtabEntryFrame := by
  rintro devid s t hexec
  obtain rfl := Host.Outcome.next.inj hexec
  exact ⟨devtabState_sameRegsBut s devid, devtabState_sameStatusBut s devid, devtabState_sameOutside s devid,
    devtabState_iotlb s devid, devtabState_sameSurroundings s devid,
    fun d hd => (devtabState_routing s devid d).trans (if_neg hd)⟩

/-! ### The commands on the IOTLB (R213, R214, R218), and the hints (R215 to R217) -/

theorem exec_invalidateIommuPages (domid : DomId) (sizeFlag : Bool) (address : Word) (s : State) :
    exec (.invalidateIommuPages domid sizeFlag address) s =
      .next ((iotlbInvalidateDomain s domid).emit
        (.syncDomain domid (decodeRange sizeFlag address).1 (decodeRange sizeFlag address).2)) := rfl

theorem exec_invalidateIommuAll (s : State) :
    exec .invalidateIommuAll s = .next ((iotlbInvalidateAll s).emit .resyncAll) := rfl

/-- Settles O20: the entries that the domain's invalidation leaves (`mem_iotlbInvalidateDomain`), and one output. -/
theorem invalidateIommuPagesDropsTheDomain : Obligations.InvalidateIommuPagesDropsTheDomain := by
  intro domid sizeFlag address s
  exact ⟨_, exec_invalidateIommuPages .., fun _ => mem_iotlbInvalidateDomain, rfl, fun _ _ => rfl, fun _ => rfl,
    ⟨rfl, rfl, rfl, rfl, rfl⟩, fun _ => rfl⟩

/-- Settles O21: with S the device's invalidation, without S the page's, each an update of the IOTLB alone. -/
theorem invalidateIotlbPagesDropsDeviceOrPage : Obligations.InvalidateIotlbPagesDropsDeviceOrPage := by
  intro devid sizeFlag address s
  cases sizeFlag with
  | true =>
    obtain ⟨hregs, hmem, hsurr, htrace, hrouting⟩ :=
      (show differsInIotlbOnly s (iotlbInvalidateDevice s devid) from rfl).frame
    exact ⟨_, rfl, fun _ _ => mem_iotlbInvalidateDevice, fun h => absurd h (by decide), htrace, hregs, hmem, hsurr,
      hrouting⟩
  | false =>
    obtain ⟨hregs, hmem, hsurr, htrace, hrouting⟩ :=
      (show differsInIotlbOnly s (iotlbInvalidatePage s devid address) from rfl).frame
    exact ⟨_, rfl, fun h => absurd h (by decide), fun _ _ => mem_iotlbInvalidatePage, htrace, hregs, hmem, hsurr,
      hrouting⟩

/-- Settles O22: a lookup in an empty IOTLB finds nothing. -/
theorem invalidateIommuAllEmptiesTheIotlb : Obligations.InvalidateIommuAllEmptiesTheIotlb := fun s =>
  ⟨_, exec_invalidateIommuAll s, fun _ _ => rfl, rfl, fun _ _ => rfl, fun _ => rfl, ⟨rfl, rfl, rfl, rfl, rfl⟩,
    fun _ => rfl⟩

/-- Settles O23: the three arms answer the state they are given. -/
theorem hintCommandsChangeNothing : Obligations.HintCommandsChangeNothing := fun _ _ => ⟨rfl, rfl, rfl⟩

/-! ### What all commands have in common -/

theorem exec_completes (i : Instr) (s : State) : ∃ t, exec i s = .next t := by
  cases i <;> exact ⟨_, rfl⟩

/-- No command touches a register but `EVT_TAIL` and `STATUS`, or what surrounds the unit. -/
theorem exec_frame {i : Instr} {s t : State} (h : exec i s = .next t) :
    sameRegsBut [.evtTail, .status] s t ∧ sameSurroundings s t := by
  cases i with
  | completionWait store interrupt flush addr data =>
    rw [exec_completionWait] at h
    obtain rfl := Host.Outcome.next.inj h
    refine ⟨fun n hn => ?_, ?_⟩
    · rw [completionState_reg, if_neg (by simp at hn; simp [hn])]
    · rw [completionState_frame]
      exact ⟨rfl, rfl, rfl, rfl, rfl⟩
  | invalidateDevtabEntry devid =>
    obtain rfl := Host.Outcome.next.inj h
    exact ⟨devtabState_sameRegsBut s devid, devtabState_sameSurroundings s devid⟩
  | invalidateIotlbPages devid sizeFlag address =>
    obtain rfl := Host.Outcome.next.inj h
    cases sizeFlag <;> exact ⟨fun _ _ => rfl, ⟨rfl, rfl, rfl, rfl, rfl⟩⟩
  | _ =>
    obtain rfl := Host.Outcome.next.inj h
    exact ⟨fun _ _ => rfl, ⟨rfl, rfl, rfl, rfl, rfl⟩⟩

end Sys2Proof.Machine
end

/-! PROOFS. The answers of the DMA translation request (43_translate R180 to R190) as one list of outcomes, and what
follows from the list: what a granted answer says, that it is repeated, and what a device's request can change. -/

section
namespace Sys2Proof.Machine

/-! ### A request that reaches the IOTLB (R184, R185) -/

section
variable {s : State} {devid : DevId} {iova : Word} {access : Access}

theorem dmaTranslate_of_hit {e : IotlbEntry} (h : reachesIotlb s devid iova)
    (hhit : iotlbLookup s devid iova = some e) :
    dmaTranslate s devid iova access = translateHit s e devid iova access := by
  obtain ⟨he, hw, hr⟩ := h
  simp [dmaTranslate, he, inIntWindow_iff, hw, hr, hhit]

theorem translateHit_of_permitted {e : IotlbEntry} (h : permitted e.perms access) :
    translateHit s e devid iova access =
      (.ok (iova &&& ~~~e.pageMask) e.translatedAddr e.pageMask e.perms, s) :=
  if_pos (allows_iff.mpr h)

theorem translateHit_of_not_permitted {e : IotlbEntry} (h : ¬ permitted e.perms access) :
    translateHit s e devid iova access =
      (.denied, logEvent s .ioPageFault devid (faultFlags true access) iova) :=
  (if_neg (mt allows_iff.mp h)).trans (pageFault_eq ..)

theorem dmaTranslate_of_fetch_err {r : FaultReason} (h : reachesIotlb s devid iova)
    (hmiss : iotlbLookup s devid iova = none) (hf : (fetchDte s devid).1 = .err r) :
    dmaTranslate s devid iova access = (.targetAbort, (fetchDte s devid).2) := by
  obtain ⟨he, hw, hr⟩ := h
  have hpair : fetchDte s devid = (.err r, (fetchDte s devid).2) := by rw [← hf]
  simp only [dmaTranslate, he, inIntWindow_iff, hw, hr, hmiss]
  rw [hpair]
  rfl

theorem dmaTranslate_of_fetch_notValid {dte : Dte} (h : reachesIotlb s devid iova)
    (hmiss : iotlbLookup s devid iova = none) (hf : (fetchDte s devid).1 = .notValid dte) :
    dmaTranslate s devid iova access = (identityResponse iova, s) := by
  obtain ⟨he, hw, hr⟩ := h
  simp [dmaTranslate, he, inIntWindow_iff, hw, hr, hmiss, fetchDte_of_notValid hf]

end

/-- Settles O36: a hit is answered from its entry, granted or denied by the entry's permissions. -/
theorem translateHitAnswersFromTheEntry : Obligations.TranslateHitAnswersFromTheEntry := by
  intro s devid iova access e hreach hhit
  rw [dmaTranslate_of_hit hreach hhit]
  exact ⟨translateHit_of_permitted, translateHit_of_not_permitted⟩

/-- Settles O37: one equation of the request for each of the two ends of the fetch. -/
theorem translateMissFetchesTheEntry : Obligations.TranslateMissFetchesTheEntry := by
  intro s devid iova access hreach hmiss
  refine ⟨fun _ => dmaTranslate_of_fetch_err hreach hmiss, fun dte hnv => ?_⟩
  rw [dmaTranslate_of_fetch_notValid hreach hmiss hnv, identityResponse_eq]

/-! ### Every outcome of a translation -/

/-- The answers a translation can give, each with the state it leaves. -/
inductive TranslateOutcome (s : State) (devid : DevId) (iova : Word) (access : Access) : DmaResponse × State → Prop
  | identity : TranslateOutcome s devid iova access (identityResponse iova, s)
  | windowWrite (hw : access = .write) :
      TranslateOutcome s devid iova access (.ok (base4K iova) (base4K iova) 0xFFF#64 permsWO, s)
  | windowRead : TranslateOutcome s devid iova access (.denied, s)
  | hit (e : IotlbEntry) (hp : permitted e.perms access) :
      TranslateOutcome s devid iova access (.ok (iova &&& ~~~e.pageMask) e.translatedAddr e.pageMask e.perms, s)
  | logged (r : DmaResponse) (hr : r = .denied ∨ r = .targetAbort) (c : EventCode) (flags : BitVec 12) (addr : Word) :
      TranslateOutcome s devid iova access (r, logEvent s c devid flags addr)
  | mapped (dte : Dte) (ta size : Word) (p : Perms) (hreach : reachesWalk s devid iova dte)
      (hwalk : walk s dte iova = .ok ta size p) (hp : permitted p access) :
      TranslateOutcome s devid iova access
        (.ok (pageBase iova size) ta (size - 1#64) p, iotlbInsert s devid iova ta size p dte.domainId)
  | mappedDenied (dte : Dte) (ta size : Word) (p : Perms) (hreach : reachesWalk s devid iova dte)
      (hwalk : walk s dte iova = .ok ta size p) (c : EventCode) (flags : BitVec 12) (addr : Word) :
      TranslateOutcome s devid iova access
        (.denied, logEvent (iotlbInsert s devid iova ta size p dte.domainId) c devid flags addr)

section
variable {s : State} {devid : DevId} {iova : Word} {access : Access}

theorem fetchDte_of_err {r : FaultReason} (h : (fetchDte s devid).1 = .err r) :
    ∃ c, (fetchDte s devid).2 = logEvent s c devid 0#12 (s.dteAddr devid) := by
  rcases fetchDte_cases s devid with ⟨e, _⟩ | ⟨bs, _, _, ⟨_, e⟩ | ⟨_, _, e⟩ | ⟨_, _, e⟩⟩ <;> rw [e] at h ⊢
  · exact ⟨_, rfl⟩
  · cases h
  · exact ⟨_, rfl⟩
  · cases h

theorem translateHit_outcome (e : IotlbEntry) :
    TranslateOutcome s devid iova access (translateHit s e devid iova access) := by
  by_cases hp : permitted e.perms access
  · rw [translateHit_of_permitted hp]
    exact .hit e hp
  · rw [translateHit_of_not_permitted hp]
    exact .logged _ (.inl rfl) _ _ _

theorem translateMapped_outcome {dte : Dte} {ta size : Word} {p : Perms} (hreach : reachesWalk s devid iova dte)
    (hwalk : walk s dte iova = .ok ta size p) :
    TranslateOutcome s devid iova access (translateMapped s dte devid iova access ta size p) := by
  by_cases hp : permitted p access
  · rw [translateMapped_of_permitted hp]
    exact .mapped dte ta size p hreach hwalk hp
  · rw [translateMapped_of_not_permitted hp, pageFault_eq]
    exact .mappedDenied dte ta size p hreach hwalk _ _ _

theorem translateWalk_outcome {dte : Dte} (hreach : reachesWalk s devid iova dte) :
    TranslateOutcome s devid iova access (translateWalk s dte devid iova access) := by
  cases hwalk : walk s dte iova with
  | ok ta size p =>
    rw [translateWalk_of_mapped hwalk]
    exact translateMapped_outcome hreach hwalk
  | noMapping n =>
    rw [translateWalk_of_unmapped (.inl ⟨n, hwalk⟩)]
    exact .logged _ (.inl rfl) _ _ _
  | err r =>
    cases r with
    | tvClear =>
      cases hp : s.cfg.tv0Policy with
      | block =>
        rw [translateWalk_of_tvClear_block hwalk hp]
        exact .logged _ (.inl rfl) _ _ _
      | passThrough =>
        rw [translateWalk_of_tvClear_passThrough hwalk hp]
        exact .identity
    | rootPointerError pa =>
      rw [translateWalk_of_unreadable (.inl hwalk)]
      exact .logged _ (.inr rfl) _ _ _
    | pteFetchError pa =>
      rw [translateWalk_of_unreadable (.inr hwalk)]
      exact .logged _ (.inr rfl) _ _ _
    | _ =>
      simp only [translateWalk, hwalk]
      exact .logged _ (.inl rfl) _ _ _

theorem dmaTranslate_outcome (s : State) (devid : DevId) (iova : Word) (access : Access) :
    TranslateOutcome s devid iova access (dmaTranslate s devid iova access) := by
  cases he : s.enabled with
  | false =>
    rw [dmaTranslate_of_disabled he]
    exact .identity
  | true =>
    by_cases hw : windowAddress iova
    · cases access with
      | write =>
        rw [dmaTranslate_write_of_window he hw]
        exact .windowWrite rfl
      | read =>
        rw [dmaTranslate_read_of_window he hw]
        exact .windowRead
    · cases hr : s.routing devid with
      | passThrough =>
        rw [dmaTranslate_of_passThrough he hw hr]
        exact .identity
      | translated =>
        have hreach : reachesIotlb s devid iova := ⟨he, hw, hr⟩
        cases hlook : iotlbLookup s devid iova with
        | some e =>
          rw [dmaTranslate_of_hit hreach hlook]
          exact translateHit_outcome e
        | none =>
          cases hf : (fetchDte s devid).1 with
          | ok dte =>
            rw [dmaTranslate_of_reachesWalk ⟨hreach, hlook, hf⟩]
            exact translateWalk_outcome ⟨hreach, hlook, hf⟩
          | notValid dte =>
            rw [dmaTranslate_of_fetch_notValid hreach hlook hf]
            exact .identity
          | err r =>
            obtain ⟨c, hlog⟩ := fetchDte_of_err hf
            rw [dmaTranslate_of_fetch_err hreach hlook hf, hlog]
            exact .logged _ (.inr rfl) _ _ _

/-! ### A granted translation (R180, 20_memory R57) -/

/-- A granted translation answers the page of the request with permissions that allow the access, and leaves the state
alone or with the mapping walked inserted. -/
theorem dmaTranslate_granted {t : State} {base ta mask : Word} {p : Perms}
    (h : dmaTranslate s devid iova access = (.ok base ta mask p, t)) :
    permitted p access ∧ base = iova &&& ~~~mask ∧
      (t = s ∨ ∃ dte size, reachesWalk s devid iova dte ∧ walk s dte iova = .ok ta size p ∧ mask = size - 1#64 ∧
        t = iotlbInsert s devid iova ta size p dte.domainId) := by
  have hout := dmaTranslate_outcome s devid iova access
  rw [h] at hout
  cases hout with
  | identity => exact ⟨by cases access <;> rfl, rfl, .inl rfl⟩
  | windowWrite hw => exact ⟨by subst hw; rfl, rfl, .inl rfl⟩
  | hit e hp => exact ⟨hp, rfl, .inl rfl⟩
  | logged _ hr => simp at hr
  | mapped dte _ size _ hreach hwalk hp => exact ⟨hp, rfl, .inr ⟨dte, size, hreach, hwalk, rfl, rfl⟩⟩

end

/-- Settles O41: the first two parts of what a granted translation says (`dmaTranslate_granted`). -/
theorem grantedAccessIsPermitted : Obligations.GrantedAccessIsPermitted := by
  intro s t devid iova access base ta mask p h
  obtain ⟨hp, hbase, -⟩ := dmaTranslate_granted h
  exact ⟨hp, hbase⟩

/-- Settles O40: a granted translation leaves the state alone, or it has inserted the entry that the same request then
hits (`iotlbLookup_iotlbInsert`), answering what was granted. -/
theorem translateTwiceIsTheSame : Obligations.TranslateTwiceIsTheSame := by
  intro s t devid iova access base ta mask p h
  obtain ⟨hp, rfl, rfl | ⟨dte, size, ⟨⟨he, hw, hr⟩, -⟩, hwalk, rfl, rfl⟩⟩ := dmaTranslate_granted h
  · exact h
  · have hreach : reachesIotlb (iotlbInsert s devid iova ta size p dte.domainId) devid iova :=
      ⟨by rw [← he]; exact controlFlag_congr (iotlbInsert_reg ..) _, hw, by rw [iotlbInsert_routing, hr]⟩
    rw [dmaTranslate_of_hit hreach (iotlbLookup_iotlbInsert (walk_ok_perms_ne_none hwalk))]
    exact translateHit_of_permitted hp

/-! ### What a device's request can change (R191, 45_interrupt_remap R250) -/

/-- Whatever a translation answers, it inserts at most the mapping that a missing walk found, and then logs at most one
event. -/
theorem dmaTranslate_state (s : State) (devid : DevId) (iova : Word) (access : Access) :
    ∃ u, (u = s ∨ ∃ dte ta size p, reachesWalk s devid iova dte ∧ walk s dte iova = .ok ta size p ∧
        u = iotlbInsert s devid iova ta size p dte.domainId) ∧
      ((dmaTranslate s devid iova access).2 = u ∨
        ∃ c flags addr, (dmaTranslate s devid iova access).2 = logEvent u c devid flags addr) := by
  have hout := dmaTranslate_outcome s devid iova access
  generalize dmaTranslate s devid iova access = answer at hout
  cases hout with
  | identity => exact ⟨s, .inl rfl, .inl rfl⟩
  | windowWrite => exact ⟨s, .inl rfl, .inl rfl⟩
  | windowRead => exact ⟨s, .inl rfl, .inl rfl⟩
  | hit => exact ⟨s, .inl rfl, .inl rfl⟩
  | logged r hr c flags addr => exact ⟨s, .inl rfl, .inr ⟨c, flags, addr, rfl⟩⟩
  | mapped dte ta size p hreach hwalk hp => exact ⟨_, .inr ⟨dte, ta, size, p, hreach, hwalk, rfl⟩, .inl rfl⟩
  | mappedDenied dte ta size p hreach hwalk c flags addr =>
    exact ⟨_, .inr ⟨dte, ta, size, p, hreach, hwalk, rfl⟩, .inr ⟨c, flags, addr, rfl⟩⟩

/-- An interrupt request logs at most one event. -/
theorem remapInterrupt_state (s : State) (devid : DevId) (msg : Message) :
    (remapInterrupt s devid msg).2 = s ∨
      ∃ c flags addr, (remapInterrupt s devid msg).2 = logEvent s c devid flags addr := by
  cases he : s.enabled with
  | false => exact .inl (by rw [remapInterrupt_of_disabled he])
  | true =>
    cases hf : (fetchDte s devid).1 with
    | ok dte => exact .inl (by rw [remapInterrupt_of_ok he hf])
    | notValid dte => exact .inl (by rw [remapInterrupt_of_notValid he hf])
    | err r =>
      obtain ⟨c, hlog⟩ := fetchDte_of_err hf
      exact .inr ⟨c, _, _, by rw [remapInterrupt_of_err he hf, hlog]⟩

/-- A device's request in one form: an update of the IOTLB alone, then at most one event. -/
theorem deviceRequest_state {s t : State} {devid : DevId}
    (h : (∃ iova access, t = (dmaTranslate s devid iova access).2) ∨ ∃ msg, t = (remapInterrupt s devid msg).2) :
    ∃ u, differsInIotlbOnly s u ∧ (t = u ∨ ∃ c flags addr, t = logEvent u c devid flags addr) := by
  rcases h with ⟨iova, access, rfl⟩ | ⟨msg, rfl⟩
  · obtain ⟨u, hu, hlog⟩ := dmaTranslate_state s devid iova access
    refine ⟨u, ?_, hlog⟩
    rcases hu with rfl | ⟨dte, ta, size, p, -, -, rfl⟩
    · rfl
    · exact iotlbInsert_differsInIotlbOnly ..
  · exact ⟨s, rfl, remapInterrupt_state s devid msg⟩

theorem remapInterrupt_iotlb (s : State) (devid : DevId) (msg : Message) :
    (remapInterrupt s devid msg).2.iotlb = s.iotlb := by
  rcases remapInterrupt_state s devid msg with e | ⟨c, flags, addr, e⟩
  · rw [e]
  · rw [e, logEvent_iotlb]

/-- Settles O46: a device's request is an update of the IOTLB alone and then at most one event (`deviceRequest_state`),
so what stays is what an event leaves alone. -/
theorem deviceRequestsTouchOnlyTheLog : Obligations.DeviceRequestsTouchOnlyTheLog := by
  intro s t devid h
  have hremap : (∃ msg, t = (remapInterrupt s devid msg).2) → t.iotlb = s.iotlb := by
    rintro ⟨msg, rfl⟩
    exact remapInterrupt_iotlb s devid msg
  obtain ⟨u, hu, hlog⟩ := deviceRequest_state h
  obtain ⟨hregs, hmem, hsurr, htrace, hrouting⟩ := hu.frame
  have hsame : u.regs = s.regs ∧ u.mem = s.mem ∧ u.trace = s.trace := by
    rw [hu]
    exact ⟨rfl, rfl, rfl⟩
  rcases hlog with rfl | ⟨c, flags, addr, rfl⟩
  · exact ⟨hsurr, hrouting, hregs.mono (by simp), fun _ _ => by rw [hregs .status (by simp)], fun x _ => hmem x,
      fun _ => hsame, .inl htrace, hremap⟩
  · have hslot : u.latched.evtBase + u.evtTail = s.latched.evtBase + s.evtTail := by
      obtain ⟨-, hlatched, -⟩ := hsurr
      rw [hlatched, State.evtTail, hregs .evtTail (by simp), State.evtTail]
    refine ⟨hsurr.trans (logEvent_sameSurroundings ..), fun d => (logEvent_routing ..).trans (hrouting d),
      (hregs.mono (by simp)).trans (logEvent_sameRegsBut u c devid flags addr), fun j hj => ?status,
      fun x hx => (logEvent_sameOutside u c devid flags addr x (hslot ▸ hx)).trans (hmem x), fun hoff => ?discarded,
      htrace ▸ logEvent_trace u c devid flags addr, hremap⟩
    case status => rw [logEvent_sameStatusBut u c devid flags addr j hj, hregs .status (by simp)]
    case discarded =>
      rw [logEvent_of_disabled c devid flags addr ((evtlogEnabled_congr (hregs .control (by simp))).trans hoff)]
      exact hsame

end Sys2Proof.Machine
end

/-! PROOFS. The step (44_commands R201 to R206, 20_memory R60): everything one step can do, said once, and what follows
for a round of the drain, for a request served and for reset. -/

section
namespace Sys2Proof.Machine

/-! ### A round of the drain (R201 to R206) -/

section
variable {s : State}

theorem decode_wf {bs : List Byte} {i : Instr} (h : decode bs = .ok i) : i.wf = true := by
  rw [decode] at h
  split_ifs at h
  exact (decodedCommandReencodes _ _ _ h).1

theorem drainRound_of_command {bs : List Byte} {i : Instr} {u : State} (hfetch : fetchCommand s = some bs)
    (hdecode : decode bs = .ok i) (hexec : exec i s = .next u) : drainRound s = .next (advanceHead u) := by
  simp [drainRound, hfetch, hdecode, hexec, advanceOutcome]

/-- A round logs the slot that it cannot run, or runs the command it decodes; then it advances the head. -/
theorem drainRound_cases (s : State) :
    (∃ c, drainRound s = .next (advanceHead (logEvent s c 0#16 0#12 s.cmdAddr))) ∨
    (∃ bs i u, fetchCommand s = some bs ∧ decode bs = .ok i ∧ exec i s = .next u ∧
      drainRound s = .next (advanceHead u)) := by
  cases hfetch : fetchCommand s with
  | none => exact .inl ⟨_, drainRound_of_unreadable hfetch⟩
  | some bs =>
    cases hdecode : decode bs with
    | error e => exact .inl ⟨_, drainRound_of_illegal hfetch hdecode⟩
    | ok i =>
      obtain ⟨u, hexec⟩ := exec_completes i s
      exact .inr ⟨bs, i, u, rfl, hdecode, hexec, drainRound_of_command hfetch hdecode hexec⟩

/-- Before its head advance a round changes no register but `EVT_TAIL` and `STATUS`, and nothing that surrounds the
unit. -/
theorem drainRound_frame (s : State) :
    ∃ u, drainRound s = .next (advanceHead u) ∧ sameRegsBut [.evtTail, .status] s u ∧ sameSurroundings s u := by
  rcases drainRound_cases s with ⟨c, hround⟩ | ⟨bs, i, u, -, -, hexec, hround⟩
  · exact ⟨_, hround, logEvent_sameRegsBut s c 0#16 0#12 s.cmdAddr, logEvent_sameSurroundings ..⟩
  · exact ⟨u, hround, exec_frame hexec⟩

theorem cmdNext_congr {u : State} (hregs : sameRegsBut [.evtTail, .status] s u) (hsurr : sameSurroundings s u) :
    u.cmdNext = s.cmdNext := by
  obtain ⟨-, hlatched, -⟩ := hsurr
  rw [State.cmdNext, State.cmdHead, hregs .cmdHead (by decide), hlatched, State.cmdNext, State.cmdHead]

theorem advanceHead_sameSurroundings (s : State) : sameSurroundings s (advanceHead s) := ⟨rfl, rfl, rfl, rfl, rfl⟩

theorem advanceHead_sameRegsBut (s : State) : sameRegsBut [.cmdHead] s (advanceHead s) := fun n hn => by
  rw [advanceHead_reg, if_neg fun h => hn (List.mem_singleton.mpr h)]

/-- What a step with a command waiting moves: the head by one slot, besides `EVT_TAIL` and `STATUS` (R203). -/
theorem step_of_waiting (h : s.drainPending = true) :
    ∃ t, step s = .next t ∧ t.reg .cmdHead = s.cmdNext ∧ sameRegsBut [.cmdHead, .evtTail, .status] s t ∧
      sameSurroundings s t := by
  obtain ⟨u, hround, hregs, hsurr⟩ := drainRound_frame s
  refine ⟨advanceHead u, (step_of_drainPending h).trans hround, ?head, ?regs,
    hsurr.trans (advanceHead_sameSurroundings u)⟩
  case head => rw [advanceHead_reg, if_pos rfl, cmdNext_congr hregs hsurr]
  case regs => exact (hregs.mono (by decide)).trans ((advanceHead_sameRegsBut u).mono (by decide))

end

/-- Settles O6: the round runs the decoded command, which is well-formed as every decoded one is (`decode_wf`), and
advances the head from where it stood, for no command moves it (`exec_frame`). -/
theorem stepRunsTheDecodedCommand : Obligations.StepRunsTheDecodedCommand := by
  intro s bs i hwaiting hfetch hdecode
  obtain ⟨u, hexec⟩ := exec_completes i s
  obtain ⟨hregs, hsurr⟩ := exec_frame hexec
  have hnext : u.cmdNext = (s.cmdHead + 16#64) % s.latched.cmdBytes := cmdNext_congr hregs hsurr
  refine ⟨decode_wf hdecode, u, hexec, ?_⟩
  rw [step_of_drainPending hwaiting, drainRound_of_command hfetch hdecode hexec, advanceHead, hnext]

/-- Settles O7: `step_of_waiting`, with the remainder 0 where the next slot would be the ring's end. -/
theorem everyRoundAdvancesTheHead : Obligations.EveryRoundAdvancesTheHead := by
  intro s hwaiting
  obtain ⟨t, hstep, hhead, hregs, hsurr⟩ := step_of_waiting hwaiting
  refine ⟨t, hstep, hhead, fun hlast => ?wrap, hregs, hsurr⟩
  case wrap => rw [hhead, State.cmdNext, hlast, BitVec.umod_self]

/-! ### Everything a step can do -/

theorem step_of_no_inputs {s : State} (h : s.drainPending = false) (hin : s.inputs = []) : step s = .next s := by
  rw [step_of_not_drainPending h, serveNext_of_no_inputs hin]

theorem step_of_request {s : State} {r : Request} {rest : List Request} (h : s.drainPending = false)
    (hin : s.inputs = r :: rest) : step s = .next (serve r { s with inputs := rest }) := by
  rw [step_of_not_drainPending h, serveNext, hin]

theorem step_cases {s t : State} (h : step s = .next t) :
    (s.drainPending = true ∧ ∃ c, t = advanceHead (logEvent s c 0#16 0#12 s.cmdAddr)) ∨
    (∃ i u, nextCommand s i ∧ exec i s = .next u ∧ t = advanceHead u) ∨
    (s.drainPending = false ∧ s.inputs = [] ∧ t = s) ∨
    (∃ r rest, nextRequest s r ∧ s.inputs = r :: rest ∧ t = serve r { s with inputs := rest }) := by
  cases hp : s.drainPending with
  | true =>
    rw [step_of_drainPending hp] at h
    rcases drainRound_cases s with ⟨c, hround⟩ | ⟨bs, i, u, hfetch, hdecode, hexec, hround⟩ <;>
      obtain rfl := Host.Outcome.next.inj (hround.symm.trans h)
    · exact .inl ⟨rfl, c, rfl⟩
    · exact .inr (.inl ⟨i, u, ⟨hp, bs, hfetch, hdecode⟩, hexec, rfl⟩)
  | false =>
    refine .inr (.inr ?_)
    cases hin : s.inputs with
    | nil => exact .inl ⟨rfl, rfl, (Host.Outcome.next.inj ((step_of_no_inputs hp hin).symm.trans h)).symm⟩
    | cons r rest =>
      exact .inr ⟨r, rest, ⟨hp, rest, hin⟩, rfl, (Host.Outcome.next.inj ((step_of_request hp hin).symm.trans h)).symm⟩

theorem step_completes (s : State) : ∃ t, step s = .next t := by
  cases hp : s.drainPending with
  | true =>
    obtain ⟨t, hstep, -⟩ := step_of_waiting hp
    exact ⟨t, hstep⟩
  | false => exact ⟨_, step_of_not_drainPending hp⟩

/-! ### Runs (60_exceptions R295) -/

theorem run_succ {s t : State} (h : step s = .next t) (k : Nat) :
    Host.Core.run Sys2Proof.core (k + 1) s = Host.Core.run Sys2Proof.core k t := by
  have hcore : Sys2Proof.core.step s = .next t := h
  simp only [Host.Core.run, hcore]

/-- Settles O11: by induction on the number of steps, for every state has a next one (`step_completes`). -/
theorem noRunStops : Obligations.NoRunStops := by
  intro k
  induction k with
  | zero => exact fun s => ⟨s, rfl⟩
  | succ k ih =>
    intro s
    obtain ⟨t, hstep⟩ := step_completes s
    obtain ⟨u, hrun⟩ := ih t
    exact ⟨u, (run_succ hstep k).trans hrun⟩

/-! ### A request served (00_scope R5) -/

/-- The whole write is its store followed by the drain, whether or not the write asks for one (46_mmio R266). -/
theorem mmioWrite_eq_drain {s : State} (h : s.drainPending = false) (o z : Nat) (v : Word) :
    mmioWrite s o z v = drain (mmioWriteStore s o z v) := by
  cases hd : mmioWriteDrains o z with
  | true => rw [mmioWrite, if_pos hd]
  | false => rw [mmioWrite, hd, if_neg Bool.false_ne_true, drain_idle (mmioWriteStore_idle v h hd)]

theorem mmioWriteStore_inputs (s : State) (o z : Nat) (v : Word) : (mmioWriteStore s o z v).inputs = s.inputs := by
  rw [mmioWriteStore_frame]

theorem mmioWriteStore_responses (s : State) (o z : Nat) (v : Word) :
    (mmioWriteStore s o z v).responses = s.responses := by
  rw [mmioWriteStore_frame]

theorem dmaTranslate_responses (s : State) (devid : DevId) (iova : Word) (access : Access) :
    (dmaTranslate s devid iova access).2.responses = s.responses := by
  obtain ⟨⟨-, -, -, -, hresponses⟩, -⟩ :=
    deviceRequestsTouchOnlyTheLog s (dmaTranslate s devid iova access).2 devid (.inl ⟨iova, access, rfl⟩)
  exact hresponses

theorem remapInterrupt_responses (s : State) (devid : DevId) (msg : Message) :
    (remapInterrupt s devid msg).2.responses = s.responses := by
  obtain ⟨⟨-, -, -, -, hresponses⟩, -⟩ :=
    deviceRequestsTouchOnlyTheLog s (remapInterrupt s devid msg).2 devid (.inr ⟨msg, rfl⟩)
  exact hresponses

theorem serve_translate (s : State) (devid : DevId) (iova : Word) (access : Access) :
    serve (.translate devid iova access) s =
      { (dmaTranslate s devid iova access).2 with
        responses := s.responses ++ [.translate (dmaTranslate s devid iova access).1] } := by
  rw [← dmaTranslate_responses s devid iova access]
  rfl

theorem serve_remapInterrupt (s : State) (devid : DevId) (msg : Message) :
    serve (.remapInterrupt devid msg) s =
      { (remapInterrupt s devid msg).2 with
        responses := s.responses ++ [.remapInterrupt (remapInterrupt s devid msg).1] } := by
  rw [← remapInterrupt_responses s devid msg]
  rfl

/-- Settles O10: the step serves the first request (`step_of_request`), and each kind is served as its own operation
answers; a register write is the store whose drain the whole write is (`mmioWrite_eq_drain`). -/
theorem stepServesTheNextRequest : Obligations.StepServesTheNextRequest := by
  intro s hidle
  refine ⟨step_of_no_inputs hidle, fun r rest => step_of_request hidle, fun devid iova access rest hin => ?translate,
    fun devid msg rest hin => ?remap, fun o z rest hin => ?read, fun o z v rest hin => ?write,
    fun addr bytes rest hin => ?store, fun addr n rest hin => ?load, fun ranges rest hin => ?fails⟩ <;>
    have hstep := step_of_request hidle hin
  case translate => exact ⟨_, _, Prod.mk.eta.symm, hstep.trans (congrArg _ (serve_translate ..))⟩
  case remap => exact ⟨_, _, Prod.mk.eta.symm, hstep.trans (congrArg _ (serve_remapInterrupt ..))⟩
  case read => exact hstep
  case write =>
    have hidle' : ({ s with inputs := rest } : State).drainPending = false := hidle
    exact ⟨_, hstep, mmioWrite_eq_drain hidle' o z v, mmioWriteStore_inputs .., mmioWriteStore_responses ..⟩
  case store =>
    exact ⟨writeBytes s.mem addr bytes, hstep, readBytes_writeBytes s.mem addr bytes,
      readByte_writeBytes_other s.mem addr bytes⟩
  case load => exact hstep
  case fails => exact hstep

/-! ### Reset (10_state R41, 70_reset R330) -/

theorem resetUnit_regs (s : State) : (resetUnit s).regs = State.reset.regs := rfl

theorem routing_of_translated_nil {s : State} (h : s.translated = []) (d : DevId) : s.routing d = .passThrough := by
  simp [State.routing, h]

/-- Settles O14: the step serves the request, whose registers are those of power on. -/
theorem resetGivesTheResetState : Obligations.ResetGivesTheResetState := by
  rintro s rest ⟨hidle, -⟩ hin
  exact ⟨resetUnit { s with inputs := rest }, step_of_request hidle hin, reg_of_resetRegs (resetUnit_regs _),
    mmioByte_of_resetRegs (resetUnit_regs _), rfl, rfl, rfl, rfl, rfl, rfl, rfl, routing_of_translated_nil rfl,
    rfl, rfl, rfl, rfl, rfl, rfl⟩

/-- Settles O15: the fields of the state at power on, whose routing list is empty. -/
theorem powerOnHoldsTheResetValues : Obligations.PowerOnHoldsTheResetValues :=
  ⟨reg_of_resetRegs rfl, rfl, rfl, rfl, rfl, rfl, rfl, rfl, routing_of_translated_nil rfl⟩

end Sys2Proof.Machine
end

/-! PROOFS. The page-table walk's rounds (41_page_table_walk R139 to R146) and the coding of sizes by runs of ones
(30_encoding R85, R106): where a round ends or goes on, the chain of entries that a walk follows, and the page it
answers. -/

section
namespace Sys2Proof.Machine

/-! ### Runs of ones (00_scope R6) -/

theorem le_onesFrom_iff (v : Word) (i : Nat) {t fuel : Nat} (h : t ≤ fuel) :
    t ≤ onesFrom v i fuel ↔ ∀ b < t, v.getLsbD (i + b) = true := by
  induction fuel generalizing i t with
  | zero => simp [Nat.le_zero.mp h]
  | succ fuel ih =>
    cases t with
    | zero => simp
    | succ t =>
      have hsplit : (∀ b < t + 1, v.getLsbD (i + b) = true) ↔
          v.getLsbD i = true ∧ ∀ b < t, v.getLsbD (i + 1 + b) = true := by
        refine ⟨fun hall => ⟨hall 0 (by omega), fun b hb => ?_⟩, fun ⟨h0, hrest⟩ b hb => ?_⟩
        · rw [Nat.add_assoc, Nat.add_comm 1]
          exact hall (b + 1) (by omega)
        · cases b with
          | zero => exact h0
          | succ b =>
            rw [Nat.add_comm b, ← Nat.add_assoc]
            exact hrest b (by omega)
      rw [hsplit, onesFrom]
      cases hbit : v.getLsbD i with
      | false => simp
      | true => rw [if_pos rfl, Nat.add_comm t, Nat.add_le_add_iff_left, ih (i + 1) (by omega)]; simp

theorem le_cto_iff (v : Word) {t : Nat} (h : t ≤ 64) : t ≤ cto v ↔ ∀ b < t, v.getLsbD b = true := by
  rw [cto, le_onesFrom_iff v 0 h]
  simp

theorem cto_eq {v : Word} {t : Nat} (h : t < 64) (hones : ∀ b < t, v.getLsbD b = true) (hzero : v.getLsbD t = false) :
    cto v = t := by
  have hle := (le_cto_iff v h.le).mpr hones
  have hlt : ¬ t + 1 ≤ cto v := fun hge => by
    rw [(le_cto_iff v h).mp hge t (by omega)] at hzero
    cases hzero
  omega

/-! ### Sizes and page bases (00_scope R6, R144, R145) -/

theorem one_shiftLeft_eq (e : Nat) : 1#64 <<< e = BitVec.ofNat 64 (2 ^ e) :=
  BitVec.eq_of_toNat_eq (by simp [Nat.shiftLeft_eq])

theorem getLsbD_size_sub_one {e : Nat} (he : e < 64) (j : Nat) :
    (BitVec.ofNat 64 (2 ^ e) - 1#64).getLsbD j = decide (j < e) := by
  have hlt : 2 ^ e < 2 ^ 64 := Nat.pow_lt_pow_right (by decide) he
  have hpos : 0 < 2 ^ e := Nat.two_pow_pos e
  have hnat : (BitVec.ofNat 64 (2 ^ e) - 1#64).toNat = 2 ^ e - 1 := by
    rw [BitVec.toNat_sub, BitVec.toNat_ofNat, BitVec.toNat_ofNat, Nat.mod_eq_of_lt hlt]
    omega
  rw [← BitVec.testBit_toNat, hnat, Nat.testBit_two_pow_sub_one]

/-- A page's first address is a multiple of its size. -/
theorem pageBase_mod (a : Word) {e : Nat} (he : e < 64) :
    (pageBase a (BitVec.ofNat 64 (2 ^ e))).toNat % 2 ^ e = 0 := by
  refine Nat.eq_of_testBit_eq fun j => ?_
  rw [Nat.testBit_mod_two_pow, BitVec.testBit_toNat, pageBase, BitVec.getLsbD_and, BitVec.getLsbD_not,
    getLsbD_size_sub_one he]
  by_cases hj : j < e <;> simp [hj]

/-- Settles O24: the run of ones from bit 12 up is `cto` of the address without its low 12 bits (`cto_eq`,
`le_cto_iff`). -/
theorem rangeIsCodedByTrailingOnes : Obligations.RangeIsCodedByTrailingOnes := by
  intro address
  have hbit (b : Nat) : (address >>> 12).getLsbD b = address.getLsbD (12 + b) := BitVec.getLsbD_ushiftRight ..
  refine ⟨rfl, fun hall => ?whole, fun t ht hones hzero => ?range⟩
  case whole =>
    have hge : 51 ≤ cto (address >>> 12) := (le_cto_iff _ (by decide)).mpr fun b hb => by
      rw [hbit, hall _ (by omega) (by omega)]
    rw [decodeRange, if_pos rfl]
    exact if_pos hge
  case range =>
    have hcto : cto (address >>> 12) = t :=
      cto_eq (by omega) (fun b hb => by rw [hbit, hones b hb]) (by rw [hbit, hzero])
    rw [decodeRange, if_pos rfl, hcto, ← one_shiftLeft_eq]
    exact if_neg (by omega)

/-! ### The result of a leaf (R144, R145) -/

section
variable {entry : Word} {k : Nat} {p : Perms}

theorem largePageLog_le_iff {z : Nat} (h : z ≤ 63) :
    z + 1 ≤ largePageLog entry ↔ ∀ b, 12 ≤ b → b < z → entry.getLsbD b = true := by
  have hlow (b : Nat) : (entry ||| 0xFFF#64).getLsbD b = (entry.getLsbD b || decide (b < 12)) := by
    rw [BitVec.getLsbD_or]
    congr 1
    exact getLsbD_size_sub_one (e := 12) (by decide) b
  rw [largePageLog, Nat.add_comm z, Nat.add_le_add_iff_left, le_cto_iff _ (by omega)]
  simp only [hlow, Bool.or_eq_true, decide_eq_true_iff]
  exact ⟨fun hall b h12 hb => (hall b hb).resolve_right (by omega),
    fun hall b hb => (Nat.lt_or_ge b 12).elim .inr fun h12 => .inl (hall b h12 hb)⟩

theorem leafResult_of_page (h : levelField entry ≠ 7#3) :
    leafResult entry k p =
      .ok (pageBase (entryAddr entry) (BitVec.ofNat 64 (2 ^ levelShift k))) (BitVec.ofNat 64 (2 ^ levelShift k)) p := by
  rw [leafResult, if_neg h, levelSize, one_shiftLeft_eq]

theorem leafResult_of_invalid_size (h : levelField entry = 7#3) (hsize : 52 < largePageLog entry) :
    leafResult entry k p = .err .largePageSizeInvalid := by
  rw [leafResult, if_pos h, if_pos hsize]

theorem leafResult_of_large_page (h : levelField entry = 7#3) (hsize : largePageLog entry ≤ 52) :
    leafResult entry k p =
      .ok (pageBase (entryAddr entry) (BitVec.ofNat 64 (2 ^ largePageLog entry)))
        (BitVec.ofNat 64 (2 ^ largePageLog entry)) p := by
  rw [leafResult, if_pos h, if_neg (by omega), one_shiftLeft_eq]

/-- A page is aligned to its size, which is a power of two from 4 KiB to 2^57 (R135). -/
def alignedPage (ta size : Word) : Prop :=
  ∃ e : Nat, 12 ≤ e ∧ e ≤ 57 ∧ size = BitVec.ofNat 64 (2 ^ e) ∧ ta.toNat % 2 ^ e = 0

theorem alignedPage_pageBase (a : Word) {e : Nat} (h12 : 12 ≤ e) (h57 : e ≤ 57) :
    alignedPage (pageBase a (BitVec.ofNat 64 (2 ^ e))) (BitVec.ofNat 64 (2 ^ e)) :=
  ⟨e, h12, h57, rfl, pageBase_mod a (by omega)⟩

theorem alignedPage_of_leafResult {ta size : Word} {q : Perms} (hk : k ≤ 5)
    (h : leafResult entry k p = .ok ta size q) : alignedPage ta size := by
  by_cases hlarge : levelField entry = 7#3
  · by_cases hsize : largePageLog entry ≤ 52
    · rw [leafResult_of_large_page hlarge hsize] at h
      obtain ⟨rfl, rfl, rfl⟩ := WalkResult.ok.inj h
      have h13 : 12 + 1 ≤ largePageLog entry := (largePageLog_le_iff (by decide)).mpr (by omega)
      exact alignedPage_pageBase _ (by omega) (by omega)
    · rw [leafResult_of_invalid_size hlarge (by omega)] at h
      cases h
  · rw [leafResult_of_page hlarge] at h
    obtain ⟨rfl, rfl, rfl⟩ := WalkResult.ok.inj h
    exact alignedPage_pageBase _ (by rw [levelShift]; omega) (by rw [levelShift]; omega)

end

/-! ### One round of the walk (R140 to R143) -/

section
variable {s : State} {iova entry : Word} {k : Nat} {p : Perms} {top : Bool}

theorem walkLoop_of_no_perms (hp : p &&& entryPerms entry = permsNone) :
    walkLoop s iova k entry p top = .noMapping (2 ^ levelShift k) := by
  cases k with
  | zero => rw [walkLoop_zero, if_pos hp]
  | succ k => rw [walkLoop_succ, if_pos hp]

theorem walkLoop_of_absent (hp : p &&& entryPerms entry ≠ permsNone) (ha : present entry = false) :
    walkLoop s iova k entry p false = .noMapping (2 ^ levelShift k) := by
  cases k with
  | zero => rw [walkLoop_zero, if_neg hp, ha]; rfl
  | succ k => rw [walkLoop_succ, if_neg hp, ha]; rfl

theorem walkLoop_of_leaf (hp : p &&& entryPerms entry ≠ permsNone) (ha : present entry = true)
    (hleaf : levelField entry = 0#3 ∨ levelField entry = 7#3 ∨ k = 0) :
    walkLoop s iova k entry p false = leafResult entry k (p &&& entryPerms entry) := by
  cases k with
  | zero => rw [walkLoop_zero, if_neg hp, ha]; rfl
  | succ k =>
    have hlevel : (levelField entry == 0#3 || levelField entry == 7#3) = true := by simpa using hleaf
    rw [walkLoop_succ, if_neg hp, ha, hlevel]
    rfl

/-- The entry points to a table: the device-table word always, another entry by its level field (R142). -/
def pointsToTable (top : Bool) (entry : Word) : Prop :=
  top = true ∨ (present entry = true ∧ levelField entry ≠ 0#3 ∧ levelField entry ≠ 7#3)

theorem walkLoop_of_table (hp : p &&& entryPerms entry ≠ permsNone) (ht : pointsToTable top entry) :
    walkLoop s iova (k + 1) entry p top =
      (memRead s (nextEntryAddr entry iova k) 8).elim (.err (entryReadError top (nextEntryAddr entry iova k)))
        fun bs => walkLoop s iova k (le64 bs 0) (p &&& entryPerms entry) false := by
  rw [walkLoop_succ, if_neg hp]
  rcases ht with rfl | ⟨ha, h0, h7⟩
  · rfl
  · rw [ha, if_neg (by simp), if_neg (by simp [h0, h7])]

end

/-! ### The chain of entries a walk follows -/

section
variable {s : State} {iova : Word} {m : Nat} {es : Nat → Word}

theorem chainPerms_zero (es : Nat → Word) : chainPerms es 0 = permsRW &&& entryPerms (es 0) := rfl

theorem chainPerms_succ (es : Nat → Word) (j : Nat) :
    chainPerms es (j + 1) = chainPerms es j &&& entryPerms (es (j + 1)) := by
  rw [chainPerms, List.range_succ, List.foldl_append]
  rfl

/-- After `j` rounds the walk stands at the chain's `j`-th entry, having gathered the chain's permissions. -/
theorem walkLoop_chain {d : Nat} (hchain : TableChain s m iova es d) (hd : d ≤ m) (j : Nat) (hj : j ≤ d) :
    ∃ p, p &&& entryPerms (es j) = chainPerms es j ∧
      walkLoop s iova m (es 0) permsRW true = walkLoop s iova (m - j) (es j) p (decide (j = 0)) := by
  induction j with
  | zero => exact ⟨permsRW, (chainPerms_zero es).symm, rfl⟩
  | succ j ih =>
    obtain ⟨p, hp, hloop⟩ := ih (by omega)
    have htable : pointsToTable (decide (j = 0)) (es j) := by
      rcases Nat.eq_zero_or_pos j with rfl | hpos
      · exact .inl rfl
      · exact .inr (hchain.inner j (by omega) hpos)
    have hread : memRead s (nextEntryAddr (es j) iova (m - (j + 1))) 8 = some (wordBytes (es (j + 1))) := by
      rw [show m - (j + 1) = m - 1 - j by omega]
      exact hchain.read j (by omega)
    refine ⟨chainPerms es j, (chainPerms_succ es j).symm, ?_⟩
    rw [hloop, show m - j = m - (j + 1) + 1 by omega,
      walkLoop_of_table (by rw [hp]; exact hchain.perms j (by omega)) htable, hread, hp]
    exact congrArg (walkLoop s iova (m - (j + 1)) · (chainPerms es j) false) (le64_wordBytes _)

end

/-- Settles O29: the walk comes to the chain's last entry with the chain's permissions (`walkLoop_chain`), and that
entry's round ends as its kind says. -/
theorem walkFollowsTheTableChain : Obligations.WalkFollowsTheTableChain := by
  intro s dte iova m d es hv hm h1 h6 hnear hes hd hchain
  obtain rfl : m = dte.mode.toNat := hm
  have hin : ¬ iovaOutOfRange dte.mode.toNat iova = true := fun h => by
    obtain ⟨h5, hfar⟩ := (iovaOutOfRange_iff _ _).mp h
    exact absurd (hnear h5) (by omega)
  obtain ⟨p, hp, hloop⟩ := walkLoop_chain hchain hd d le_rfl
  have hwalk : walk s dte iova = walkLoop s iova (dte.mode.toNat - d) (es d) p (decide (d = 0)) := by
    rw [walk_of_levels hv h1 h6, if_neg hin, ← hes, hloop]
  have hbelow (hpos : 0 < d) : decide (d = 0) = false := decide_eq_false (by omega)
  have hleaf (hperms : chainPerms es d ≠ 0#2) (hpos : 0 < d) (hpr : (es d).getLsbD 0 = true)
      (hkind : levelField (es d) = 0#3 ∨ levelField (es d) = 7#3 ∨ dte.mode.toNat - d = 0) :
      walk s dte iova = leafResult (es d) (dte.mode.toNat - d) (chainPerms es d) := by
    rw [hwalk, hbelow hpos, walkLoop_of_leaf (hp ▸ hperms) hpr hkind, hp]
  refine ⟨fun hnone => ?noPerms, fun hperms hpos hpr => ?absent, fun hperms hpos hpr h7 hlast => ?page,
    fun hperms hpos hpr h7 hones => ?invalidSize, fun z hperms hpos hpr h7 h12 h51 hones hzero => ?largePage,
    fun hperms hlt htable hread => ?unreadable⟩
  case noPerms => rw [hwalk, walkLoop_of_no_perms (hp.trans hnone), levelShift]
  case absent => rw [hwalk, hbelow hpos, walkLoop_of_absent (hp ▸ hperms) hpr, levelShift]
  case page =>
    rw [hleaf hperms hpos hpr (hlast.imp_right fun h => .inr (by omega)), leafResult_of_page h7]
    rfl
  case invalidSize =>
    rw [hleaf hperms hpos hpr (.inr (.inl h7)), leafResult_of_invalid_size h7]
    exact (largePageLog_le_iff (by decide)).mpr fun b h12 hb => hones b h12 (by omega)
  case largePage =>
    have hlog : largePageLog (es d) = z + 1 := by
      have hge := (largePageLog_le_iff (by omega)).mpr hones
      have hlt : ¬ z + 1 + 1 ≤ largePageLog (es d) := fun hge => by
        rw [(largePageLog_le_iff (by omega)).mp hge z h12 (by omega)] at hzero
        cases hzero
      omega
    rw [hleaf hperms hpos hpr (.inr (.inl h7)), leafResult_of_large_page h7 (by omega), hlog]
    rfl
  case unreadable =>
    have hread' : memRead s (nextEntryAddr (es d) iova (dte.mode.toNat - 1 - d)) 8 = none := hread
    rw [hwalk, show dte.mode.toNat - d = dte.mode.toNat - 1 - d + 1 by omega,
      walkLoop_of_table (hp ▸ hperms) (htable.imp_left fun h => decide_eq_true h), hread']
    by_cases hd0 : d = 0
    · simp only [hd0, if_true, decide_true]
      rfl
    · simp only [hd0, if_false, decide_false]
      rfl

/-! ### The page a walk answers (R135) -/

theorem and_eq_self_of_and_and {n : Nat} {q a b : BitVec n} (h : q &&& (a &&& b) = q) :
    q &&& a = q ∧ q &&& b = q := by
  constructor <;> rw [← h] <;> ext j <;> simp only [BitVec.getElem_and] <;> cases q[j] <;> cases a[j] <;> simp

theorem walkLoop_ok {s : State} {iova ta size : Word} {q : Perms} {k : Nat} {entry : Word} {p : Perms} {top : Bool}
    (hk : k ≤ 5 ∨ (k = 6 ∧ top = true)) (h : walkLoop s iova k entry p top = .ok ta size q) :
    q &&& (p &&& entryPerms entry) = q ∧ alignedPage ta size := by
  induction k generalizing entry p top with
  | zero =>
    rw [walkLoop_zero] at h
    split_ifs at h
    exact ⟨by rw [perms_of_leafResult_ok h, BitVec.and_self], alignedPage_of_leafResult (by omega) h⟩
  | succ k ih =>
    rw [walkLoop_succ] at h
    split_ifs at h with _ _ hleaf
    · have hk5 : k + 1 ≤ 5 := hk.resolve_right fun ⟨_, htop⟩ => by simp [htop] at hleaf
      exact ⟨by rw [perms_of_leafResult_ok h, BitVec.and_self], alignedPage_of_leafResult hk5 h⟩
    · cases hread : memRead s (nextEntryAddr entry iova k) 8 with
      | none => simp [hread] at h
      | some bs =>
        rw [hread] at h
        obtain ⟨hperms, hpage⟩ := ih (.inl (by omega)) h
        exact ⟨(and_eq_self_of_and_and hperms).1, hpage⟩

theorem walk_ok_page {s : State} {dte : Dte} {iova ta size : Word} {p : Perms} (h : walk s dte iova = .ok ta size p) :
    p &&& entryPerms dte.q0 = p ∧ alignedPage ta size := by
  unfold walk at h
  split_ifs at h with _ h7 h0 _ hfar
  · obtain ⟨rfl, rfl, rfl⟩ := WalkResult.ok.inj h
    exact ⟨BitVec.and_self, alignedPage_pageBase iova (e := 12) (by decide) (by decide)⟩
  · have hlt := dte.mode.isLt
    have hne : dte.mode.toNat ≠ 7 := fun e => h7 (BitVec.eq_of_toNat_eq e)
    have hmode : dte.mode.toNat ≤ 5 ∨ (dte.mode.toNat = 6 ∧ true = true) := by
      simp only [and_true]
      omega
    obtain ⟨hperms, hpage⟩ := walkLoop_ok hmode h
    exact ⟨(and_eq_self_of_and_and hperms).2, hpage⟩

/-- Settles O30: permissions only lose bits on the way down, and each kind of leaf is a page aligned to its size. -/
theorem walkAnswersAnAlignedPage : Obligations.WalkAnswersAnAlignedPage := by
  intro s dte iova ta size p h
  obtain ⟨hperms, hpage⟩ := walk_ok_page h
  exact ⟨walk_ok_perms_ne_none h, hperms, hpage⟩

/-! ### Addresses of one frame (42_iotlb R161) -/

section
variable {iova iova' : Word} (h : iova.toNat / 4096 = iova'.toNat / 4096)
include h

theorem ushiftRight_of_frame (n : Nat) : iova >>> (12 + n) = iova' >>> (12 + n) := by
  refine BitVec.eq_of_toNat_eq ?_
  rw [BitVec.toNat_ushiftRight, BitVec.toNat_ushiftRight, Nat.shiftRight_eq_div_pow, Nat.shiftRight_eq_div_pow,
    Nat.pow_add, ← Nat.div_div_eq_div_mul, ← Nat.div_div_eq_div_mul]
  exact congrArg (· / 2 ^ n) h

theorem base4K_of_frame : base4K iova = base4K iova' := by
  refine BitVec.eq_of_getLsbD_eq fun j hj => ?_
  have hmask : (0x1000#64 - 1#64).getLsbD j = decide (j < 12) := getLsbD_size_sub_one (e := 12) (by decide) j
  rw [base4K, base4K, pageBase, pageBase, BitVec.getLsbD_and, BitVec.getLsbD_and, BitVec.getLsbD_not, hmask]
  by_cases hlow : j < 12
  · simp [hlow]
  · have hbit := congrArg (BitVec.getLsbD · (j - 12)) (ushiftRight_of_frame h 0)
    simp only [BitVec.getLsbD_ushiftRight, show 12 + 0 + (j - 12) = j by omega] at hbit
    rw [hbit]

theorem iovaOutOfRange_of_frame (m : Nat) : iovaOutOfRange m iova = iovaOutOfRange m iova' := by
  have hle (a : Word) : 2 ^ levelShift m ≤ a.toNat ↔ 2 ^ (9 * m) ≤ a.toNat / 4096 := by
    rw [Nat.le_div_iff_mul_le (by decide), levelShift, Nat.pow_add, Nat.mul_comm]
  rw [iovaOutOfRange, iovaOutOfRange]
  simp only [hle, h]

theorem walkLoop_of_frame (s : State) (k : Nat) (entry : Word) (p : Perms) (top : Bool) :
    walkLoop s iova k entry p top = walkLoop s iova' k entry p top := by
  induction k generalizing entry p top with
  | zero => rfl
  | succ k ih =>
    have haddr : nextEntryAddr entry iova k = nextEntryAddr entry iova' k := by
      rw [nextEntryAddr, tableIndex, levelShift, ushiftRight_of_frame h, nextEntryAddr, tableIndex, levelShift]
    rw [walkLoop_succ, walkLoop_succ, haddr]
    simp only [ih]

end

/-- Settles O31: the walk reads an address only by its range test, its table indices and its 4 KiB base, and none of the
three sees the low 12 bits. -/
theorem walkDependsOnTheFrameOnly : Obligations.WalkDependsOnTheFrameOnly := by
  intro s dte iova iova' h
  rw [walk, walk, base4K_of_frame h, iovaOutOfRange_of_frame h, walkLoop_of_frame h]

end Sys2Proof.Machine
end

/-! PROOFS. The register block (46_mmio R265 to R279, 10_state R12, R23): the bytes a read gives, the bytes a write
merges, and the writes that change nothing, latch nothing or set the run flags. -/

section
namespace Sys2Proof.Machine

/-! ### The bytes of the register block (20_memory R52, 10_state R12, R23) -/

theorem wordByte_eq (v : Word) (k : Nat) : wordByte v k = BitVec.ofNat 8 (v.toNat / 2 ^ (8 * k)) := by
  rw [← Nat.shiftRight_eq_div_pow]
  rfl

/-- Consecutive bytes of a word code its digits from that place on. -/
theorem leNat_wordByte_run (v : Word) (n : Nat) : ∀ i : Nat,
    leNat ((List.range n).map fun j => wordByte v (i + j)) = v.toNat / 2 ^ (8 * i) % 2 ^ (8 * n) := by
  induction n with
  | zero => simp [leNat, Nat.mod_one]
  | succ n ih =>
    intro i
    have htail : ((List.range n).map Nat.succ).map (fun j => wordByte v (i + j)) =
        (List.range n).map fun j => wordByte v (i + 1 + j) := by
      rw [List.map_map]
      refine List.map_congr_left fun j _ => ?_
      rw [Function.comp_apply, Nat.succ_eq_add_one, Nat.add_right_comm, Nat.add_assoc]
    have hi : 2 ^ (8 * (i + 1)) = 2 ^ (8 * i) * 256 := by rw [Nat.mul_add, Nat.pow_add]
    have hn : 2 ^ (8 * (n + 1)) = 256 * 2 ^ (8 * n) := by rw [Nat.mul_add, Nat.pow_add, Nat.mul_comm]
    rw [List.range_succ_eq_map, List.map_cons, htail, leNat, ih, wordByte_eq, BitVec.toNat_ofNat, Nat.add_zero, hi, hn,
      ← Nat.div_div_eq_div_mul, Nat.mod_mul]

section
variable {s : State} {o z : Nat} {n : RegName}

theorem mmioByte_of_register (hn : n.offset = o / 8 * 8) : s.mmioByte o = wordByte (s.reg n) (o % 8) := by
  rw [State.mmioByte, regHolding_eq_some_iff.mpr hn]

theorem mmioByte_of_outside (h : ∀ n : RegName, n.offset ≠ o / 8 * 8) : s.mmioByte o = 0#8 := by
  rw [State.mmioByte, regHolding_eq_none.mpr h]

/-- Every byte of an accepted access lies in the same aligned group of eight. -/
theorem acceptedAccess.add_div (h : acceptedAccess o z) {k : Nat} (hk : k < z) : (o + k) / 8 = o / 8 := by
  have := h.mod_add_le
  omega

theorem mmioRead_of_accepted (h : acceptedAccess o z) :
    mmioRead s o z = leNat ((List.range z).map fun j => s.mmioByte (o + j)) :=
  if_pos (mmioAccessOk_iff.mpr h)

theorem mmioRead_of_register (h : acceptedAccess o z) (hn : n.offset = o / 8 * 8) :
    mmioRead s o z = (s.reg n).toNat / 2 ^ (8 * (o % 8)) % 2 ^ (8 * z) := by
  rw [mmioRead_of_accepted h, ← leNat_wordByte_run]
  congr 1
  refine List.map_congr_left fun j hj => ?_
  have hj : j < z := List.mem_range.mp hj
  have hfit := h.mod_add_le
  rw [mmioByte_of_register (by rw [h.add_div hj, hn]), show (o + j) % 8 = o % 8 + j by omega]

theorem mmioRead_of_outside (h : acceptedAccess o z) (hout : ∀ n : RegName, n.offset ≠ o / 8 * 8) :
    mmioRead s o z = 0 := by
  rw [mmioRead_of_accepted h]
  refine leNat_of_zeros fun b hb => ?_
  obtain ⟨j, hj, rfl⟩ := List.mem_map.mp hb
  exact mmioByte_of_outside fun n => by
    rw [h.add_div (List.mem_range.mp hj)]
    exact hout n

end

/-- Settles O47: a refused access is refused by the model's own test (`mmioAccessOk_iff`); the bytes of an accepted one
are consecutive bytes of one register, or all of none. -/
theorem mmioReadReturnsTheBytes : Obligations.MmioReadReturnsTheBytes := by
  intro s o z
  exact ⟨fun h => if_neg (mt mmioAccessOk_iff.mp h), fun h _ => mmioRead_of_register h, mmioRead_of_outside⟩

/-! ### The bytes a write merges (10_state R12) -/

section
variable {s : State} {o z : Nat} {n : RegName}

/-- A byte of the register that an accepted write falls in: merged if it is written, else kept. -/
theorem mmioByte_store_of_register (v : Word) (h : acceptedAccess o z) (hn : n.offset = o / 8 * 8) {x : Nat}
    (hx : x / 8 = o / 8) :
    (storeRegBytes s o (lowBytes v z)).mmioByte x =
      if o ≤ x ∧ x < o + z then mergeByte (s.mmioByte x) (wordByte v (x - o)) (roByte x) (w1cByte x)
      else s.mmioByte x := by
  have hnx : n.offset = x / 8 * 8 := by rw [hx, hn]
  have hro : roByte x = wordByte n.ro (x % 8) := by rw [roByte, regHolding_eq_some_iff.mpr hnx]
  have hw1c : w1cByte x = wordByte n.w1c (x % 8) := by rw [w1cByte, regHolding_eq_some_iff.mpr hnx]
  have hin (j : Nat) (hj : j < 8) : (8 * (o % 8) ≤ 8 * (x % 8) + j ∧ 8 * (x % 8) + j < 8 * (o % 8) + 8 * z) ↔
      o ≤ x ∧ x < o + z := by omega
  rw [mmioByte_of_register hnx, mmioByte_of_register hnx, hro, hw1c]
  refine BitVec.eq_of_getLsbD_eq fun j hj => ?_
  rw [getLsbD_wordByte _ _ hj, getLsbD_store s v h hn (by omega)]
  by_cases hwritten : o ≤ x ∧ x < o + z
  · rw [if_pos hwritten, if_pos ((hin j hj).mpr hwritten), getLsbD_mergeByte _ _ _ _ hj, getLsbD_wordByte _ _ hj,
      getLsbD_wordByte _ _ hj, getLsbD_wordByte _ _ hj, getLsbD_wordByte _ _ hj,
      show 8 * (x % 8) + j - 8 * (o % 8) = 8 * (x - o) + j by omega]
  · rw [if_neg hwritten, if_neg (mt (hin j hj).mp hwritten), getLsbD_wordByte _ _ hj]

/-- A byte of another register, or of none, is not written (R23). -/
theorem mmioByte_store_of_other (v : Word) (h : acceptedAccess o z) {x : Nat} (hx : x / 8 ≠ o / 8) :
    (storeRegBytes s o (lowBytes v z)).mmioByte x = s.mmioByte x := by
  rw [State.mmioByte, State.mmioByte]
  cases hr : regHolding x with
  | none => rfl
  | some n =>
    have hnx := regHolding_eq_some_iff.mp hr
    have hreg : (storeRegBytes s o (lowBytes v z)).reg n = s.reg n :=
      storeRegBytes_reg_other _ _ _ fun k hk hno => by
        have hno := regHolding_eq_some_iff.mp hno
        rw [h.add_div (by simpa using hk)] at hno
        omega
    exact congrArg (wordByte · (x % 8)) hreg

/-- The bytes outside the registers are 0 and read-only, so merging anything into them gives 0 (R23). -/
theorem mergeByte_of_outside {x : Nat} (h : ∀ n : RegName, n.offset ≠ x / 8 * 8) (b : Byte) :
    mergeByte (s.mmioByte x) b (roByte x) (w1cByte x) = s.mmioByte x := by
  have hnone := regHolding_eq_none.mpr h
  simp [State.mmioByte, roByte, w1cByte, hnone, mergeByte]

theorem storeRegBytes_of_outside (v : Word) (h : acceptedAccess o z) (hout : ∀ n : RegName, n.offset ≠ o / 8 * 8) :
    storeRegBytes s o (lowBytes v z) = s :=
  storeRegBytes_outside _ _ _ fun k hk => regHolding_eq_none.mpr fun n => by
    rw [h.add_div (by simpa using hk)]
    exact hout n

end

/-- Settles O48: in the group of eight bytes that the access falls in, a register's bytes are merged by its masks and
bytes of no register stay 0; no other group is touched. -/
theorem mmioStoreMergesByTheMasks : Obligations.MmioStoreMergesByTheMasks := by
  intro s o z v h x
  have hfit := h.mod_add_le
  rw [← wordByte_eq]
  change _ = if o ≤ x ∧ x < o + z then mergeByte (s.mmioByte x) (wordByte v (x - o)) (roByte x) (w1cByte x) else _
  by_cases hx : x / 8 = o / 8
  · by_cases hreg : ∃ n : RegName, n.offset = o / 8 * 8
    · obtain ⟨n, hn⟩ := hreg
      exact mmioByte_store_of_register v h hn hx
    · have hout : ∀ n : RegName, n.offset ≠ o / 8 * 8 := not_exists.mp hreg
      rw [storeRegBytes_of_outside v h hout, mergeByte_of_outside (hx ▸ hout), ite_self]
  · rw [mmioByte_store_of_other v h hx, if_neg (by omega)]

/-! ### Writes that change nothing (R23, 20_memory R54) -/

section
variable {s : State} {o z : Nat}

/-- A refused write, or one outside the registers, stores nothing and triggers nothing. -/
theorem mmioWriteStore_of_no_register (v : Word)
    (h : ¬ (acceptedAccess o z ∧ ∃ n : RegName, n.offset = o / 8 * 8)) :
    mmioWriteStore s o z v = s ∧ mmioWriteDrains o z = false := by
  by_cases ha : acceptedAccess o z
  · have hout : ∀ n : RegName, n.offset ≠ o / 8 * 8 := fun n hn => h ⟨ha, n, hn⟩
    simp [mmioWriteStore, mmioWriteDrains, regHolding_eq_none.mpr hout, storeRegBytes_of_outside v ha hout]
  · have hno : mmioAccessOk o z = false := Bool.eq_false_iff.mpr (mt mmioAccessOk_iff.mp ha)
    simp [mmioWriteStore, mmioWriteDrains, hno]

theorem mmioWrite_of_no_register (v : Word) (h : ¬ (acceptedAccess o z ∧ ∃ n : RegName, n.offset = o / 8 * 8)) :
    mmioWrite s o z v = .next s := by
  obtain ⟨hstore, hdrains⟩ := mmioWriteStore_of_no_register (s := s) v h
  rw [mmioWrite, hdrains, if_neg Bool.false_ne_true, hstore]

end

/-- Settles O49: neither access is an accepted one in a register (`mmioWrite_of_no_register`); a read appends its
value. -/
theorem refusedAccessesChangeNothing : Obligations.RefusedAccessesChangeNothing := by
  intro s o z v
  refine ⟨fun hno => mmioWrite_of_no_register v fun ⟨ha, _⟩ => hno ha,
    fun _ hout => mmioWrite_of_no_register v fun ⟨_, n, hn⟩ => hout n hn, ?_⟩
  rintro t rfl
  exact ⟨rfl, rfl, rfl, rfl, rfl, rfl, rfl⟩

/-! ### Partial writes of the base registers, and `CONTROL` (46_mmio R270, R274) -/

/-- Settles O51: a write that ends before byte 7 has no trigger, so its store phase is all it does. -/
theorem partialBaseWriteDoesNotLatch : Obligations.PartialBaseWriteDoesNotLatch := by
  intro s o z v n h hbase hn hend
  have hwrite : mmioWrite s o z v = .next (storeRegBytes s o (lowBytes v z)) := by
    rw [mmioWrite_of_register s v h hn, beq_false_of_ne hend.ne]
    rcases hbase with rfl | rfl | rfl <;> rfl
  obtain ⟨⟨-, hlatched, -⟩, hhidden, hmem, htrace⟩ := store_frame s v o z
  exact ⟨_, hwrite, hlatched, store_sameRegsBut s v h hn, hhidden, hmem, htrace, fun _ => rfl⟩

theorem refreshRunFlags_statusFlag (s : State) (f : StatusFlag) :
    s.refreshRunFlags.statusFlag f =
      if f = .cmdBufRun then s.cmdbufEnabled else if f = .eventLogRun then s.evtlogEnabled else s.statusFlag f := by
  rw [State.refreshRunFlags, statusFlag_setStatusFlag, statusFlag_setStatusFlag]

theorem refreshRunFlags_sameStatusBut (s : State) : sameStatusBut [3, 4] s s.refreshRunFlags := by
  intro j hj
  obtain ⟨h3, h4⟩ : j ≠ StatusFlag.eventLogRun.bit ∧ j ≠ StatusFlag.cmdBufRun.bit := by
    simpa [StatusFlag.bit] using hj
  rw [State.refreshRunFlags, setStatusFlag_reg, if_pos rfl, getLsbD_withBit _ _ _ (StatusFlag.bit_lt _), if_neg h4,
    setStatusFlag_reg, if_pos rfl, getLsbD_withBit _ _ _ (StatusFlag.bit_lt _), if_neg h3]

/-- Settles O52: the write is the store phase and then the run flags' refresh and a drain; `CONTROL` has no masks, so a
whole write stores its value as it is. -/
theorem controlWriteSetsRunFlagsAndDrains : Obligations.ControlWriteSetsRunFlagsAndDrains := by
  intro s o z v h ho
  have hn : RegName.control.offset = o / 8 * 8 := ho.symm
  have hregs := store_sameRegsBut s v h hn
  obtain ⟨hsurr, hhidden, hmem, htrace⟩ := store_frame s v o z
  have hwrite := mmioWrite_of_register s v h hn
  generalize hstored : storeRegBytes s o (lowBytes v z) = u at hregs hsurr hhidden hmem htrace hwrite ⊢
  have hcontrol : u.refreshRunFlags.reg .control = u.reg .control := refreshRunFlags_reg u .control (by decide)
  refine ⟨u.refreshRunFlags, hwrite, hcontrol, fun hz => ?whole, ?logRun, ?bufRun, fun j hj => ?status,
    fun m hm => ?regs, hsurr, hhidden, hmem, htrace⟩
  case whole =>
    subst hz hstored
    rw [hcontrol]
    refine BitVec.eq_of_getLsbD_eq fun j hj => ?_
    have hro : RegName.control.ro.getLsbD j = false := BitVec.getLsbD_zero
    have hw1c : RegName.control.w1c.getLsbD j = false := BitVec.getLsbD_zero
    rw [getLsbD_store s v h hn hj, h.mod_eq_zero, if_pos (by omega), hw1c, hro,
      mergeBit_of_clear _ (Bool.and_false _), Bool.not_false, Bool.and_true]
    rfl
  case logRun =>
    rw [refreshRunFlags_statusFlag, if_neg (by decide), if_pos rfl, hcontrol]
    rfl
  case bufRun =>
    rw [refreshRunFlags_statusFlag, if_pos rfl, hcontrol]
    rfl
  case status => rw [refreshRunFlags_sameStatusBut u j hj, hregs .status (by decide)]
  case regs =>
    obtain ⟨hnc, hns⟩ : m ≠ .control ∧ m ≠ .status := by simpa using hm
    rw [refreshRunFlags_reg u m hns, hregs m (by simpa using hnc)]

end Sys2Proof.Machine
end

/-! PROOFS. The invariant (10_state R26, R27): its parts, what each update of the state does to them, and that every
step keeps them all. -/

section
namespace Sys2Proof.Machine

/-! ### The invariant's parts -/

/-- The parts of the invariant that speak of memory, the routing list and the IOTLB. -/
structure HiddenGood (s : State) : Prop where
  cfg : s.cfg.wf = true
  mem : Memory.wf s.mem = true
  translated : rising BitVec.toNat s.translated = true
  iotlb : iotlbOk s = true

/-- The parts of the invariant that speak of the registers and the latched values. -/
structure RegsGood (s : State) : Prop where
  fields : ∀ n : RegName, s.reg n &&& ~~~n.live = 0#64
  latched : latchedOk s.latched = true
  pointers : pointersOk s = true
  runFlags : runFlagsOk s = true

theorem regsInField_iff {s : State} : regsInField s = true ↔ ∀ n : RegName, s.reg n &&& ~~~n.live = 0#64 := by
  simp [regsInField, List.all_eq_true]

theorem good_iff {s : State} : s.good = true ↔ HiddenGood s ∧ RegsGood s := by
  simp only [State.good, Bool.and_eq_true, regsInField_iff]
  constructor
  · rintro ⟨⟨⟨⟨⟨⟨⟨hcfg, hmem⟩, htranslated⟩, hiotlb⟩, hfields⟩, hlatched⟩, hpointers⟩, hflags⟩
    exact ⟨⟨hcfg, hmem, htranslated, hiotlb⟩, ⟨hfields, hlatched, hpointers, hflags⟩⟩
  · rintro ⟨⟨hcfg, hmem, htranslated, hiotlb⟩, ⟨hfields, hlatched, hpointers, hflags⟩⟩
    exact ⟨⟨⟨⟨⟨⟨⟨hcfg, hmem⟩, htranslated⟩, hiotlb⟩, hfields⟩, hlatched⟩, hpointers⟩, hflags⟩

theorem iotlbOk_iff {s : State} :
    iotlbOk s = true ↔ rising IotlbEntry.key s.iotlb = true ∧ s.iotlb.length ≤ s.cfg.iotlbCapacity ∧
      ∀ e ∈ s.iotlb, entryOk e = true := by
  simp only [iotlbOk, Bool.and_eq_true, decide_eq_true_iff, List.all_eq_true, and_assoc]

/-- The four pointer registers (R18 to R21). -/
def RegName.isPointer : RegName → Bool
  | .cmdHead | .cmdTail | .evtHead | .evtTail => true
  | _ => false

/-- The size of the ring that a pointer register points into. -/
def ringOf (l : Latched) : RegName → Word
  | .cmdHead | .cmdTail => l.cmdBytes
  | _ => l.evtBytes

theorem pointersOk_iff {s : State} :
    pointersOk s = true ↔ ∀ n : RegName, n.isPointer = true → s.reg n &&& pointerField < ringOf s.latched n := by
  simp only [pointersOk, Bool.and_eq_true, decide_eq_true_iff]
  constructor
  · rintro ⟨⟨⟨hch, hct⟩, heh⟩, het⟩ n hn
    cases n with
    | cmdHead => exact hch
    | cmdTail => exact hct
    | evtHead => exact heh
    | evtTail => exact het
    | _ => cases hn
  · intro h
    exact ⟨⟨⟨h .cmdHead rfl, h .cmdTail rfl⟩, h .evtHead rfl⟩, h .evtTail rfl⟩

theorem runFlagsOk_iff {s : State} :
    runFlagsOk s = true ↔ s.statusFlag .eventLogRun = s.evtlogEnabled ∧ s.statusFlag .cmdBufRun = s.cmdbufEnabled := by
  simp only [runFlagsOk, Bool.and_eq_true, beq_iff_eq]

/-- The device table's latched values are ones that a base register derives (R14, R25). -/
def devtabLatchedOk (base bytes : Word) : Prop :=
  base &&& ~~~baseField = 0#64 ∧ 4096#64 ≤ bytes ∧ bytes ≤ 0x20_0000#64 ∧ bytes &&& 0xFFF#64 = 0#64

/-- A ring's size: 16 bytes times a power of two below 2^16 (R15, R16). -/
def ringSize (bytes : Word) : Prop := ∃ k < 16, bytes = 16#64 <<< k

theorem latchedOk_iff {l : Latched} :
    latchedOk l = true ↔ devtabLatchedOk l.devtabBase l.devtabBytes ∧
      (l.cmdBase &&& ~~~baseField = 0#64 ∧ ringSize l.cmdBytes) ∧
      (l.evtBase &&& ~~~baseField = 0#64 ∧ ringSize l.evtBytes) := by
  simp only [latchedOk, devtabLatchedOk, ringSize, Bool.and_eq_true, beq_iff_eq, decide_eq_true_iff, List.any_eq_true,
    List.mem_range]
  tauto

/-! ### Rings and pointers (R18 to R21, R26) -/

theorem ringSize.toNat_eq {bytes : Word} (h : ringSize bytes) : ∃ k < 16, bytes.toNat = 16 * 2 ^ k := by
  obtain ⟨k, hk, rfl⟩ := h
  refine ⟨k, hk, ?_⟩
  have hlt : 2 ^ k ≤ 2 ^ 15 := Nat.pow_le_pow_right (by decide) (by omega)
  rw [BitVec.toNat_shiftLeft, BitVec.toNat_ofNat, Nat.shiftLeft_eq]
  omega

theorem ringSize.bounds {bytes : Word} (h : ringSize bytes) :
    bytes.toNat % 16 = 0 ∧ 16 ≤ bytes.toNat ∧ bytes.toNat ≤ 2 ^ 19 := by
  obtain ⟨k, hk, hbytes⟩ := h.toNat_eq
  have hle : 2 ^ k ≤ 2 ^ 15 := Nat.pow_le_pow_right (by decide) (by omega)
  have hpos : 0 < 2 ^ k := Nat.two_pow_pos k
  omega

theorem getLsbD_pointerField (j : Nat) : pointerField.getLsbD j = decide (4 ≤ j ∧ j < 19) := by
  rw [show pointerField = fieldMask 4 15 from by decide, getLsbD_fieldMask, Bool.eq_iff_iff]
  simp only [Bool.and_eq_true, decide_eq_true_iff]
  omega

/-- A pointer register's field holds the multiples of 16 below 2^19. -/
theorem inPointerField_iff {v : Word} : v &&& ~~~pointerField = 0#64 ↔ v.toNat % 16 = 0 ∧ v.toNat < 2 ^ 19 := by
  have hbits : v &&& ~~~pointerField = 0#64 ↔ ∀ j < 64, ¬ (4 ≤ j ∧ j < 19) → v.getLsbD j = false := by
    constructor
    · intro h j hj hout
      have hbit := congrArg (BitVec.getLsbD · j) h
      simpa only [BitVec.getLsbD_and, BitVec.getLsbD_not, getLsbD_pointerField, decide_eq_false hout, hj, decide_true,
        Bool.not_false, Bool.and_true, BitVec.getLsbD_zero] using hbit
    · intro h
      refine BitVec.eq_of_getLsbD_eq fun j hj => ?_
      rw [BitVec.getLsbD_and, BitVec.getLsbD_not, getLsbD_pointerField, BitVec.getLsbD_zero]
      by_cases hin : 4 ≤ j ∧ j < 19
      · simp [hin]
      · rw [h j hj hin, Bool.false_and]
  rw [hbits]
  constructor
  · intro h
    constructor
    · refine Nat.eq_of_testBit_eq fun j => ?_
      rw [Nat.zero_testBit, show (16 : Nat) = 2 ^ 4 from rfl, Nat.testBit_mod_two_pow, BitVec.testBit_toNat]
      by_cases hj : j < 4
      · rw [h j (by omega) (by omega), Bool.and_false]
      · rw [decide_eq_false hj, Bool.false_and]
    · refine Nat.lt_pow_two_of_testBit _ fun j hj => ?_
      rw [BitVec.testBit_toNat]
      by_cases hlt : j < 64
      · exact h j hlt (by omega)
      · exact BitVec.getLsbD_of_ge v j (by omega)
  · rintro ⟨hmod, hlt⟩ j - hout
    rw [← BitVec.testBit_toNat]
    by_cases hj : j < 4
    · have hbit := congrArg (Nat.testBit · j) hmod
      simpa only [show (16 : Nat) = 2 ^ 4 from rfl, Nat.testBit_mod_two_pow, decide_eq_true hj, Bool.true_and,
        Nat.zero_testBit] using hbit
    · exact Nat.testBit_lt_two_pow (hlt.trans_le (Nat.pow_le_pow_right (by decide) (by omega)))

theorem and_not_self_eq_zero (v m : Word) : v &&& m &&& ~~~m = 0#64 := by
  rw [BitVec.and_assoc, BitVec.and_not_self]
  exact BitVec.and_zero

theorem and_not_eq_zero_of_left {v m : Word} (k : Word) (h : v &&& ~~~m = 0#64) : v &&& k &&& ~~~m = 0#64 := by
  rw [BitVec.and_assoc, BitVec.and_comm k, ← BitVec.and_assoc, h, BitVec.zero_and]

theorem pointer_bounds (v : Word) : (v &&& pointerField).toNat % 16 = 0 ∧ (v &&& pointerField).toNat < 2 ^ 19 :=
  inPointerField_iff.mp (and_not_self_eq_zero v pointerField)

/-- A pointer moved on by one slot, modulo its ring. -/
theorem toNat_next_slot (v bytes : Word) :
    (((v &&& pointerField) + 16#64) % bytes).toNat = ((v &&& pointerField).toNat + 16) % bytes.toNat := by
  obtain ⟨hmod, hlt⟩ := pointer_bounds v
  rw [BitVec.toNat_umod, BitVec.toNat_add, BitVec.toNat_ofNat]
  congr 1
  omega

theorem next_slot_inField {v bytes : Word} (h : ringSize bytes) :
    ((v &&& pointerField) + 16#64) % bytes &&& ~~~pointerField = 0#64 ∧
      ((v &&& pointerField) + 16#64) % bytes < bytes := by
  obtain ⟨hmod, hlt⟩ := pointer_bounds v
  obtain ⟨hbytes, h16, h19⟩ := h.bounds
  have hless : ((v &&& pointerField).toNat + 16) % bytes.toNat < bytes.toNat := Nat.mod_lt _ (by omega)
  have hdvd : ((v &&& pointerField).toNat + 16) % bytes.toNat % 16 = 0 := by
    rw [Nat.mod_mod_of_dvd _ (Nat.dvd_of_mod_eq_zero hbytes)]
    omega
  rw [inPointerField_iff, BitVec.lt_def, toNat_next_slot]
  omega

theorem and_size_sub_one_lt (v : Word) {bytes : Word} (h : ringSize bytes) : v &&& (bytes - 1#64) < bytes := by
  obtain ⟨-, h16, h19⟩ := h.bounds
  have hsub : (bytes - 1#64).toNat = bytes.toNat - 1 := by
    rw [BitVec.toNat_sub, BitVec.toNat_ofNat]
    omega
  have hle : (v &&& (bytes - 1#64)).toNat ≤ (bytes - 1#64).toNat := by
    rw [BitVec.toNat_and]
    exact Nat.and_le_right
  rw [BitVec.lt_def]
  omega

/-! ### Updates and the hidden parts -/

section
variable {s t : State}

theorem HiddenGood.store (h : HiddenGood s) (hcfg : t.cfg = s.cfg) (hmem : Memory.wf t.mem = true)
    (htranslated : t.translated = s.translated) (hiotlb : t.iotlb = s.iotlb) : HiddenGood t := by
  refine ⟨hcfg ▸ h.cfg, hmem, htranslated ▸ h.translated, ?_⟩
  have hok := h.iotlb
  rw [iotlbOk_iff] at hok ⊢
  rwa [hcfg, hiotlb]

theorem HiddenGood.congr (h : HiddenGood s) (hcfg : t.cfg = s.cfg) (hmem : t.mem = s.mem)
    (htranslated : t.translated = s.translated) (hiotlb : t.iotlb = s.iotlb) : HiddenGood t :=
  h.store hcfg (hmem ▸ h.mem) htranslated hiotlb

theorem HiddenGood.logEvent (h : HiddenGood s) (c : EventCode) (devid : DevId) (flags : BitVec 12) (addr : Word) :
    HiddenGood (logEvent s c devid flags addr) :=
  h.store (logEvent_cfg ..) (Memory.wf_logEvent s c devid flags addr h.mem) (logEvent_translated ..) (logEvent_iotlb ..)

theorem HiddenGood.fetchDte (h : HiddenGood s) (devid : DevId) : HiddenGood (fetchDte s devid).2 :=
  h.store (fetchDte_cfg ..) (Memory.wf_fetchDte s devid h.mem) (fetchDte_translated ..) (fetchDte_iotlb ..)

theorem HiddenGood.setRouting (h : HiddenGood s) (d : DevId) (r : Routing) : HiddenGood (s.setRouting d r) := by
  refine ⟨h.cfg, h.mem, ?_, h.iotlb⟩
  cases r with
  | translated => exact rising_putKey _ _ h.translated
  | passThrough => exact rising_eraseKey _ _ h.translated

/-- Removing entries keeps the IOTLB's part. -/
theorem HiddenGood.filterIotlb (h : HiddenGood s) (p : IotlbEntry → Bool) :
    HiddenGood { s with iotlb := s.iotlb.filter p } := by
  refine ⟨h.cfg, h.mem, h.translated, ?_⟩
  obtain ⟨hrising, hlength, hentries⟩ := iotlbOk_iff.mp h.iotlb
  exact iotlbOk_iff.mpr ⟨rising_filter _ p hrising, (List.length_filter_le p _).trans hlength,
    fun e he => hentries e (List.mem_of_mem_filter he)⟩

theorem HiddenGood.clearIotlb (h : HiddenGood s) : HiddenGood { s with iotlb := [] } :=
  ⟨h.cfg, h.mem, h.translated, iotlbOk_iff.mpr ⟨rfl, Nat.zero_le _, fun _ he => absurd he List.not_mem_nil⟩⟩

/-- A walked mapping is an entry that the unit can hold (R27). -/
theorem entryOk_insertedEntry (devid : DevId) (iova : Word) (domid : DomId) {ta size : Word} {p : Perms}
    (hp : p ≠ permsNone) (hpage : alignedPage ta size) : entryOk (insertedEntry devid iova ta size p domid) = true := by
  obtain ⟨e, h12, h57, rfl, hta⟩ := hpage
  have haligned : ta &&& (BitVec.ofNat 64 (2 ^ e) - 1#64) = 0#64 := by
    refine BitVec.eq_of_getLsbD_eq fun j _ => ?_
    have hbit := congrArg (Nat.testBit · j) hta
    simp only [Nat.testBit_mod_two_pow, BitVec.testBit_toNat, Nat.zero_testBit] at hbit
    rw [BitVec.getLsbD_and, getLsbD_size_sub_one (by omega), Bool.and_comm, hbit, BitVec.getLsbD_zero]
  have hsize : ((List.range 46).any fun k => BitVec.ofNat 64 (2 ^ e) - 1#64 == (1#64 <<< (12 + k)) - 1#64) = true := by
    refine List.any_eq_true.mpr ⟨e - 12, List.mem_range.mpr (by omega), ?_⟩
    rw [one_shiftLeft_eq, show 12 + (e - 12) = e by omega, beq_self_eq_true]
  rw [entryOk, insertedEntry, Bool.and_eq_true, Bool.and_eq_true, bne_iff_ne, beq_iff_eq]
  exact ⟨⟨hp, haligned⟩, hsize⟩

theorem HiddenGood.iotlbInsert (h : HiddenGood s) (devid : DevId) (iova : Word) (domid : DomId) {ta size : Word}
    {p : Perms} (hp : p ≠ permsNone) (hpage : alignedPage ta size) :
    HiddenGood (iotlbInsert s devid iova ta size p domid) := by
  obtain ⟨hrising, hlength, hentries⟩ := iotlbOk_iff.mp h.iotlb
  have hcap : 1 ≤ s.cfg.iotlbCapacity := by simpa [Config.wf] using h.cfg
  have hnew := entryOk_insertedEntry devid iova domid hp hpage
  have hlen := length_iotlbInsert_le (s := s) (devid := devid) (iova := iova) (ta := ta) (size := size)
    (domid := domid) hp hcap
  rcases iotlbInsert_cases s devid iova ta size p domid hp with ⟨-, e⟩ | ⟨-, e⟩ <;> rw [e] at hlen ⊢
  · exact ⟨h.cfg, h.mem, h.translated, iotlbOk_iff.mpr ⟨rfl, hlen, by simpa using hnew⟩⟩
  · refine ⟨h.cfg, h.mem, h.translated, iotlbOk_iff.mpr ⟨?_, hlen, fun x hx => ?_⟩⟩
    · exact rising_putKey _ _ (rising_eraseKey _ _ hrising)
    · rcases (mem_putKey _).mp hx with rfl | ⟨hx, -⟩
      · exact hnew
      · exact hentries x ((mem_eraseKey _).mp hx).1

end

/-! ### Updates and the registers' parts -/

section
variable {s t : State}

theorem pointersOk_congr (h : pointersOk s = true) (hlatched : t.latched = s.latched)
    (hregs : ∀ n : RegName, n.isPointer = true → t.reg n = s.reg n) : pointersOk t = true :=
  pointersOk_iff.mpr fun n hn => by
    rw [hregs n hn, hlatched]
    exact pointersOk_iff.mp h n hn

theorem live_of_isPointer {n : RegName} (h : n.isPointer = true) : n.live = pointerField := by
  cases n <;> first | rfl | cases h

theorem ringSize_ringOf (h : latchedOk s.latched = true) (n : RegName) : ringSize (ringOf s.latched n) := by
  obtain ⟨-, ⟨-, hcmd⟩, -, hevt⟩ := latchedOk_iff.mp h
  cases n <;> assumption

theorem runFlagsOk_congr (h : runFlagsOk s = true) (hcontrol : t.reg .control = s.reg .control)
    (hlog : t.statusFlag .eventLogRun = s.statusFlag .eventLogRun)
    (hbuf : t.statusFlag .cmdBufRun = s.statusFlag .cmdBufRun) : runFlagsOk t = true := by
  obtain ⟨hl, hb⟩ := runFlagsOk_iff.mp h
  exact runFlagsOk_iff.mpr
    ⟨by rw [hlog, hl, evtlogEnabled_congr hcontrol], by rw [hbuf, hb, cmdbufEnabled_congr hcontrol]⟩

theorem RegsGood.congr (h : RegsGood s) (hregs : t.regs = s.regs) (hlatched : t.latched = s.latched) : RegsGood t := by
  have hreg (n : RegName) : t.reg n = s.reg n := by rw [State.reg, hregs, State.reg]
  have hflag (f : StatusFlag) : t.statusFlag f = s.statusFlag f := by rw [State.statusFlag, hreg, State.statusFlag]
  exact ⟨fun n => by rw [hreg, h.fields], hlatched ▸ h.latched,
    pointersOk_congr h.pointers hlatched fun n _ => hreg n,
    runFlagsOk_congr h.runFlags (hreg _) (hflag _) (hflag _)⟩

theorem StatusFlag.bit_lt_five (f : StatusFlag) : f.bit < 5 := by cases f <;> decide

theorem withBit_status_inField {v : Word} (h : v &&& ~~~RegName.status.live = 0#64) (f : StatusFlag) (b : Bool) :
    withBit v f.bit b &&& ~~~RegName.status.live = 0#64 := by
  have hlive (j : Nat) : RegName.status.live.getLsbD j = decide (j < 5) := getLsbD_size_sub_one (e := 5) (by decide) j
  refine BitVec.eq_of_getLsbD_eq fun j hj => ?_
  have hbit := congrArg (BitVec.getLsbD · j) h
  simp only [BitVec.getLsbD_and, BitVec.getLsbD_not, hlive, BitVec.getLsbD_zero] at hbit ⊢
  rw [getLsbD_withBit _ _ _ f.bit_lt]
  split_ifs with hjf
  · have := f.bit_lt_five
    simp [show j < 5 by omega]
  · exact hbit

/-- One register set to a value inside its field. -/
theorem setReg_fields (h : ∀ n : RegName, s.reg n &&& ~~~n.live = 0#64) {n : RegName} {v : Word}
    (hv : v &&& ~~~n.live = 0#64) (m : RegName) : (s.setReg n v).reg m &&& ~~~m.live = 0#64 := by
  rw [setReg_reg]
  split_ifs with hm
  · rw [hm, hv]
  · exact h m

/-- Setting a flag that is not a run flag. -/
theorem RegsGood.setStatusFlag (h : RegsGood s) {f : StatusFlag} (hlog : f ≠ .eventLogRun) (hbuf : f ≠ .cmdBufRun)
    (b : Bool) : RegsGood (s.setStatusFlag f b) := by
  refine ⟨setReg_fields h.fields (withBit_status_inField (h.fields .status) f b), h.latched, ?_, ?_⟩
  · exact pointersOk_congr h.pointers rfl fun n hn => by
      rw [setStatusFlag_reg, if_neg (by rintro rfl; cases hn)]
  · exact runFlagsOk_congr h.runFlags (by simp) (by rw [statusFlag_setStatusFlag, if_neg hlog.symm])
      (by rw [statusFlag_setStatusFlag, if_neg hbuf.symm])

theorem and_pointerField_of_inField {v : Word} (h : v &&& ~~~pointerField = 0#64) : v &&& pointerField = v :=
  inField_iff.mp (beq_iff_eq.mpr h)

/-- Setting a pointer to a place in its ring. -/
theorem RegsGood.setPointer (h : RegsGood s) {n : RegName} (hn : n.isPointer = true) {v : Word}
    (hv : v &&& ~~~pointerField = 0#64) (hlt : v < ringOf s.latched n) : RegsGood (s.setReg n v) := by
  have hnc : ¬ RegName.control = n := by rintro rfl; cases hn
  have hns : ¬ RegName.status = n := by rintro rfl; cases hn
  have hflag (f : StatusFlag) : (s.setReg n v).statusFlag f = s.statusFlag f := by
    rw [State.statusFlag, setReg_reg, if_neg hns, State.statusFlag]
  refine ⟨setReg_fields h.fields (by rw [live_of_isPointer hn, hv]), h.latched, pointersOk_iff.mpr fun m hm => ?_,
    runFlagsOk_congr h.runFlags (by rw [setReg_reg, if_neg hnc]) (hflag _) (hflag _)⟩
  rw [setReg_reg]
  split_ifs with hmn
  · rw [hmn, and_pointerField_of_inField hv]
    exact hlt
  · exact pointersOk_iff.mp h.pointers m hm

theorem RegsGood.advanceHead (h : RegsGood s) : RegsGood (advanceHead s) := by
  obtain ⟨hfield, hlt⟩ := next_slot_inField (v := s.reg .cmdHead) (ringSize_ringOf h.latched .cmdHead)
  exact h.setPointer rfl hfield hlt

theorem RegsGood.raiseIf (h : RegsGood s) (b : Bool) : RegsGood (s.raiseIf b) :=
  h.congr (raiseIf_regs ..) (raiseIf_latched ..)

theorem RegsGood.logEvent (h : RegsGood s) (c : EventCode) (devid : DevId) (flags : BitVec 12) (addr : Word) :
    RegsGood (logEvent s c devid flags addr) := by
  obtain ⟨hfield, hlt⟩ := next_slot_inField (v := s.reg .evtTail) (ringSize_ringOf h.latched .evtTail)
  rcases logEvent_cases s c devid flags addr with ⟨_, e⟩ | ⟨_, _, e⟩ | ⟨_, _, e⟩ <;> rw [e]
  · exact h
  · exact (h.setStatusFlag (by decide) (by decide) true).raiseIf _
  · have hstored := h.congr (memWriteDrop_regs s (s.latched.evtBase + s.evtTail) (eventBytes c devid flags addr))
      (memWriteDrop_latched ..)
    refine ((hstored.setPointer (n := .evtTail) rfl hfield ?_).setStatusFlag (by decide) (by decide) true).raiseIf _
    rw [memWriteDrop_latched]
    exact hlt

theorem RegsGood.fetchDte (h : RegsGood s) (devid : DevId) : RegsGood (fetchDte s devid).2 := by
  rcases fetchDte_state s devid with e | ⟨c, e⟩ <;> rw [e]
  · exact h
  · exact h.logEvent ..

/-! ### A register write (46_mmio R266 to R279) -/

/-- What a host's write leaves in any register is inside the register's field (10_state R12). -/
theorem store_fields {o z : Nat} {n : RegName} (v : Word) (h : acceptedAccess o z) (hn : n.offset = o / 8 * 8)
    (hs : ∀ n : RegName, s.reg n &&& ~~~n.live = 0#64) (m : RegName) :
    (storeRegBytes s o (lowBytes v z)).reg m &&& ~~~m.live = 0#64 := by
  by_cases hm : m = n
  · subst hm
    refine BitVec.eq_of_getLsbD_eq fun j hj => ?_
    have hbit := congrArg (BitVec.getLsbD · j) (hs m)
    have hro : m.ro.getLsbD j = true ∨ m.live.getLsbD j = true := by
      have hall : m.ro ||| m.live = BitVec.allOnes 64 := by cases m <;> decide
      rw [← Bool.or_eq_true, ← BitVec.getLsbD_or, hall, BitVec.getLsbD_allOnes, decide_eq_true hj]
    simp only [BitVec.getLsbD_and, BitVec.getLsbD_not, hj, decide_true, Bool.true_and, BitVec.getLsbD_zero] at hbit ⊢
    rw [getLsbD_store s v h hn hj]
    rcases hro with hro | hlive
    · rw [hro, mergeBit_of_readOnly]
      split_ifs
      · rw [Bool.and_right_comm, hbit, Bool.false_and]
      · exact hbit
    · rw [hlive, Bool.not_true, Bool.and_false]
  · rw [store_sameRegsBut s v h hn m (by simpa using hm), hs]

/-- The run flags are read-only, so a host's write leaves them alone (10_state R22). -/
theorem store_statusFlag {o z : Nat} {n : RegName} (v : Word) (h : acceptedAccess o z) (hn : n.offset = o / 8 * 8)
    {f : StatusFlag} (hf : RegName.status.w1c.getLsbD f.bit = false) :
    (storeRegBytes s o (lowBytes v z)).statusFlag f = s.statusFlag f := by
  rw [State.statusFlag, State.statusFlag]
  by_cases hm : n = .status
  · subst hm
    have hro : RegName.status.ro.getLsbD f.bit = true := by cases f <;> decide
    rw [getLsbD_store s v h hn f.bit_lt, hro, hf, mergeBit_of_readOnly, Bool.and_false, Bool.not_false, Bool.and_true,
      ite_self]
  · rw [store_sameRegsBut s v h hn .status (by simpa using Ne.symm hm)]

theorem devtabLatchedOk_trigger (v : Word) : devtabLatchedOk (v &&& baseField) (devtabBytesOf v) := by
  have hbytes : (devtabBytesOf v).toNat = (v.toNat % 512 + 1) * 4096 := by
    rw [devtabBytesOf_eq, BitVec.toNat_ofNat]
    omega
  refine ⟨and_not_self_eq_zero v baseField, ?_, ?_, ?_⟩
  · rw [BitVec.le_def, hbytes, BitVec.toNat_ofNat]
    omega
  · rw [BitVec.le_def, hbytes, BitVec.toNat_ofNat]
    omega
  · refine BitVec.eq_of_toNat_eq ?_
    rw [BitVec.toNat_and, hbytes]
    exact (Nat.and_two_pow_sub_one_eq_mod _ 12).trans (by rw [BitVec.toNat_ofNat]; omega)

theorem ringSize_ringBytes (v : Word) : ringSize (ringBytes v) := ⟨_, (v.extractLsb' 56 4).isLt, rfl⟩

theorem zero_lt_ringSize {bytes : Word} (h : ringSize bytes) : 0#64 &&& pointerField < bytes := by
  obtain ⟨-, h16, -⟩ := h.bounds
  rw [BitVec.zero_and, BitVec.lt_def, BitVec.toNat_ofNat]
  omega

theorem RegsGood.triggerDevtabBase (h : RegsGood s) : RegsGood (triggerDevtabBase s) := by
  obtain ⟨-, hcmd, hevt⟩ := latchedOk_iff.mp h.latched
  refine ⟨h.fields, latchedOk_iff.mpr ⟨devtabLatchedOk_trigger _, hcmd, hevt⟩, pointersOk_iff.mpr fun n hn => ?_,
    h.runFlags⟩
  have hold := pointersOk_iff.mp h.pointers n hn
  cases n <;> exact hold

theorem RegsGood.triggerCmdBase (h : RegsGood s) : RegsGood (triggerCmdBase s) := by
  obtain ⟨hdevtab, -, hevt⟩ := latchedOk_iff.mp h.latched
  have hring := ringSize_ringBytes (s.reg .cmdBase)
  refine ⟨setReg_fields (setReg_fields h.fields BitVec.zero_and) BitVec.zero_and,
    latchedOk_iff.mpr ⟨hdevtab, ⟨and_not_self_eq_zero _ _, hring⟩, hevt⟩, pointersOk_iff.mpr fun n hn => ?_,
    runFlagsOk_congr h.runFlags rfl rfl rfl⟩
  have hold := pointersOk_iff.mp h.pointers n hn
  cases n with
  | cmdHead => exact zero_lt_ringSize hring
  | cmdTail => exact zero_lt_ringSize hring
  | evtHead => exact hold
  | evtTail => exact hold
  | _ => cases hn

theorem RegsGood.triggerEvtBase (h : RegsGood s) : RegsGood (triggerEvtBase s) := by
  obtain ⟨hdevtab, hcmd, -⟩ := latchedOk_iff.mp h.latched
  have hring := ringSize_ringBytes (s.reg .evtBase)
  refine ⟨setReg_fields (setReg_fields h.fields BitVec.zero_and) BitVec.zero_and,
    latchedOk_iff.mpr ⟨hdevtab, hcmd, ⟨and_not_self_eq_zero _ _, hring⟩⟩, pointersOk_iff.mpr fun n hn => ?_,
    runFlagsOk_congr h.runFlags rfl rfl rfl⟩
  have hold := pointersOk_iff.mp h.pointers n hn
  cases n with
  | cmdHead => exact hold
  | cmdTail => exact hold
  | evtHead => exact zero_lt_ringSize hring
  | evtTail => exact zero_lt_ringSize hring
  | _ => cases hn

/-- A write of `CONTROL`: whatever its value, the trigger makes the run flags follow it (46_mmio R274). -/
theorem regsGood_refreshRunFlags {u : State} (h : RegsGood s) (hfields : ∀ n : RegName, u.reg n &&& ~~~n.live = 0#64)
    (hlatched : u.latched = s.latched) (hregs : sameRegsBut [.control] s u) : RegsGood u.refreshRunFlags := by
  have hcontrol : u.refreshRunFlags.reg .control = u.reg .control := refreshRunFlags_reg u .control (by decide)
  refine ⟨setReg_fields (setReg_fields hfields (withBit_status_inField (hfields .status) _ _))
      (withBit_status_inField ?_ _ _), by rw [refreshRunFlags_latched, hlatched, h.latched],
    pointersOk_congr h.pointers hlatched fun n hn => ?_, runFlagsOk_iff.mpr ⟨?_, ?_⟩⟩
  · exact setReg_fields hfields (withBit_status_inField (hfields .status) _ _) .status
  · rw [refreshRunFlags_reg u n (by rintro rfl; cases hn), hregs n (by simp; rintro rfl; cases hn)]
  · rw [refreshRunFlags_statusFlag, if_neg (by decide), if_pos rfl, evtlogEnabled_congr hcontrol]
  · rw [refreshRunFlags_statusFlag, if_pos rfl, cmdbufEnabled_congr hcontrol]

/-- A write of a pointer register: whatever its value, the trigger reduces it into its ring (46_mmio R275 to R277). -/
theorem regsGood_reducePointer {u : State} {n : RegName} (h : RegsGood s) (hn : n.isPointer = true)
    (hfields : ∀ n : RegName, u.reg n &&& ~~~n.live = 0#64) (hlatched : u.latched = s.latched)
    (hregs : sameRegsBut [n] s u) : RegsGood (reducePointer u n (ringOf u.latched n)) := by
  rw [hlatched]
  have hv : u.reg n &&& (ringOf s.latched n - 1#64) &&& ~~~pointerField = 0#64 :=
    and_not_eq_zero_of_left _ (live_of_isPointer hn ▸ hfields n)
  have hgood := h.setPointer hn hv (and_size_sub_one_lt _ (ringSize_ringOf h.latched n))
  have hsame : (s.setReg n (u.reg n &&& (ringOf s.latched n - 1#64))).regs =
      (u.setReg n (u.reg n &&& (ringOf s.latched n - 1#64))).regs := by
    refine Regs.ext_get _ _ fun m => ?_
    rw [setReg_regs, setReg_regs, Regs.get_set, Regs.get_set]
    split_ifs with hm
    · rfl
    · exact (hregs m (by simpa using hm)).symm
  exact hgood.congr hsame.symm hlatched

/-- A write of a register that is neither `CONTROL` nor a pointer, before its trigger. -/
theorem regsGood_store {o z : Nat} {n : RegName} (v : Word) (h : RegsGood s) (ha : acceptedAccess o z)
    (hn : n.offset = o / 8 * 8) (hnc : n ≠ .control) (hnp : n.isPointer = false) :
    RegsGood (storeRegBytes s o (lowBytes v z)) := by
  have hregs := store_sameRegsBut s v ha hn
  refine ⟨store_fields v ha hn h.fields, by rw [storeRegBytes_latched, h.latched],
    pointersOk_congr h.pointers (storeRegBytes_latched ..) fun m hm => hregs m ?_,
    runFlagsOk_congr h.runFlags (hregs .control (by simpa using hnc.symm)) (store_statusFlag v ha hn rfl)
      (store_statusFlag v ha hn rfl)⟩
  rw [List.mem_singleton]
  rintro rfl
  rw [hnp] at hm
  cases hm

theorem RegsGood.mmioWriteStore (h : RegsGood s) (o z : Nat) (v : Word) : RegsGood (mmioWriteStore s o z v) := by
  by_cases hreg : acceptedAccess o z ∧ ∃ n : RegName, n.offset = o / 8 * 8
  · obtain ⟨ha, n, hn⟩ := hreg
    have hregs := store_sameRegsBut s v ha hn
    have hfields := store_fields v ha hn h.fields
    have hlatched := storeRegBytes_latched s o (lowBytes v z)
    rw [mmioWriteStore_eq_triggerReg s v ha hn]
    generalize (o + z == n.offset + 8) = hi
    cases n with
    | devtabBase =>
      have hstored := regsGood_store v h ha hn (by decide) rfl
      cases hi with
      | false => exact hstored
      | true => exact hstored.triggerDevtabBase
    | cmdBase =>
      have hstored := regsGood_store v h ha hn (by decide) rfl
      cases hi with
      | false => exact hstored
      | true => exact hstored.triggerCmdBase
    | evtBase =>
      have hstored := regsGood_store v h ha hn (by decide) rfl
      cases hi with
      | false => exact hstored
      | true => exact hstored.triggerEvtBase
    | control => exact regsGood_refreshRunFlags h hfields hlatched hregs
    | status => exact regsGood_store v h ha hn (by decide) rfl
    | cmdHead => exact regsGood_reducePointer h rfl hfields hlatched hregs
    | cmdTail => exact regsGood_reducePointer h rfl hfields hlatched hregs
    | evtHead => exact regsGood_reducePointer h rfl hfields hlatched hregs
    | evtTail => exact regsGood_reducePointer h rfl hfields hlatched hregs
  · obtain ⟨hstore, -⟩ := mmioWriteStore_of_no_register (s := s) v hreg
    rw [hstore]
    exact h

end

/-! ### The step -/

section
variable {s t : State}

theorem HiddenGood.mmioWriteStore (h : HiddenGood s) (o z : Nat) (v : Word) : HiddenGood (mmioWriteStore s o z v) := by
  rw [mmioWriteStore_frame]
  exact h.congr rfl rfl rfl rfl

/-- Every command keeps the invariant. -/
theorem exec_keeps_good {i : Instr} (hh : HiddenGood s) (hr : RegsGood s) (h : exec i s = .next t) :
    HiddenGood t ∧ RegsGood t := by
  cases i with
  | completionWait store interrupt flush addr data =>
    rw [exec_completionWait] at h
    obtain rfl := Host.Outcome.next.inj h
    constructor
    · refine hh.store (by rw [completionState_frame]) ?_ (by rw [completionState_frame]) (by rw [completionState_frame])
      rw [completionState_mem]
      split_ifs
      · exact Memory.wf_writeBytes hh.mem _ _
      · exact hh.mem
    · have hstored : RegsGood (completionStore s store addr data) := by
        rw [completionStore_frame]
        exact hr.congr rfl rfl
      rw [completionState, completionInterrupt]
      split_ifs
      · exact (hstored.setStatusFlag (by decide) (by decide) true).raiseIf _
      · exact hstored
  | invalidateDevtabEntry devid =>
    rw [exec_invalidateDevtabEntry] at h
    obtain rfl := Host.Outcome.next.inj h
    have hh' := hh.fetchDte devid
    have hr' := hr.fetchDte devid
    rw [devtabState]
    generalize (fetchDte s devid).2 = u at hh' hr' ⊢
    exact ⟨(hh'.setRouting devid _).congr rfl rfl rfl rfl, hr'.congr rfl rfl⟩
  | invalidateIommuPages domid sizeFlag address =>
    obtain rfl := Host.Outcome.next.inj h
    exact ⟨(hh.filterIotlb _).congr rfl rfl rfl rfl, hr.congr rfl rfl⟩
  | invalidateIotlbPages devid sizeFlag address =>
    obtain rfl := Host.Outcome.next.inj h
    cases sizeFlag <;> exact ⟨(hh.filterIotlb _).congr rfl rfl rfl rfl, hr.congr rfl rfl⟩
  | invalidateIommuAll =>
    obtain rfl := Host.Outcome.next.inj h
    exact ⟨hh.clearIotlb.congr rfl rfl rfl rfl, hr.congr rfl rfl⟩
  | _ =>
    obtain rfl := Host.Outcome.next.inj h
    exact ⟨hh, hr⟩

theorem dmaTranslate_keeps_good (hh : HiddenGood s) (hr : RegsGood s) (devid : DevId) (iova : Word) (access : Access) :
    HiddenGood (dmaTranslate s devid iova access).2 ∧ RegsGood (dmaTranslate s devid iova access).2 := by
  obtain ⟨u, hu, hlog⟩ := dmaTranslate_state s devid iova access
  have hugood : HiddenGood u ∧ RegsGood u := by
    rcases hu with rfl | ⟨dte, ta, size, p, -, hwalk, rfl⟩
    · exact ⟨hh, hr⟩
    · exact ⟨hh.iotlbInsert devid iova _ (walk_ok_perms_ne_none hwalk) (walk_ok_page hwalk).2,
        hr.congr (iotlbInsert_regs ..) (iotlbInsert_latched ..)⟩
  obtain ⟨huh, hur⟩ := hugood
  rcases hlog with e | ⟨c, flags, addr, e⟩ <;> rw [e]
  · exact ⟨huh, hur⟩
  · exact ⟨huh.logEvent .., hur.logEvent ..⟩

theorem remapInterrupt_keeps_good (hh : HiddenGood s) (hr : RegsGood s) (devid : DevId) (msg : Message) :
    HiddenGood (remapInterrupt s devid msg).2 ∧ RegsGood (remapInterrupt s devid msg).2 := by
  rcases remapInterrupt_state s devid msg with e | ⟨c, flags, addr, e⟩ <;> rw [e]
  · exact ⟨hh, hr⟩
  · exact ⟨hh.logEvent .., hr.logEvent ..⟩

/-- The registers and latched values of reset are good ones (R41). -/
theorem regsGood_reset : RegsGood State.reset := by
  have hgood : State.reset.good = true := by decide
  exact (good_iff.mp hgood).2

/-- Serving any request keeps the invariant. -/
theorem serve_keeps_good (r : Request) (hh : HiddenGood s) (hr : RegsGood s) :
    HiddenGood (serve r s) ∧ RegsGood (serve r s) := by
  cases r with
  | mmioWrite o z v => exact ⟨hh.mmioWriteStore o z v, hr.mmioWriteStore o z v⟩
  | translate devid iova access =>
    obtain ⟨hh', hr'⟩ := dmaTranslate_keeps_good hh hr devid iova access
    exact ⟨hh'.congr rfl rfl rfl rfl, hr'.congr rfl rfl⟩
  | remapInterrupt devid msg =>
    obtain ⟨hh', hr'⟩ := remapInterrupt_keeps_good hh hr devid msg
    exact ⟨hh'.congr rfl rfl rfl rfl, hr'.congr rfl rfl⟩
  | reset =>
    exact ⟨⟨hh.cfg, hh.mem, rfl, iotlbOk_iff.mpr ⟨rfl, Nat.zero_le _, fun _ he => absurd he List.not_mem_nil⟩⟩,
      regsGood_reset.congr rfl rfl⟩
  | hostStore addr bytes =>
    exact ⟨hh.store rfl (Memory.wf_writeBytes hh.mem addr bytes) rfl rfl, hr.congr rfl rfl⟩
  | _ => exact ⟨hh.congr rfl rfl rfl rfl, hr.congr rfl rfl⟩

theorem step_keeps_good (hgood : s.good = true) (h : step s = .next t) : t.good = true := by
  obtain ⟨hh, hr⟩ := good_iff.mp hgood
  rw [good_iff]
  rcases step_cases h with ⟨-, c, rfl⟩ | ⟨i, u, -, hexec, rfl⟩ | ⟨-, -, rfl⟩ | ⟨r, rest, -, -, rfl⟩
  · exact ⟨(hh.logEvent ..).congr rfl rfl rfl rfl, (hr.logEvent ..).advanceHead⟩
  · obtain ⟨hh', hr'⟩ := exec_keeps_good hh hr hexec
    exact ⟨hh'.congr rfl rfl rfl rfl, hr'.advanceHead⟩
  · exact ⟨hh, hr⟩
  · exact serve_keeps_good r (hh.congr rfl rfl rfl rfl) (hr.congr rfl rfl)

end

/-- Settles O55: a step logs, runs a command, serves a request or does nothing (`step_cases`), and each of these keeps
the parts of the invariant. -/
theorem stepKeepsTheInvariant : Obligations.StepKeepsTheInvariant := fun _ _ => step_keeps_good

/-- Settles O56: the state at power on, checked part by part by evaluation. -/
theorem powerOnHasTheInvariant : Obligations.PowerOnHasTheInvariant := ⟨by decide, rfl⟩

end Sys2Proof.Machine
end

/-! PROOFS. The drain (44_commands R201, R207): how many rounds bring the head to the tail, that as many steps make
them, and that a register write with its drain is one transition (20_memory R60). -/

section
namespace Sys2Proof.Machine

/-! ### The distance from head to tail (R203, R207) -/

theorem ringSize.dvd {bytes : Word} (h : ringSize bytes) : bytes.toNat ∣ 2 ^ 64 := by
  obtain ⟨k, hk, hbytes⟩ := h.toNat_eq
  rw [hbytes, show (16 : Nat) = 2 ^ 4 from rfl, ← Nat.pow_add]
  exact Nat.pow_dvd_pow 2 (by omega)

/-- The distance between two places of a ring, going up and around. -/
theorem toNat_sub_umod {a b bytes : Word} (h : ringSize bytes) (ha : a < bytes) (hb : b < bytes) :
    ((b - a) % bytes).toNat =
      if a.toNat ≤ b.toNat then b.toNat - a.toNat else b.toNat + bytes.toNat - a.toNat := by
  obtain ⟨m, hm⟩ := h.dvd
  rw [BitVec.lt_def] at ha hb
  have hbound := bytes.isLt
  rw [BitVec.toNat_umod, BitVec.toNat_sub]
  split_ifs with hle
  · rw [show 2 ^ 64 - a.toNat + b.toNat = b.toNat - a.toNat + 2 ^ 64 by omega, Nat.add_mod_right,
      Nat.mod_eq_of_lt (by omega), Nat.mod_eq_of_lt (by omega)]
  · have hdist : b.toNat + bytes.toNat - a.toNat < bytes.toNat := by omega
    have hwrap : 2 ^ 64 - a.toNat + b.toNat + bytes.toNat = b.toNat + bytes.toNat - a.toNat + bytes.toNat * m := by
      omega
    have hinner : (2 ^ 64 - a.toNat + b.toNat) % 2 ^ 64 = 2 ^ 64 - a.toNat + b.toNat := Nat.mod_eq_of_lt (by omega)
    rw [hinner, ← Nat.add_mod_right (2 ^ 64 - a.toNat + b.toNat), hwrap,
      Nat.add_mul_mod_self_left, Nat.mod_eq_of_lt hdist]

section
variable {s t : State}

/-- What a good state says of the command ring: its size, and where head and tail stand. -/
theorem commandRing (hgood : s.good = true) :
    ringSize s.latched.cmdBytes ∧ s.cmdHead < s.latched.cmdBytes ∧ s.cmdTail < s.latched.cmdBytes := by
  obtain ⟨-, hr⟩ := good_iff.mp hgood
  have hpointers := pointersOk_iff.mp hr.pointers
  exact ⟨ringSize_ringOf hr.latched .cmdHead, hpointers .cmdHead rfl, hpointers .cmdTail rfl⟩

theorem roundsToTail_le (hgood : s.good = true) : roundsToTail s ≤ s.latched.cmdBytes.toNat / 16 - 1 := by
  obtain ⟨hring, -, -⟩ := commandRing hgood
  obtain ⟨hmod, h16, -⟩ := hring.bounds
  have hlt : ((s.cmdTail - s.cmdHead) % s.latched.cmdBytes).toNat < s.latched.cmdBytes.toNat := by
    rw [BitVec.toNat_umod]
    exact Nat.mod_lt _ (by omega)
  rw [roundsToTail]
  omega

theorem roundsToTail_eq_zero_iff (hgood : s.good = true) : roundsToTail s = 0 ↔ s.cmdHead = s.cmdTail := by
  obtain ⟨hring, hhead, htail⟩ := commandRing hgood
  obtain ⟨hmod, h16, -⟩ := hring.bounds
  obtain ⟨hhmod, -⟩ := pointer_bounds (s.reg .cmdHead)
  obtain ⟨htmod, -⟩ := pointer_bounds (s.reg .cmdTail)
  change s.cmdHead.toNat % 16 = 0 at hhmod
  change s.cmdTail.toNat % 16 = 0 at htmod
  rw [roundsToTail, toNat_sub_umod hring hhead htail, ← BitVec.toNat_inj]
  rw [BitVec.lt_def] at hhead htail
  split_ifs <;> omega

/-- A head advance brings the head one round nearer to the tail. -/
theorem roundsToTail_advance (hs : s.good = true) (ht : t.good = true) (hhead : t.reg .cmdHead = s.cmdNext)
    (htail : t.cmdTail = s.cmdTail) (hbytes : t.latched = s.latched) (hne : s.cmdHead ≠ s.cmdTail) :
    roundsToTail s = roundsToTail t + 1 := by
  obtain ⟨hring, hsh, hst⟩ := commandRing hs
  obtain ⟨-, hth, htt⟩ := commandRing ht
  obtain ⟨hmod, h16, -⟩ := hring.bounds
  obtain ⟨hhmod, -⟩ := pointer_bounds (s.reg .cmdHead)
  obtain ⟨htmod, -⟩ := pointer_bounds (s.reg .cmdTail)
  change s.cmdHead.toNat % 16 = 0 at hhmod
  change s.cmdTail.toNat % 16 = 0 at htmod
  have hnext : t.cmdHead.toNat = (s.cmdHead.toNat + 16) % s.latched.cmdBytes.toNat := by
    obtain ⟨hfield, -⟩ := next_slot_inField (v := s.reg .cmdHead) hring
    rw [State.cmdHead, hhead]
    exact (congrArg BitVec.toNat (and_pointerField_of_inField hfield)).trans (toNat_next_slot ..)
  rw [hbytes] at hth htt
  rw [roundsToTail, roundsToTail, hbytes, htail, toNat_sub_umod hring hsh hst,
    toNat_sub_umod hring hth (htail ▸ htt), hnext]
  rw [Ne, ← BitVec.toNat_inj] at hne
  rw [BitVec.lt_def] at hsh hst
  by_cases hlast : s.cmdHead.toNat + 16 = s.latched.cmdBytes.toNat
  · rw [hlast, Nat.mod_self]
    split_ifs <;> omega
  · rw [Nat.mod_eq_of_lt (by omega)]
    split_ifs <;> omega

/-! ### The drain and the steps that make it -/

theorem drainPending_iff : s.drainPending = true ↔ s.cmdbufEnabled = true ∧ s.cmdHead ≠ s.cmdTail := by
  rw [State.drainPending, Bool.and_eq_true, bne_iff_ne]

theorem drainRounds_of_idle (h : s.drainPending = false) (fuel : Nat) : drainRounds s fuel = .next s := by
  cases fuel with
  | zero => rfl
  | succ fuel => simp [drainRounds, h]

theorem drainRounds_of_waiting (h : s.drainPending = true) (hstep : step s = .next t) (fuel : Nat) :
    drainRounds s (fuel + 1) = drainRounds t fuel := by
  rw [step_of_drainPending h] at hstep
  simp [drainRounds, h, hstep]

/-- What a drain leaves: the head at the tail it found, no command waiting, and the unit's surroundings as they were. -/
structure Drained (s t : State) : Prop where
  head : t.cmdHead = s.cmdTail
  tail : t.cmdTail = s.cmdTail
  idle : t.drainPending = false
  surroundings : sameSurroundings s t

/-- One round of a drain: a good state, one round nearer to the same tail. -/
theorem step_toward_tail (hgood : s.good = true) (h : s.drainPending = true) :
    ∃ t, step s = .next t ∧ t.good = true ∧ t.cmdbufEnabled = true ∧ t.cmdTail = s.cmdTail ∧ sameSurroundings s t ∧
      roundsToTail s = roundsToTail t + 1 := by
  obtain ⟨hen, hne⟩ := drainPending_iff.mp h
  obtain ⟨t, hstep, hhead, hregs, hsurr⟩ := step_of_waiting h
  have htgood := step_keeps_good hgood hstep
  have htail : t.cmdTail = s.cmdTail := by rw [State.cmdTail, hregs .cmdTail (by decide), State.cmdTail]
  have hlatched : t.latched = s.latched := by
    obtain ⟨-, hlatched, -⟩ := hsurr
    exact hlatched
  exact ⟨t, hstep, htgood, (cmdbufEnabled_congr (hregs .control (by decide))).trans hen, htail, hsurr,
    roundsToTail_advance hgood htgood hhead htail hlatched hne⟩

/-- As many steps as there are rounds to the tail, each with a command waiting, make the drain. -/
theorem run_to_tail (n : Nat) : ∀ s : State, s.good = true → s.cmdbufEnabled = true → roundsToTail s = n →
    (∀ j < n, ∃ u, Host.Core.run Sys2Proof.core j s = .next u ∧ u.drainPending = true) ∧
      ∃ t, Host.Core.run Sys2Proof.core n s = .next t ∧ (∀ fuel, n ≤ fuel → drainRounds s fuel = .next t) ∧
        Drained s t := by
  induction n with
  | zero =>
    intro s hgood _ hrounds
    have hhead := (roundsToTail_eq_zero_iff hgood).mp hrounds
    have hidle : s.drainPending = false := Bool.eq_false_iff.mpr fun h => (drainPending_iff.mp h).2 hhead
    exact ⟨fun j hj => absurd hj (Nat.not_lt_zero j), s, rfl, fun fuel _ => drainRounds_of_idle hidle fuel,
      hhead, rfl, hidle, .refl s⟩
  | succ n ih =>
    intro s hgood hen hrounds
    have hne : s.cmdHead ≠ s.cmdTail := fun h => by
      rw [(roundsToTail_eq_zero_iff hgood).mpr h] at hrounds
      cases hrounds
    have hwaiting := drainPending_iff.mpr ⟨hen, hne⟩
    obtain ⟨t, hstep, htgood, hten, htail, hsurr, hnearer⟩ := step_toward_tail hgood hwaiting
    obtain ⟨hruns, u, hrun, hdrain, hdrained⟩ := ih t htgood hten (by omega)
    refine ⟨fun j hj => ?waiting, u, (run_succ hstep n).trans hrun, fun fuel hfuel => ?drain,
      hdrained.head.trans htail, hdrained.tail.trans htail, hdrained.idle, hsurr.trans hdrained.surroundings⟩
    case waiting =>
      cases j with
      | zero => exact ⟨s, rfl, hwaiting⟩
      | succ j =>
        obtain ⟨v, hv, hvwaiting⟩ := hruns j (by omega)
        exact ⟨v, (run_succ hstep j).trans hv, hvwaiting⟩
    case drain =>
      obtain ⟨fuel, rfl⟩ : ∃ k, fuel = k + 1 := ⟨fuel - 1, by omega⟩
      rw [drainRounds_of_waiting hwaiting hstep, hdrain fuel (by omega)]

theorem roundsToTail_lt_maxRingSlots (hgood : s.good = true) : roundsToTail s < maxRingSlots := by
  obtain ⟨hring, -, -⟩ := commandRing hgood
  obtain ⟨-, -, h19⟩ := hring.bounds
  have hle := roundsToTail_le hgood
  rw [maxRingSlots]
  omega

end

/-- Settles O12: the steps of `run_to_tail`, of which there are fewer than the ring has slots. -/
theorem drainReachesTheTail : Obligations.DrainReachesTheTail := by
  intro s hgood hen
  obtain ⟨hruns, t, hrun, hdrain, hdrained⟩ := run_to_tail _ s hgood hen rfl
  exact ⟨roundsToTail_le hgood, hruns, t, hrun, hdrain _ (roundsToTail_lt_maxRingSlots hgood).le, hdrained.head,
    hdrained.tail, by simp [State.quiescent, hdrained.idle]⟩

/-- The drain of any good state, enabled or not, is a run of fewer steps than a ring has slots, each with a command
waiting. -/
theorem drain_is_run {s : State} (hgood : s.good = true) :
    ∃ k t, k < maxRingSlots ∧ Host.Core.run Sys2Proof.core k s = .next t ∧ drain s = .next t ∧
      t.drainPending = false ∧ sameSurroundings s t ∧
      ∀ j < k, ∃ u, Host.Core.run Sys2Proof.core j s = .next u ∧ u.drainPending = true := by
  cases hen : s.cmdbufEnabled with
  | true =>
    obtain ⟨hruns, t, hrun, hdrain, hdrained⟩ := run_to_tail _ s hgood hen rfl
    have hlt := roundsToTail_lt_maxRingSlots hgood
    exact ⟨_, t, hlt, hrun, hdrain _ hlt.le, hdrained.idle, hdrained.surroundings, hruns⟩
  | false =>
    have hidle : s.drainPending = false := by rw [State.drainPending, hen, Bool.false_and]
    exact ⟨0, s, by decide, rfl, drain_idle hidle, hidle, .refl s, fun j hj => absurd hj (Nat.not_lt_zero j)⟩

/-- Settles O13: the step serves the write up to its drain, which is the run that follows (`drain_is_run`); the state it
starts from is good as every step keeps the invariant. -/
theorem writeAndDrainAreOneTransition : Obligations.WriteAndDrainAreOneTransition := by
  intro s o z v rest hgood hquiet hin
  have hidle : s.drainPending = false := by simpa [State.quiescent] using hquiet
  have hidle' : ({ s with inputs := rest } : State).drainPending = false := hidle
  have hstep := step_of_request hidle hin
  have hugood := step_keeps_good hgood hstep
  rw [mmioWrite_eq_drain hidle']
  change step s = .next (mmioWriteStore { s with inputs := rest } o z v) at hstep
  change (mmioWriteStore { s with inputs := rest } o z v).good = true at hugood
  have hinputs := mmioWriteStore_inputs { s with inputs := rest } o z v
  generalize mmioWriteStore { s with inputs := rest } o z v = u at hstep hugood hinputs ⊢
  obtain ⟨k, t, hk, hrun, hdrain, htidle, ⟨-, -, -, htinputs, -⟩, hwaiting⟩ := drain_is_run hugood
  refine ⟨k, t, hk, (run_succ hstep k).trans hrun, hdrain, by simp [State.quiescent, htidle],
    htinputs.trans hinputs, fun j h1 hjk => ?waiting⟩
  case waiting =>
    obtain ⟨j, rfl⟩ : ∃ i, j = i + 1 := ⟨j - 1, by omega⟩
    obtain ⟨w, hw, hwwaiting⟩ := hwaiting j (by omega)
    exact ⟨w, (run_succ hstep j).trans hw, hwwaiting⟩

end Sys2Proof.Machine
end

/-! PROOFS. The rules about the whole machine (10_state R25 to R28, 20_memory R51, R65, R66, 60_exceptions R320): which
steps can change a routing, remove an IOTLB entry, write a byte of memory or change a configuration register. Each rule
is read off the list of what a step can do (`step_cases`), with one lemma for the commands and one for the requests. -/

section
namespace Sys2Proof.Machine

/-! ### Routing (R28) -/

section
variable {s t : State}

theorem exec_routing {i : Instr} (h : exec i s = .next t) (d : DevId) :
    i = .invalidateDevtabEntry d ∨ t.routing d = s.routing d := by
  cases i with
  | completionWait store interrupt flush addr data =>
    rw [exec_completionWait] at h
    obtain rfl := Host.Outcome.next.inj h
    refine .inr ?_
    rw [completionState_frame]
    rfl
  | invalidateDevtabEntry devid =>
    rw [exec_invalidateDevtabEntry] at h
    obtain rfl := Host.Outcome.next.inj h
    rw [devtabState_routing]
    split_ifs with hd
    · exact .inl (by rw [hd])
    · exact .inr rfl
  | invalidateIotlbPages devid sizeFlag address =>
    obtain rfl := Host.Outcome.next.inj h
    cases sizeFlag <;> exact .inr rfl
  | _ =>
    obtain rfl := Host.Outcome.next.inj h
    exact .inr rfl

theorem dmaTranslate_frame (s : State) (devid : DevId) (iova : Word) (access : Access) :
    sameSurroundings s (dmaTranslate s devid iova access).2 ∧
      (∀ d, (dmaTranslate s devid iova access).2.routing d = s.routing d) ∧
      sameRegsBut [.evtTail, .status] s (dmaTranslate s devid iova access).2 := by
  obtain ⟨hsurr, hrouting, hregs, -⟩ :=
    deviceRequestsTouchOnlyTheLog s (dmaTranslate s devid iova access).2 devid (.inl ⟨iova, access, rfl⟩)
  exact ⟨hsurr, hrouting, hregs⟩

theorem remapInterrupt_frame (s : State) (devid : DevId) (msg : Message) :
    sameSurroundings s (remapInterrupt s devid msg).2 ∧
      (∀ d, (remapInterrupt s devid msg).2.routing d = s.routing d) ∧
      sameRegsBut [.evtTail, .status] s (remapInterrupt s devid msg).2 := by
  obtain ⟨hsurr, hrouting, hregs, -⟩ :=
    deviceRequestsTouchOnlyTheLog s (remapInterrupt s devid msg).2 devid (.inr ⟨msg, rfl⟩)
  exact ⟨hsurr, hrouting, hregs⟩

theorem serve_routing (r : Request) (s : State) (d : DevId) : r = .reset ∨ (serve r s).routing d = s.routing d := by
  cases r with
  | mmioWrite o z v =>
    refine .inr ?_
    rw [serve, mmioWriteStore_frame]
    rfl
  | translate devid iova access =>
    obtain ⟨-, hrouting, -⟩ := dmaTranslate_frame s devid iova access
    exact .inr (hrouting d)
  | remapInterrupt devid msg =>
    obtain ⟨-, hrouting, -⟩ := remapInterrupt_frame s devid msg
    exact .inr (hrouting d)
  | reset => exact .inl rfl
  | _ => exact .inr rfl

end

/-- Settles O57: of the commands only that one, and of the requests only reset, changes the device's routing. -/
theorem routingChangesOnlyByCommandOrReset : Obligations.RoutingChangesOnlyByCommandOrReset := by
  intro s t d hstep hchanged
  rcases step_cases hstep with ⟨-, c, rfl⟩ | ⟨i, u, hnext, hexec, rfl⟩ | ⟨-, -, rfl⟩ | ⟨r, rest, hnext, -, rfl⟩
  · exact absurd (logEvent_routing s c 0#16 0#12 s.cmdAddr d) hchanged
  · rcases exec_routing hexec d with rfl | hsame
    · exact .inl hnext
    · exact absurd hsame hchanged
  · exact absurd rfl hchanged
  · rcases serve_routing r { s with inputs := rest } d with rfl | hsame
    · exact .inr hnext
    · exact absurd hsame hchanged

/-! ### IOTLB entries (20_memory R65) -/

section
variable {s t : State} {e : IotlbEntry}

theorem exec_removes {i : Instr} (h : exec i s = .next t) (he : e ∈ s.iotlb) (hgone : e ∉ t.iotlb) :
    i = .invalidateIommuAll ∨ (∃ sizeFlag address, i = .invalidateIommuPages e.domid sizeFlag address) ∨
      (∃ address, i = .invalidateIotlbPages e.devid true address) ∨
      (∃ address, i = .invalidateIotlbPages e.devid false address ∧ e.gfn.toNat = address.toNat / 4096) := by
  cases i with
  | completionWait store interrupt flush addr data =>
    rw [exec_completionWait] at h
    obtain rfl := Host.Outcome.next.inj h
    rw [completionState_frame] at hgone
    exact absurd he hgone
  | invalidateDevtabEntry devid =>
    rw [exec_invalidateDevtabEntry] at h
    obtain rfl := Host.Outcome.next.inj h
    rw [devtabState_iotlb] at hgone
    exact absurd he hgone
  | invalidateIommuPages domid sizeFlag address =>
    obtain rfl := Host.Outcome.next.inj h
    have hdom : e.domid = domid := by_contra fun hne => hgone (mem_iotlbInvalidateDomain.mpr ⟨he, hne⟩)
    exact .inr (.inl ⟨sizeFlag, address, by rw [hdom]⟩)
  | invalidateIotlbPages devid sizeFlag address =>
    obtain rfl := Host.Outcome.next.inj h
    cases sizeFlag with
    | true =>
      have hdev : e.devid = devid := by_contra fun hne => hgone (mem_iotlbInvalidateDevice.mpr ⟨he, hne⟩)
      exact .inr (.inr (.inl ⟨address, by rw [hdev]⟩))
    | false =>
      obtain ⟨hdev, hgfn⟩ : e.devid = devid ∧ e.gfn.toNat = address.toNat / 4096 :=
        by_contra fun hne => hgone (mem_iotlbInvalidatePage.mpr ⟨he, hne⟩)
      exact .inr (.inr (.inr ⟨address, by rw [hdev], hgfn⟩))
  | invalidateIommuAll => exact .inl rfl
  | _ =>
    obtain rfl := Host.Outcome.next.inj h
    exact absurd he hgone

/-- A missing lookup means that the insertion replaces no entry, so one that goes went to make room (42_iotlb R163). -/
theorem full_of_iotlbInsert_removes {devid : DevId} {iova ta size : Word} {p : Perms} {domid : DomId}
    (hp : p ≠ permsNone) (hmiss : iotlbLookup s devid iova = none) (he : e ∈ s.iotlb)
    (hgone : e ∉ (iotlbInsert s devid iova ta size p domid).iotlb) : s.cfg.iotlbCapacity ≤ s.iotlb.length := by
  by_contra hroom
  have hfits : (iotlbInvalidatePage s devid iova).iotlb.length < s.cfg.iotlbCapacity :=
    (List.length_filter_le _ s.iotlb).trans_lt (Nat.lt_of_not_le hroom)
  have hother := iotlbLookup_none_iff.mp hmiss e he
  rw [← eq_gfnOf_iff] at hother
  exact hgone ((mem_iotlbInsert_of_room hp hfits e).mpr (.inr ⟨he, hother⟩))

theorem serve_removes {r : Request} (he : e ∈ s.iotlb) (hgone : e ∉ (serve r s).iotlb) :
    r = .reset ∨ ∃ devid iova access, r = .translate devid iova access ∧ s.cfg.iotlbCapacity ≤ s.iotlb.length := by
  cases r with
  | mmioWrite o z v =>
    rw [serve, mmioWriteStore_frame] at hgone
    exact absurd he hgone
  | translate devid iova access =>
    refine .inr ⟨devid, iova, access, rfl, ?_⟩
    obtain ⟨u, hu, hlog⟩ := dmaTranslate_state s devid iova access
    have hsame : (dmaTranslate s devid iova access).2.iotlb = u.iotlb := by
      rcases hlog with e | ⟨c, flags, addr, e⟩
      · rw [e]
      · rw [e, logEvent_iotlb]
    change e ∉ (dmaTranslate s devid iova access).2.iotlb at hgone
    rw [hsame] at hgone
    rcases hu with rfl | ⟨dte, ta, size, p, ⟨-, hmiss, -⟩, hwalk, rfl⟩
    · exact absurd he hgone
    · exact full_of_iotlbInsert_removes (walk_ok_perms_ne_none hwalk) hmiss he hgone
  | remapInterrupt devid msg =>
    change e ∉ (remapInterrupt s devid msg).2.iotlb at hgone
    rw [remapInterrupt_iotlb] at hgone
    exact absurd he hgone
  | reset => exact .inl rfl
  | _ => exact absurd he hgone

end

/-- Settles O58: the commands that remove an entry name it (`exec_removes`), and a translation removes one only to make
room (`serve_removes`). -/
theorem entriesLeaveOnlyByInvalidation : Obligations.EntriesLeaveOnlyByInvalidation := by
  intro s t e hstep he hgone
  rcases step_cases hstep with ⟨-, c, rfl⟩ | ⟨i, u, hnext, hexec, rfl⟩ | ⟨-, -, rfl⟩ | ⟨r, rest, hnext, -, rfl⟩
  · rw [advanceHead_iotlb, logEvent_iotlb] at hgone
    exact absurd he hgone
  · rcases exec_removes hexec he hgone with rfl | ⟨sizeFlag, address, rfl⟩ | ⟨address, rfl⟩ | ⟨address, rfl, hgfn⟩
    · exact .inl hnext
    · exact .inr (.inl ⟨sizeFlag, address, hnext⟩)
    · exact .inr (.inr (.inl ⟨address, hnext⟩))
    · exact .inr (.inr (.inr (.inl ⟨address, hnext, hgfn⟩)))
  · exact absurd he hgone
  · rcases serve_removes (s := { s with inputs := rest }) he hgone with rfl | ⟨devid, iova, access, rfl, hfull⟩
    · exact .inr (.inr (.inr (.inr (.inl hnext))))
    · exact .inr (.inr (.inr (.inr (.inr ⟨devid, iova, access, hnext, hfull⟩))))

/-! ### Memory (20_memory R51, R66) -/

section
variable {s t : State} {x : Nat}

/-- The byte is one of the next event's slot, which is being written: logging is on and the slot writable. -/
def slotWritten (s : State) (x : Nat) : Prop :=
  s.evtlogEnabled = true ∧ s.writeFails (s.latched.evtBase + s.evtTail) 16 = false ∧
    ∃ k < 16, x = (s.latched.evtBase + s.evtTail + BitVec.ofNat 64 k).toNat

/-- A byte that a store changes is one of those stored. -/
theorem mem_of_writeBytes_changed {m : Memory} {a : Word} {bs : List Byte}
    (h : readByte (writeBytes m a bs) x ≠ readByte m x) : ∃ k < bs.length, x = (a + BitVec.ofNat 64 k).toNat := by
  by_contra hout
  exact h (readByte_writeBytes_other m a bs x fun k hk hx => hout ⟨k, hk, hx⟩)

theorem slotWritten_of_logEvent {c : EventCode} {devid : DevId} {flags : BitVec 12} {addr : Word}
    (h : readByte (logEvent s c devid flags addr).mem x ≠ readByte s.mem x) : slotWritten s x := by
  rcases logEvent_cases s c devid flags addr with ⟨_, e⟩ | ⟨_, _, e⟩ | ⟨hen, hroom, -⟩
  · exact absurd (by rw [e]) h
  · exact absurd (by rw [e, raiseIf_mem, setStatusFlag_mem]) h
  · rw [logEvent_mem_of_room c devid flags addr hen hroom] at h
    split_ifs at h with hfails
    · exact absurd rfl h
    · have hin := mem_of_writeBytes_changed h
      rw [length_eventBytes] at hin
      exact ⟨hen, by simpa using hfails, hin⟩

theorem exec_writes {i : Instr} (h : exec i s = .next t) (hx : readByte t.mem x ≠ readByte s.mem x) :
    (∃ interrupt flush addr data, i = .completionWait true interrupt flush addr data ∧ s.writeFails addr 8 = false ∧
      ∃ k < 8, x = (addr + BitVec.ofNat 64 k).toNat) ∨ slotWritten s x := by
  cases i with
  | completionWait store interrupt flush addr data =>
    rw [exec_completionWait] at h
    obtain rfl := Host.Outcome.next.inj h
    rw [completionState_mem] at hx
    split_ifs at hx with hstore
    · obtain ⟨rfl, hwritable⟩ := hstore
      have hin := mem_of_writeBytes_changed hx
      rw [length_wordBytes] at hin
      exact .inl ⟨interrupt, flush, addr, data, rfl, hwritable, hin⟩
    · exact absurd rfl hx
  | invalidateDevtabEntry devid =>
    rw [exec_invalidateDevtabEntry] at h
    obtain rfl := Host.Outcome.next.inj h
    rw [devtabState_mem] at hx
    rcases fetchDte_state s devid with e | ⟨c, e⟩ <;> rw [e] at hx
    · exact absurd rfl hx
    · exact .inr (slotWritten_of_logEvent hx)
  | invalidateIotlbPages devid sizeFlag address =>
    obtain rfl := Host.Outcome.next.inj h
    cases sizeFlag <;> exact absurd rfl hx
  | _ =>
    obtain rfl := Host.Outcome.next.inj h
    exact absurd rfl hx

theorem deviceRequest_writes {devid : DevId}
    (h : (∃ iova access, t = (dmaTranslate s devid iova access).2) ∨ ∃ msg, t = (remapInterrupt s devid msg).2)
    (hx : readByte t.mem x ≠ readByte s.mem x) : slotWritten s x := by
  obtain ⟨u, hu, hlog⟩ := deviceRequest_state h
  obtain ⟨l, rfl⟩ : ∃ l, u = { s with iotlb := l } := ⟨u.iotlb, hu⟩
  rcases hlog with rfl | ⟨c, flags, addr, rfl⟩
  · exact absurd rfl hx
  · exact slotWritten_of_logEvent (s := { s with iotlb := l }) hx

theorem serve_writes {r : Request} (hx : readByte (serve r s).mem x ≠ readByte s.mem x) :
    slotWritten s x ∨
      ∃ addr bytes, r = .hostStore addr bytes ∧ ∃ k < bytes.length, x = (addr + BitVec.ofNat 64 k).toNat := by
  cases r with
  | mmioWrite o z v =>
    rw [serve, mmioWriteStore_frame] at hx
    exact absurd rfl hx
  | translate devid iova access => exact .inl (deviceRequest_writes (.inl ⟨iova, access, rfl⟩) hx)
  | remapInterrupt devid msg => exact .inl (deviceRequest_writes (.inr ⟨msg, rfl⟩) hx)
  | hostStore addr bytes => exact .inr ⟨addr, bytes, rfl, mem_of_writeBytes_changed hx⟩
  | _ => exact absurd rfl hx

end

/-- Settles O59: every step's write is a completion's store, an event's (`slotWritten`) or the host's. -/
theorem memoryIsWrittenInTwoPlaces : Obligations.MemoryIsWrittenInTwoPlaces := by
  intro s t x hstep hx
  rcases step_cases hstep with ⟨-, c, rfl⟩ | ⟨i, u, hnext, hexec, rfl⟩ | ⟨-, -, rfl⟩ | ⟨r, rest, hnext, -, rfl⟩
  · exact .inr (.inl (slotWritten_of_logEvent hx))
  · rcases exec_writes hexec hx with ⟨interrupt, flush, addr, data, rfl, hin⟩ | hslot
    · exact .inl ⟨interrupt, flush, addr, data, hnext, hin⟩
    · exact .inr (.inl hslot)
  · exact absurd rfl hx
  · rcases serve_writes (s := { s with inputs := rest }) hx with hslot | ⟨addr, bytes, rfl, hin⟩
    · exact .inr (.inl hslot)
    · exact .inr (.inr ⟨addr, bytes, hnext, hin⟩)

/-! ### Configuration (R25, 60_exceptions R320) -/

theorem serve_cfg (r : Request) (s : State) : (serve r s).cfg = s.cfg := by
  cases r with
  | mmioWrite o z v => rw [serve, mmioWriteStore_frame]
  | translate devid iova access =>
    obtain ⟨⟨hcfg, -⟩, -⟩ := dmaTranslate_frame s devid iova access
    exact hcfg
  | remapInterrupt devid msg =>
    obtain ⟨⟨hcfg, -⟩, -⟩ := remapInterrupt_frame s devid msg
    exact hcfg
  | _ => rfl

/-- Only a register write and reset touch a register besides `EVT_TAIL` and `STATUS`, or a latched value. -/
theorem serve_configuration (r : Request) (s : State) :
    (∃ offset size value, r = .mmioWrite offset size value) ∨ r = .reset ∨
      (sameRegsBut [.evtTail, .status] s (serve r s) ∧ (serve r s).latched = s.latched) := by
  cases r with
  | mmioWrite o z v => exact .inl ⟨o, z, v, rfl⟩
  | reset => exact .inr (.inl rfl)
  | translate devid iova access =>
    obtain ⟨⟨-, hlatched, -⟩, -, hregs⟩ := dmaTranslate_frame s devid iova access
    exact .inr (.inr ⟨hregs, hlatched⟩)
  | remapInterrupt devid msg =>
    obtain ⟨⟨-, hlatched, -⟩, -, hregs⟩ := remapInterrupt_frame s devid msg
    exact .inr (.inr ⟨hregs, hlatched⟩)
  | _ => exact .inr (.inr ⟨fun _ _ => rfl, rfl⟩)

/-- Settles O60: a step with a command waiting moves the head and the log's registers only (`step_of_waiting`); of the
requests, all but two leave the configuration alone (`serve_configuration`). -/
theorem configurationChangesOnlyByHostOrReset : Obligations.ConfigurationChangesOnlyByHostOrReset := by
  intro s t hstep
  cases hwaiting : s.drainPending with
  | true =>
    obtain ⟨u, hstep', -, hregs, hcfg, hlatched, -⟩ := step_of_waiting hwaiting
    obtain rfl := Host.Outcome.next.inj (hstep'.symm.trans hstep)
    exact ⟨hcfg, fun hchanged => absurd hchanged (not_or.mpr ⟨not_not.mpr hregs, not_not.mpr hlatched⟩)⟩
  | false =>
    cases hin : s.inputs with
    | nil =>
      obtain rfl := Host.Outcome.next.inj ((step_of_no_inputs hwaiting hin).symm.trans hstep)
      exact ⟨rfl, fun hchanged => absurd hchanged (not_or.mpr ⟨not_not.mpr (.refl _ s), not_not.mpr rfl⟩)⟩
    | cons r rest =>
      obtain rfl := Host.Outcome.next.inj ((step_of_request hwaiting hin).symm.trans hstep)
      refine ⟨serve_cfg r _, fun hchanged => ?_⟩
      rcases serve_configuration r { s with inputs := rest } with ⟨o, z, v, rfl⟩ | rfl | ⟨hregs, hlatched⟩
      · exact .inl ⟨o, z, v, hwaiting, rest, hin⟩
      · exact .inr ⟨hwaiting, rest, hin⟩
      · have hsame : sameRegsBut [.cmdHead, .evtTail, .status] s (serve r { s with inputs := rest }) :=
          hregs.mono (by decide)
        exact absurd hchanged (not_or.mpr ⟨not_not.mpr hsame, not_not.mpr hlatched⟩)

end Sys2Proof.Machine
end
